-- ==== Sys2Proof/Word.lean ====
section
/-! DEFINITION. The word types of HUFFCORE: the 32-bit host word and the bit sequences of the streams. -/

namespace Sys2Proof

/-- A host register, a frequency count or a node weight: `REGBITS` = `W` = 32 bits (00_scope.md R7). -/
abbrev Word := BitVec 32

/-- A finite sequence of bits, first bit first (00_scope.md R10; 20_memory.md R62). -/
abbrev Bits := List Bool

end Sys2Proof
end

