-- ==== Sys2Proof/Config.lean ====
section
/-! DEFINITION. The configuration: the parameters of 00_scope.md R6 and R7 by name, the constants the spec leaves
open, and the free word of a host read that the spec leaves unspecified. -/

namespace Sys2Proof

/-- `NSYM`, the number of symbols, 0..256 (R6). -/
def Config.nsym : Nat := 257
/-- `EOS`, the end-of-stream pseudo-symbol (R6). -/
def Config.eos : Nat := 256
/-- `WORDBITS`, the width of an input chunk and of a decoded unit (R6). -/
def Config.wordBits : Nat := 8
/-- `SYMBITS`, the width of the leaf value field in the header (R6). -/
def Config.symBits : Nat := 9
/-- `MAGICBITS`, the width of the format marker (R6). -/
def Config.magicBits : Nat := 32
/-- `W`, the bits of a count and of a weight (R7, D3). -/
def Config.w : Nat := 32
/-- `NMAX` = 2 * NSYM - 1, the capacity of the node arena (R7, D8). -/
def Config.nmax : Nat := 513
/-- `IDXBITS`, the bits of a node index (R7, D8). -/
def Config.idxBits : Nat := 10
/-- `VALBITS`, the bits of a node's VALUE field (R7, D8). -/
def Config.valBits : Nat := 16
/-- `LENMAX`, the largest code length (R7, D30). -/
def Config.lenMax : Nat := 256
/-- `REGBITS`, the width of a host register (R7, D2). -/
def Config.regBits : Nat := 32

/-- PRESUMED (log 1): the DEFAULT of the open parameter `MAGIC` (R7, R96, D4, G1). The machine reads
`State.magic`, never this constant, so a claim about all states is a claim about every `MAGIC`. -/
def Config.magicDefault : Word := 0xFACE8201#32

/-- `REG_BASE` (R7, D35): open, so a constant without a body (log 11). -/
opaque Config.regBase : Nat

/-- `REG_STRIDE` (R7, D35): open, so a constant without a body (log 11). -/
opaque Config.regStride : Nat

/-- The bus address of register number `n` (R7): no rule depends on it. -/
def Config.regAddr (n : Nat) : Nat := Config.regBase + n * Config.regStride

/-- The FREE VALUE of an "unspecified word" (10_state.md R50 c; 93_implementation_defined.md U6): the k-th draw
is `Config.freeWord k`, of which nothing is known (log 2). -/
opaque Config.freeWord : Nat → Word

end Sys2Proof
end

