-- ==== Sys2Proof/Syntax.lean ====
section
/-! DEFINITION. The instructions of HUFFCORE: one constructor per row of spec/opcode_table.json, fourteen command
words (30_encoding.md R92) and three records of the compressed stream (R96, R97). -/

namespace Sys2Proof

/-- One constructor per row of the opcode table. Commands take no operand (R91); the only immediate of HUFFCORE is
the Symbol of a header leaf record (R98). -/
inductive Instr where
  /-- `CLRFREQ`, word 0x00000001 (R121). -/
  | clrfreq
  /-- `COUNT`, word 0x00000002 (R122). -/
  | count
  /-- `BUILD`, word 0x00000003 (R131). -/
  | build
  /-- `GENCODE`, word 0x00000004 (R146). -/
  | gencode
  /-- `WRMAGIC`, word 0x00000005 (R156). -/
  | wrmagic
  /-- `WRHDR`, word 0x00000006 (R157). -/
  | wrhdr
  /-- `REWIND`, word 0x00000007 (R176). -/
  | rewind
  /-- `ENCODE`, word 0x00000008 (R178). -/
  | encode
  /-- `FLUSH`, word 0x00000009 (R182). -/
  | flush
  /-- `RDMAGIC`, word 0x0000000A (R160). -/
  | rdmagic
  /-- `RDHDR`, word 0x0000000B (R161). -/
  | rdhdr
  /-- `DECODE`, word 0x0000000C (R185). -/
  | decode
  /-- `COMPRESS`, word 0x0000000D (R196). -/
  | compress
  /-- `DECOMPRESS`, word 0x0000000E (R198). -/
  | decompress
  /-- `MAGIC_WORD`: the 32-bit marker that opens a compressed stream (R96). -/
  | magicWord
  /-- `HDR_INTERNAL`: the 1-bit header record of an internal node (R97). -/
  | hdrInternal
  /-- `HDR_LEAF`: the 10-bit header record of a leaf with its Symbol (R97, R98). -/
  | hdrLeaf (sym : BitVec 9)
deriving DecidableEq, Repr

end Sys2Proof
end

