-- ==== Sys2Proof/WellFormed.lean ====
section
/-! DEFINITION. Which instructions are well formed: the one operand of the table, the Symbol of a leaf record, must
name a Symbol. -/

namespace Sys2Proof

/-- 30_encoding.md R100: symbol field values 257..511 name no Symbol. Every other row has no operand. -/
def Instr.wf : Instr → Bool
  | .clrfreq => true
  | .count => true
  | .build => true
  | .gencode => true
  | .wrmagic => true
  | .wrhdr => true
  | .rewind => true
  | .encode => true
  | .flush => true
  | .rdmagic => true
  | .rdhdr => true
  | .decode => true
  | .compress => true
  | .decompress => true
  | .magicWord => true
  | .hdrInternal => true
  | .hdrLeaf sym => decide (sym.toNat ≤ 256)

end Sys2Proof
end

