-- ==== Sys2Proof/Decode.lean ====
section
/-! DEFINITION. The two decoders of HUFFCORE, of a command word (30_encoding.md R90 to R93) and of a stream item
(R95 to R100), each total and rejecting by name; and after them the encoder, from the same tables. -/

namespace Sys2Proof

/-- `bitsN(v)`: the n bits of v, most significant first (00_scope.md R10). -/
def bitsOf : Nat → Nat → Bits
  | 0, _ => []
  | n + 1, v => v.testBit n :: bitsOf n v

/-- `val(q)`: `val([]) = 0`, `val(q ++ [b]) = 2 val(q) + b` (R10). -/
def valOf (q : Bits) : Nat := q.foldl (fun v b => 2 * v + b.toNat) 0

/-- Why a decoder rejects. -/
inductive Reject where
  /-- A command word with `w[31:4] ≠ 0` (R93). Safe: the host's write then raises E_ILLEGAL_CMD. -/
  | upperBitsSet
  /-- A command word with `OP` 0x0 or 0xF (R93). Safe: the host's write then raises E_ILLEGAL_CMD. -/
  | reservedOp (op : BitVec 4)
  /-- 32 stream bits that are not the marker (R104). Safe: RDMAGIC then raises E_MALFORMED_HEADER. -/
  | notMarker
  /-- The bits end inside the record (R104). Safe: RDHDR then raises E_TRUNCATED. -/
  | truncated
  /-- A symbol field 257..511 (R100). Safe: RDHDR then raises E_BAD_SYMBOL. -/
  | reservedSymbol (field : BitVec 9)
  /-- Bits are left over where exactly one record was to be decoded. Safe: only `decode` and the table lookup ask. -/
  | trailingBits
deriving DecidableEq, Repr

/-- The two header node records (R97). -/
inductive HdrRecord where
  /-- `0`: an internal node; its left subtree's records follow, then its right subtree's. -/
  | internal
  /-- `1 s8 … s0`: a leaf with its Symbol. -/
  | leaf (sym : BitVec 9)
deriving DecidableEq, Repr

/-- The record as a row of the table. -/
def HdrRecord.instr : HdrRecord → Instr
  | .internal => .hdrInternal
  | .leaf sym => .hdrLeaf sym

/-- The opcode map of R92, by `OP`. -/
def instrOfOp (op : BitVec 4) : Except Reject Instr :=
  match op.toNat with
  | 0x1 => .ok .clrfreq
  | 0x2 => .ok .count
  | 0x3 => .ok .build
  | 0x4 => .ok .gencode
  | 0x5 => .ok .wrmagic
  | 0x6 => .ok .wrhdr
  | 0x7 => .ok .rewind
  | 0x8 => .ok .encode
  | 0x9 => .ok .flush
  | 0xA => .ok .rdmagic
  | 0xB => .ok .rdhdr
  | 0xC => .ok .decode
  | 0xD => .ok .compress
  | 0xE => .ok .decompress
  | _ => .error (.reservedOp op)

/-- R92: check `w[31:4] = 0`, then look `w[3:0]` up in the opcode map. -/
def decodeCmd (w : Word) : Except Reject Instr :=
  if w.extractLsb' 4 28 = 0#28 then instrOfOp (w.extractLsb' 0 4) else .error .upperBitsSet

/-- R96: the marker is `bits32(MAGIC)`, whole. -/
def decodeMarker (magic w : Word) : Except Reject Instr :=
  if w = magic then .ok .magicWord else .error .notMarker

/-- R98, R100: the symbol field, 0..256 legal. -/
def decodeSymbol (field : BitVec 9) : Except Reject HdrRecord :=
  if field.toNat ≤ 256 then .ok (.leaf field) else .error (.reservedSymbol field)

/-- R97: the first bit tells the record's format and hence its length; the rest of the bits is returned. -/
def decodeRecord : Bits → Except Reject (HdrRecord × Bits)
  | [] => .error .truncated
  | false :: rest => .ok (.internal, rest)
  | true :: rest =>
    if 9 ≤ rest.length then
      match decodeSymbol (BitVec.ofNat 9 (valOf (rest.take 9))) with
      | .ok r => .ok (r, rest.drop 9)
      | .error e => .error e
    else .error .truncated

/-- An encoded instruction, with the place it stands in: a word written to `CMD`, the marker of a stream, or a header
record of a stream. -/
inductive Encoded where
  /-- A word written to `CMD` (R90). -/
  | cmd (w : Word)
  /-- The first 32 bits of a stream (R96). -/
  | marker (w : Word)
  /-- One header record, first bit first (R97). -/
  | record (bits : Bits)
deriving DecidableEq, Repr

/-- One whole encoded instruction, under the marker constant `magic`. -/
def decode (magic : Word) : Encoded → Except Reject Instr
  | .cmd w => decodeCmd w
  | .marker w => decodeMarker magic w
  | .record bits =>
    match decodeRecord bits with
    | .ok (r, []) => .ok r.instr
    | .ok (_, _ :: _) => .error .trailingBits
    | .error e => .error e

/-- The opcode of a command (R92); 0, no command's opcode, for a stream record. -/
def opcodeOf : Instr → BitVec 4
  | .clrfreq => 0x1#4
  | .count => 0x2#4
  | .build => 0x3#4
  | .gencode => 0x4#4
  | .wrmagic => 0x5#4
  | .wrhdr => 0x6#4
  | .rewind => 0x7#4
  | .encode => 0x8#4
  | .flush => 0x9#4
  | .rdmagic => 0xA#4
  | .rdhdr => 0xB#4
  | .decode => 0xC#4
  | .compress => 0xD#4
  | .decompress => 0xE#4
  | .magicWord => 0x0#4
  | .hdrInternal => 0x0#4
  | .hdrLeaf _ => 0x0#4

/-- The command word of R90: `OP` in [3:0], zeros above. -/
def commandWord (i : Instr) : Word := (opcodeOf i).setWidth 32

/-- R97, R98: the bits of a header record. -/
def encodeRecord : HdrRecord → Bits
  | .internal => [false]
  | .leaf sym => true :: bitsOf 9 sym.toNat

/-- The encoder, under the marker constant `magic` (R90, R92, R96, R97). -/
def encode (magic : Word) : Instr → Encoded
  | .clrfreq => .cmd (commandWord .clrfreq)
  | .count => .cmd (commandWord .count)
  | .build => .cmd (commandWord .build)
  | .gencode => .cmd (commandWord .gencode)
  | .wrmagic => .cmd (commandWord .wrmagic)
  | .wrhdr => .cmd (commandWord .wrhdr)
  | .rewind => .cmd (commandWord .rewind)
  | .encode => .cmd (commandWord .encode)
  | .flush => .cmd (commandWord .flush)
  | .rdmagic => .cmd (commandWord .rdmagic)
  | .rdhdr => .cmd (commandWord .rdhdr)
  | .decode => .cmd (commandWord .decode)
  | .compress => .cmd (commandWord .compress)
  | .decompress => .cmd (commandWord .decompress)
  | .magicWord => .marker magic
  | .hdrInternal => .record (encodeRecord .internal)
  | .hdrLeaf sym => .record (encodeRecord (.leaf sym))

/-- Where an encoded instruction stands, from the table's width of its row and its bits as one number: HDR_INTERNAL
has 1 bit (one byte of the table), HDR_LEAF has 10 (two bytes), a word of 32 bits is a command word or, if it is none,
the marker. A number with more bits than the record keeps them all, so that the decoder sees what is left over (log 14). -/
def placeOf (magic : Word) (nbits w : Nat) : Encoded :=
  if nbits ≤ 8 then .record (bitsOf (if w < 2 then 1 else nbits) w)
  else if nbits ≤ 16 then .record (bitsOf (if w < 1024 then 10 else nbits) w)
  else if BitVec.ofNat 32 w = magic ∧ (decodeCmd (BitVec.ofNat 32 w)).isOk = false
    then .marker (BitVec.ofNat 32 w)
  else .cmd (BitVec.ofNat 32 w)

/-- The instruction the decoder reads from a row's bits, numbered as the opcode table numbers them (the marker
constant is the default one, as in the table's own row). -/
def decodeTableWord (nbits w : Nat) : Option Instr :=
  if w < 2 ^ nbits then (decode Config.magicDefault (placeOf Config.magicDefault nbits w)).toOption
  else none

end Sys2Proof
end

