-- ==== Sys2Proof/Machine/State.lean ====
section
/-! DEFINITION. The state of HUFFCORE (10_state.md R20), of its two streams (20_memory.md R62) and of the host's
pending moves; its value right after reset (R52); and the reasons a step can stop. -/

namespace Sys2Proof.Machine

/-- An index into the arena `NODE[0..512]` (10_state.md R21, R32): 10 bits, range 0..512. -/
abbrev NodeIx := Fin 513

/-- A count 0..513 held in 10 bits: `NNODES`, `SEQ` (R21). -/
abbrev Count := Fin 514

/-- A Symbol, 0..256: an index into `FREQ` and `CODE` (R30, R34). -/
abbrev Symbol := Fin 257

/-- One entry of the arena (R32). -/
structure Node where
  /-- `KIND`: true (1) for a leaf (R33). -/
  kind : Bool
  /-- `VALUE`: a leaf's Symbol; an internal node's combined identity value. -/
  value : BitVec 16
  /-- `WEIGHT`. -/
  weight : Word
  /-- `LEFT`, the left child of an internal node. -/
  left : NodeIx
  /-- `RIGHT`, the right child of an internal node. -/
  right : NodeIx
deriving DecidableEq, Repr

/-- One entry of the Code Table (R34): the code is the bit sequence `bitsLEN(VAL)`. -/
structure CodeEntry where
  /-- `VALID`. -/
  valid : Bool
  /-- `LEN`, 0..256. -/
  len : BitVec 9
  /-- `VAL`. -/
  val : BitVec 256
deriving DecidableEq, Repr

/-- One entry of the priority queue (R35). -/
structure PqEntry where
  weight : Word
  seq : Count
  node : NodeIx
deriving DecidableEq, Repr

/-- Which child an internal node still waits for while a header is read (R37, 43_header_codec.md R161). -/
inductive Slot where
  | left
  | right
deriving DecidableEq, Repr

/-- One entry of `STACK` (R37). WRHDR uses `node`; RDHDR uses `node` and `slot`; GENCODE uses `node`, `len` and
`path`. The fields a command does not use hold `Slot.left` and 0. -/
structure StackEntry where
  node : NodeIx
  slot : Slot
  len : BitVec 9
  path : BitVec 256
deriving DecidableEq, Repr

/-- The input stream IN (20_memory.md R62): a finite sequence of bits and the read position. -/
structure InStream where
  bits : Bits
  pos : Nat
deriving DecidableEq, Repr

/-- One move of the host (10_state.md R41 to R50; 70_reset_and_hazards.md R259). -/
inductive HostMove where
  /-- `RST` (R245). -/
  | rst
  /-- Attach another IN, at a position within it (20_memory.md R81). -/
  | attachIn (bits : Bits) (pos : Nat)
  /-- Attach another OUT (R81). -/
  | attachOut (bits : Bits)
  /-- Write a word to a register by number; register 0 is `CMD` (R41, R42). -/
  | write (reg : Nat) (w : Word)
  /-- Read a register by number (R41). -/
  | read (reg : Nat)
  /-- Read `OUT.bits` (R81, R259). -/
  | collect
deriving DecidableEq, Repr

/-- The causes of a raise (60_exceptions.md R216; code 0, E_NONE, is no cause). -/
inductive Err where
  | malformedHeader
  | truncated
  | illegalCmd
  | sequence
  | badSymbol
  | trieOverflow
  | badRoot
  | noCode
  | overflow
deriving DecidableEq, Repr

/-- The whole state. The last five fields are the model's own (INVENTORY.md, '## State'). -/
structure State where
  /-- `ROOT` (R22). -/
  root : NodeIx
  /-- `NNODES` (R23). -/
  nnodes : Count
  /-- `SEQ` (R24). -/
  seq : Count
  /-- `CUR` (R25). -/
  cur : NodeIx
  /-- `PHASE` (R27). -/
  phase : BitVec 4
  /-- `BUSY` (R28). -/
  busy : Bool
  /-- `DONE` (R28). -/
  done : Bool
  /-- `ERR` (R28). -/
  err : Bool
  /-- `FREQ_VALID` (R28). -/
  freqValid : Bool
  /-- `TRIE_VALID` (R28). -/
  trieValid : Bool
  /-- `CODES_VALID` (R28). -/
  codesValid : Bool
  /-- `ERRCODE` (R29). -/
  errcode : BitVec 4
  /-- `FREQ_ADDR` (R46). -/
  freqAddr : BitVec 9
  /-- `NODE_ADDR` (R47). -/
  nodeAddr : BitVec 10
  /-- `CODE_ADDR` (R48). -/
  codeAddr : BitVec 9
  /-- `FREQ[0..256]` (R30). -/
  freq : Vector Word 257
  /-- `NODE[0..512]` (R32). -/
  node : Vector Node 513
  /-- `CODE[0..256]` (R34). -/
  code : Vector CodeEntry 257
  /-- `PQ` (R35), a set, kept in the order of R36 as its one canonical form. -/
  pq : List PqEntry
  /-- `STACK[SP-1], …, STACK[0]` (R37): the live entries, top first; `SP` is their number (log 8). -/
  stack : List StackEntry
  /-- `MAGIC` (R39, R49): the configuration constant behind host register 21; no operation writes it (log 1). -/
  magic : Word
  /-- IN (20_memory.md R62). -/
  inp : InStream
  /-- `OUT.bits` (R62). -/
  out : Bits
  /-- The host's moves still to come, oldest first (log 5). -/
  host : List HostMove
  /-- The word the host's last register read returned (log 5). -/
  busData : Word
  /-- The bits the host's last collect returned (log 5). -/
  collected : Bits
  /-- A BUILD or an RDHDR has started since reset (R44; log 9). -/
  trieStarted : Bool
  /-- How many free words have been drawn (R50 c; log 2). -/
  draws : Nat
deriving DecidableEq, Repr

/-- `SP` (R26): the number of entries on `STACK`. -/
def State.sp (s : State) : Nat := s.stack.length

/-- Why the machine can stop. None of these is an error of the spec (those are NEXT states, 60_exceptions.md R217):
each names a situation that an invariant of the spec excludes, so no run from reset reaches one (log 10). All are
safe: the model stops where the spec gives no such state. -/
inductive Fault where
  /-- `step`, engine mid-command (`BUSY = 1`) in a phase whose progress is not in the state (R9, R50 a). Safe. -/
  | engineBusy
  /-- A push when `SP = 513` (R37 says no command does so in a well-formed arena). Safe. -/
  | stackFull
  /-- BUILD would allocate a 514th node (41_trie_builder.md R133 excludes it). Safe. -/
  | arenaFull
  /-- BUILD's queue is empty at phase 3 (R131 excludes it, `FREQ[256] = 1`). Safe. -/
  | queueEmpty
  /-- GENCODE's or WRHDR's walk does not end within `NNODES ≤ 513` nodes: the arena is no trie (R40). Safe. -/
  | walkUnending
  /-- GENCODE meets a leaf whose `VALUE` is above 256, where `CODE` has no entry (R32, R61). Safe. -/
  | noSuchSymbol
  /-- A loop's bound was passed; each loop's bound is its termination argument (R122, R131, R166, R178, R185). Safe. -/
  | loopBound
deriving DecidableEq, Repr

/-- Why a step has no meaning. -/
inductive Refusal where
  /-- `exec`, an instruction that has no meaning yet. Safe. -/
  | notModelled (mnemonic : String)
  /-- `step`, a host move that attaches IN at a position outside it, which is no move of the host (20_memory.md R81:
  "any position within it"). Safe. -/
  | attachOutsideStream
deriving DecidableEq, Repr

/-- The node a table entry holds at reset: R52 says none; a value behind cleared valid flags (log 3). -/
def Node.blank : Node := { kind := false, value := 0, weight := 0, left := 0, right := 0 }

/-- A Code Table entry without a code (42_code_table.md R146): what GENCODE clears every entry to. -/
def CodeEntry.blank : CodeEntry := { valid := false, len := 0, val := 0 }

/-- The state right after reset (R52, R245), with both streams empty and no host move pending (log 4, log 5). -/
def State.reset : State where
  root := 0
  nnodes := 0
  seq := 0
  cur := 0
  phase := 0
  busy := false
  done := false
  err := false
  freqValid := false
  trieValid := false
  codesValid := false
  errcode := 0
  freqAddr := 0
  nodeAddr := 0
  codeAddr := 0
  freq := Vector.replicate 257 0
  node := Vector.replicate 513 Node.blank
  code := Vector.replicate 257 CodeEntry.blank
  pq := []
  stack := []
  magic := Config.magicDefault
  inp := { bits := [], pos := 0 }
  out := []
  host := []
  busData := 0
  collected := []
  trieStarted := false
  draws := 0

end Sys2Proof.Machine
end

