-- ==== Sys2Proof/Machine/Operands.lean ====
section
/-! DEFINITION. What commands work on (30_encoding.md R91: every operand is implicit): the two streams through the
collaborator's four calls (20_memory.md R63 to R68), and the tables NODE, PQ, STACK and CODE. -/

namespace Sys2Proof.Machine

/-- `InRead(n)`, R64 and R65: the next n bits as a number, first bit most significant, or `none` (`EXH`) with the
position at the end of IN when fewer than n bits remain. -/
def inRead (n : Nat) (s : State) : Option (BitVec n) × State :=
  if s.inp.pos + n ≤ s.inp.bits.length then
    (some (BitVec.ofNat n (valOf ((s.inp.bits.drop s.inp.pos).take n))),
      { s with inp := { s.inp with pos := s.inp.pos + n } })
  else (none, { s with inp := { s.inp with pos := s.inp.bits.length } })

/-- `InRewind()`, R66. -/
def inRewind (s : State) : State := { s with inp := { s.inp with pos := 0 } }

/-- Append a sequence of bits to OUT (R67: any grouping into `OutWrite` calls appends the same bits). -/
def outAppend (q : Bits) (s : State) : State := { s with out := s.out ++ q }

/-- `OutWrite(n, v)`, R67: v's n bits, most significant first. -/
def outWrite (n : Nat) (v : BitVec n) (s : State) : State := outAppend (bitsOf n v.toNat) s

/-- R68: how many zero bits bring a sequence of `len` bits to a byte boundary. -/
def padLength (len : Nat) : Nat := (8 - len % 8) % 8

/-- `OutFlush()`, R68; its "close" half is not modelled (log 12). -/
def outFlush (s : State) : State := outAppend (List.replicate (padLength s.out.length) false) s

/-- The next count. Only applied to counts below 513 (10_state.md R23, R24; 00_scope.md R15), so it never saturates. -/
def nextCount (n : Count) : Count := if h : n.val + 1 < 514 then ⟨n.val + 1, h⟩ else n

/-- Allocate the next arena entry, `NODE[NNODES] <- nd; NNODES <- NNODES + 1`; `none` when `NNODES = 513`. -/
def allocNode (nd : Node) (s : State) : Option (NodeIx × State) :=
  if h : s.nnodes.val < 513 then
    some (⟨s.nnodes.val, h⟩, { s with node := s.node.set s.nnodes.val nd, nnodes := nextCount s.nnodes })
  else none

/-- The order of `PQ` (10_state.md R36): by weight, then by sequence number. -/
def pqBefore (a b : PqEntry) : Bool :=
  decide (a.weight.toNat < b.weight.toNat ∨ a.weight = b.weight ∧ a.seq.val < b.seq.val)

/-- `PQ.insert(e)` (R35) on the sorted form, so that `PQ.extract_min()` takes the head. -/
def pqInsert (e : PqEntry) : List PqEntry → List PqEntry
  | [] => [e]
  | x :: xs => if pqBefore e x then e :: x :: xs else x :: pqInsert e xs

/-- The canonical form of `PQ`: the set's entries in the order of R36 (log 13). -/
def pqSorted (q : List PqEntry) : Prop := q.Pairwise fun a b => pqBefore a b = true

/-- `PQ.insert((weight, SEQ, node)); SEQ <- SEQ + 1` (41_trie_builder.md R131). -/
def enqueue (weight : Word) (node : NodeIx) (s : State) : State :=
  { s with pq := pqInsert { weight := weight, seq := s.seq, node := node } s.pq, seq := nextCount s.seq }

/-- `push(e)` (R37), `none` when `SP = 513`. -/
def push (e : StackEntry) (s : State) : Option State :=
  if s.stack.length < 513 then some { s with stack := e :: s.stack } else none

/-- A stack entry that holds a node index only (R37, WRHDR). -/
def nodeEntry (i : NodeIx) : StackEntry := { node := i, slot := .left, len := 0, path := 0 }

/-- A stack entry of RDHDR: node i waits for its left child (R37, R161). -/
def waitEntry (i : NodeIx) : StackEntry := { node := i, slot := .left, len := 0, path := 0 }

/-- A stack entry of GENCODE (R37): the node at the end of a path of `len` edges with value `path`. -/
def pathEntry (i : NodeIx) (len : BitVec 9) (path : BitVec 256) : StackEntry :=
  { node := i, slot := .left, len := len, path := path }

/-- The path value extended by one edge, `2 v + b` (00_scope.md R15). -/
def extendPath (v : BitVec 256) (b : Bool) : BitVec 256 := v + v + (BitVec.ofBool b).setWidth 256

/-- The bit sequence a Code Table entry stands for, `bitsLEN(VAL)` (R34, 30_encoding.md R105). -/
def codeBits (c : CodeEntry) : Bits := bitsOf c.len.toNat c.val.toNat

/-- A byte read from IN as a Symbol (20_memory.md R61). -/
def byteSymbol (x : BitVec 8) : Symbol := ⟨x.toNat, Nat.lt_of_lt_of_le x.isLt (by decide)⟩

/-- The pseudo-symbol `EOS` (00_scope.md R6). -/
def eosSymbol : Symbol := ⟨256, by decide⟩

end Sys2Proof.Machine
end

