-- ==== Sys2Proof/Machine/Flags.lean ====
section
/-! DEFINITION. The flags (10_state.md R28): the STATUS word, the preconditions of the commands (30_encoding.md R92),
and the flag writes the commands share. -/

namespace Sys2Proof.Machine

/-- A flag as a bit of a host word. -/
def flagBit (b : Bool) (i : Nat) : Word := if b then BitVec.ofNat 32 (2 ^ i) else 0

/-- `STATUS` (R41, R43): BUSY, DONE, ERR, FREQ_VALID, TRIE_VALID, CODES_VALID in bits 0 to 5. -/
def statusWord (s : State) : Word :=
  flagBit s.busy 0 ||| flagBit s.done 1 ||| flagBit s.err 2 ||| flagBit s.freqValid 3
    ||| flagBit s.trieValid 4 ||| flagBit s.codesValid 5

/-- The valid flag a primitive needs, else E_SEQUENCE (30_encoding.md R92). -/
def precondition : Instr → State → Bool
  | .clrfreq, _ => true
  | .count, _ => true
  | .build, s => s.freqValid
  | .gencode, s => s.trieValid
  | .wrmagic, _ => true
  | .wrhdr, s => s.trieValid
  | .rewind, _ => true
  | .encode, s => s.codesValid
  | .flush, _ => true
  | .rdmagic, _ => true
  | .rdhdr, _ => true
  | .decode, s => s.trieValid
  | .compress, _ => true
  | .decompress, _ => true
  | .magicWord, _ => true
  | .hdrInternal, _ => true
  | .hdrLeaf _, _ => true

/-- The start of BUILD and of RDHDR: `TRIE_VALID <- 0; CODES_VALID <- 0; NNODES <- 0` (R28, R23). From here on `ROOT`
and `NNODES` no longer hold their reset value for certain (R44). -/
def startTrie (s : State) : State :=
  { s with trieValid := false, codesValid := false, nnodes := 0, trieStarted := true }

/-- The end of BUILD and of RDHDR: `ROOT <- r; TRIE_VALID <- 1` (R28). -/
def endTrie (r : NodeIx) (s : State) : State := { s with root := r, trieValid := true }

end Sys2Proof.Machine
end

