-- ==== Sys2Proof/Machine/Ops.lean ====
section
/-! DEFINITION. The operations every command shares: raising an error (60_exceptions.md R217), the reset that alone
clears it (70_reset_and_hazards.md R245), how a body ends, and the envelope of command acceptance (30_encoding.md R94). -/

namespace Sys2Proof.Machine

/-- `ERRCODE` of a cause (60_exceptions.md R216). -/
def Err.code : Err → BitVec 4
  | .malformedHeader => 1#4
  | .truncated => 2#4
  | .illegalCmd => 3#4
  | .sequence => 4#4
  | .badSymbol => 5#4
  | .trieOverflow => 6#4
  | .badRoot => 7#4
  | .noCode => 8#4
  | .overflow => 9#4

/-- TAKING AN EXCEPTION: `raise E_X` (R217, R232). `ERR <- 1; ERRCODE <- code; BUSY <- 0; DONE <- 0`; nothing else:
no handler, no saved pc, no rollback, `PHASE` stays. -/
def raiseErr (e : Err) (s : State) : State :=
  { s with err := true, errcode := e.code, busy := false, done := false }

/-- There is no return from an error (R233): `RST` is the only way on (R245). All of HUFFCORE's own state takes its
reset value; IN and OUT stay as they are, and so do the constant `MAGIC` and the model's host-side fields. -/
def applyReset (s : State) : State :=
  { State.reset with
    magic := s.magic, inp := s.inp, out := s.out, host := s.host, busData := s.busData
    collected := s.collected, draws := s.draws }

/-- How a body ends. -/
inductive Run where
  /-- It came to its end in this state. -/
  | ok (s : State)
  /-- It raised, with the state at the point of the raise (R9, R232). -/
  | raised (e : Err) (s : State)
  /-- It has no next state (log 10). -/
  | stuck (f : Fault)
deriving DecidableEq, Repr

/-- Sequencing: "no later line of it, and no later member of a composite, is executed" after a raise (R217). -/
def Run.bind (r : Run) (f : State → Run) : Run :=
  match r with
  | .ok s => f s
  | .raised e s => .raised e s
  | .stuck x => .stuck x

/-- A push that cannot find room stops the machine (log 10). -/
def pushRun (e : StackEntry) (s : State) : Run :=
  match push e s with
  | some t => .ok t
  | none => .stuck .stackFull

/-- Acceptance of a command: `DONE <- 0; BUSY <- 1` (R94). -/
def accept (s : State) : State := { s with done := false, busy := true }

/-- Successful end of a command: `BUSY <- 0; DONE <- 1` (R94). -/
def finish (s : State) : State := { s with busy := false, done := true }

/-- The end of an accepted command: success, raise, or none. -/
def settle : Run → Host.Outcome State Fault Refusal
  | .ok s => .next (finish s)
  | .raised e s => .next (raiseErr e s)
  | .stuck f => .fault f

/-- The envelope of R94 around a command: no effect at all while `BUSY = 1` or `ERR = 1` (R42), else accept, run, end;
one step of the machine (00_scope.md R9, log 6). -/
def issue (run : State → Run) (s : State) : Host.Outcome State Fault Refusal :=
  if s.busy || s.err then .next s else settle (run (accept s))

/-- `PHASE <- OP` (10_state.md R27). -/
def setPhase (i : Instr) (s : State) : State := { s with phase := opcodeOf i }

/-- A primitive, whether the host issued it or a composite reached it (R94): `PHASE <- OP`, then the precondition,
else E_SEQUENCE (R223), then the body. -/
def primitive (i : Instr) (body : State → Run) (s : State) : Run :=
  if precondition i s then body (setPhase i s) else .raised .sequence (setPhase i s)

/-- The arrival of a reserved word at `CMD` (R93, R94, R222): ignored while `BUSY = 1` or `ERR = 1`, else E_ILLEGAL_CMD. -/
def rejectWord (s : State) : State := if s.busy || s.err then s else raiseErr .illegalCmd s

end Sys2Proof.Machine
end

