-- ==== Sys2Proof/Machine/CodeTable.lean ====
section
/-! DEFINITION. The Code Table Generator command GENCODE (42_code_table.md). -/

namespace Sys2Proof.Machine

/-- The walk of GENCODE (R146): pop a node; a leaf's path becomes its Symbol's code (a later leaf of the same Symbol
overwrites, R152); below an internal node the right edge is 1 and the left edge 0, left popped first. The loop runs
`NNODES ≤ 513` times on a well-formed arena. -/
def gencodeLoop : Nat → State → Run
  | 0, s =>
    match s.stack with
    | [] => .ok s
    | _ :: _ => .stuck .walkUnending
  | fuel + 1, s =>
    match s.stack with
    | [] => .ok s
    | e :: rest =>
      if (s.node[e.node]).kind then
        if h : (s.node[e.node]).value.toNat < 257 then
          gencodeLoop fuel
            { s with
              stack := rest
              code := s.code.set (s.node[e.node]).value.toNat { valid := true, len := e.len, val := e.path } h }
        else .stuck .noSuchSymbol
      else
        ((pushRun (pathEntry (s.node[e.node]).right (e.len + 1#9) (extendPath e.path true))
              { s with stack := rest }).bind
            (pushRun (pathEntry (s.node[e.node]).left (e.len + 1#9) (extendPath e.path false)))).bind
          (gencodeLoop fuel)

/-- The body of GENCODE (R146). -/
def gencodeBody (s : State) : Run :=
  (gencodeLoop 513
      { s with
        codesValid := false
        code := Vector.replicate 257 CodeEntry.blank
        stack := [pathEntry s.root 0#9 0#256] }).bind fun t =>
    .ok { t with codesValid := true }

/-- GENCODE as a member. -/
def runGencode (s : State) : Run := primitive .gencode gencodeBody s

/-- `GENCODE` (R146). -/
def execGencode (s : State) : Host.Outcome State Fault Refusal := issue runGencode s

end Sys2Proof.Machine
end

