-- ==== Sys2Proof/Machine/FrequencyTable.lean ====
section
/-! DEFINITION. The Frequency Table commands CLRFREQ and COUNT (40_frequency_table.md). -/

namespace Sys2Proof.Machine

/-- The Frequency Table of an empty input (R121): all 0 but entry 256, which is 1. -/
def emptyFreq : Vector Word 257 := (Vector.replicate 257 0#32).set 256 1#32

/-- The body of CLRFREQ (R121); `FREQ_VALID` is 0 in between and 1 at the end. -/
def clrfreqBody (s : State) : Run := .ok { s with freq := emptyFreq, freqValid := true }

/-- The scan loop of COUNT (R122), with its overflow check (R123). Each iteration that goes on takes 8 bits of IN, so
`fuel = len(IN.bits) + 1` is never used up. -/
def countLoop : Nat → State → Run
  | 0, _ => .stuck .loopBound
  | fuel + 1, s =>
    match inRead 8 s with
    | (none, t) => .ok t
    | (some x, t) =>
      if t.freq[byteSymbol x] = BitVec.allOnes 32 then .raised .overflow t
      else countLoop fuel
        { t with freq := t.freq.set (byteSymbol x).val (t.freq[byteSymbol x] + 1#32) (byteSymbol x).isLt }

/-- The body of COUNT (R122). -/
def countBody (s : State) : Run :=
  (countLoop (s.inp.bits.length + 1)
      { s with freqValid := false, freq := Vector.replicate 257 0#32 }).bind fun t =>
    .ok { t with freq := t.freq.set 256 1#32, freqValid := true }

/-- CLRFREQ as a member: `PHASE`, precondition, body (30_encoding.md R94). -/
def runClrfreq (s : State) : Run := primitive .clrfreq clrfreqBody s

/-- COUNT as a member. -/
def runCount (s : State) : Run := primitive .count countBody s

/-- `CLRFREQ` (R121). -/
def execClrfreq (s : State) : Host.Outcome State Fault Refusal := issue runClrfreq s

/-- `COUNT` (R122). -/
def execCount (s : State) : Host.Outcome State Fault Refusal := issue runCount s

end Sys2Proof.Machine
end

