-- ==== Sys2Proof/Machine/HeaderCodec.lean ====
section
/-! DEFINITION. The Header Codec (43_header_codec.md): WRMAGIC, WRHDR, RDMAGIC, RDHDR, and the three stream records
they write and read (30_encoding.md R96, R97). -/

namespace Sys2Proof.Machine

/-- The body of WRMAGIC (R156). -/
def wrmagicBody (s : State) : Run := .ok (outWrite 32 s.magic s)

/-- The record of an arena entry (30_encoding.md R97): a leaf's Symbol is `VALUE[8:0]` (R157). -/
def recordOf (nd : Node) : HdrRecord := if nd.kind then .leaf (nd.value.extractLsb' 0 9) else .internal

/-- The walk of WRHDR (R157): pop a node and write its record; below an internal node push right, then left. The loop
runs `NNODES ≤ 513` times on a well-formed arena. -/
def wrhdrLoop : Nat → State → Run
  | 0, s =>
    match s.stack with
    | [] => .ok s
    | _ :: _ => .stuck .walkUnending
  | fuel + 1, s =>
    match s.stack with
    | [] => .ok s
    | e :: rest =>
      if (s.node[e.node]).kind then
        wrhdrLoop fuel (outAppend (encodeRecord (recordOf s.node[e.node])) { s with stack := rest })
      else
        ((pushRun (nodeEntry (s.node[e.node]).right)
              (outAppend (encodeRecord (recordOf s.node[e.node])) { s with stack := rest })).bind
            (pushRun (nodeEntry (s.node[e.node]).left))).bind
          (wrhdrLoop fuel)

/-- The body of WRHDR (R157). -/
def wrhdrBody (s : State) : Run := wrhdrLoop 513 { s with stack := [nodeEntry s.root] }

/-- The body of RDMAGIC (R160): `EXH` equals no marker, so a short read raises too. -/
def rdmagicBody (s : State) : Run :=
  match inRead 32 s with
  | (none, t) => .raised .malformedHeader t
  | (some m, t) => if m = t.magic then .ok t else .raised .malformedHeader t

/-- Read one header record from IN (R161): the node bit, then for a leaf the symbol field; `none` with the error that
reading it raises (R164 gives the order). -/
def readRecord (s : State) : Except Err HdrRecord × State :=
  match inRead 1 s with
  | (none, t) => (.error .truncated, t)
  | (some b, t) =>
    if b = 1#1 then
      match inRead 9 t with
      | (none, u) => (.error .truncated, u)
      | (some f, u) =>
        match decodeSymbol f with
        | .ok r => (.ok r, u)
        | .error _ => (.error .badSymbol, u)
    else (.ok .internal, t)

/-- The arena entry RDHDR stores for a record: weights, internal values and links 0 (R161, R163). -/
def nodeOfRecord : HdrRecord → Node
  | .internal => { kind := false, value := 0, weight := 0, left := 0, right := 0 }
  | .leaf sym => { kind := true, value := sym.setWidth 16, weight := 0, left := 0, right := 0 }

/-- Hang node i under the innermost internal node still waiting for a child (R161). -/
def hangNode (i : NodeIx) (s : State) : State :=
  match s.stack with
  | [] => s
  | e :: rest =>
    match e.slot with
    | .left =>
      { s with
        node := s.node.set e.node.val { s.node[e.node] with left := i } e.node.isLt
        stack := { e with slot := .right } :: rest }
    | .right =>
      { s with
        node := s.node.set e.node.val { s.node[e.node] with right := i } e.node.isLt
        stack := rest }

/-- One iteration of RDHDR after the record has been read (R161): store it, hang it, and let an internal node wait for
its left child. A 514th node raises E_TRIE_OVERFLOW (R225). -/
def takeRecord (r : HdrRecord) (s : State) : Run :=
  match allocNode (nodeOfRecord r) s with
  | none => .raised .trieOverflow s
  | some (i, t) =>
    match r with
    | .internal => pushRun (waitEntry i) (hangNode i t)
    | .leaf _ => .ok (hangNode i t)

/-- The last lines of RDHDR (R161): `ROOT <- 0; TRIE_VALID <- 1`. -/
def endHeader (s : State) : State := endTrie 0 s

/-- The loop of RDHDR (R161), with the order of checks of R164: capacity, node bit, field, range. It runs at most 514
times (R166). -/
def rdhdrLoop : Nat → State → Run
  | 0, _ => .stuck .loopBound
  | fuel + 1, s =>
    if s.nnodes.val = 513 then .raised .trieOverflow s
    else
      match readRecord s with
      | (.error e, t) => .raised e t
      | (.ok r, t) =>
        (takeRecord r t).bind fun u =>
          if u.stack.isEmpty then .ok (endHeader u) else rdhdrLoop fuel u

/-- The body of RDHDR (R161). -/
def rdhdrBody (s : State) : Run := rdhdrLoop 514 { startTrie s with stack := [] }

/-- WRMAGIC as a member. -/
def runWrmagic (s : State) : Run := primitive .wrmagic wrmagicBody s

/-- WRHDR as a member. -/
def runWrhdr (s : State) : Run := primitive .wrhdr wrhdrBody s

/-- RDMAGIC as a member. -/
def runRdmagic (s : State) : Run := primitive .rdmagic rdmagicBody s

/-- RDHDR as a member. -/
def runRdhdr (s : State) : Run := primitive .rdhdr rdhdrBody s

/-- `WRMAGIC` (R156). -/
def execWrmagic (s : State) : Host.Outcome State Fault Refusal := issue runWrmagic s

/-- `WRHDR` (R157). -/
def execWrhdr (s : State) : Host.Outcome State Fault Refusal := issue runWrhdr s

/-- `RDMAGIC` (R160). -/
def execRdmagic (s : State) : Host.Outcome State Fault Refusal := issue runRdmagic s

/-- `RDHDR` (R161). -/
def execRdhdr (s : State) : Host.Outcome State Fault Refusal := issue runRdhdr s

/-- The reader RDHDR has read a header record: one iteration of its loop, and the end of the command when every
internal node has both children (R161, R94; log 7). -/
def readerTakes (r : HdrRecord) (s : State) : Host.Outcome State Fault Refusal :=
  match takeRecord r s with
  | .ok t => .next (if t.stack.isEmpty then finish (endHeader t) else t)
  | .raised e t => .next (raiseErr e t)
  | .stuck f => .fault f

/-- `MAGIC_WORD` (30_encoding.md R96): the reader RDMAGIC has read 32 bits that are the marker, so the check passes and
the command ends (R160, R94; log 7). -/
def execMagicWord (s : State) : Host.Outcome State Fault Refusal := .next (finish s)

/-- `HDR_INTERNAL` (R97), taken by the reader (log 7). -/
def execHdrInternal (s : State) : Host.Outcome State Fault Refusal := readerTakes .internal s

/-- `HDR_LEAF` (R97), taken by the reader; a field above 256 raises E_BAD_SYMBOL and stores nothing (R224; log 7). -/
def execHdrLeaf (sym : BitVec 9) (s : State) : Host.Outcome State Fault Refusal :=
  match decodeSymbol sym with
  | .ok r => readerTakes r s
  | .error _ => .next (raiseErr .badSymbol s)

end Sys2Proof.Machine
end

