-- ==== Sys2Proof/Machine/Transcoder.lean ====
section
/-! DEFINITION. The Stream Transcoder commands REWIND, ENCODE, FLUSH and DECODE (44_stream_transcoder.md). -/

namespace Sys2Proof.Machine

/-- The body of REWIND (R176). -/
def rewindBody (s : State) : Run := .ok (inRewind s)

/-- `emit(s)` (R178): write the code of a symbol, first bit first; E_NO_CODE when it has none (R179). -/
def emitCode (sym : Symbol) (s : State) : Run :=
  if (s.code[sym]).valid then .ok (outAppend (codeBits s.code[sym]) s) else .raised .noCode s

/-- The data loop of ENCODE (R178), then the terminator. Each iteration that goes on takes 8 bits of IN, so
`fuel = len(IN.bits) + 1` is never used up. -/
def encodeLoop : Nat → State → Run
  | 0, _ => .stuck .loopBound
  | fuel + 1, s =>
    match inRead 8 s with
    | (none, t) => emitCode eosSymbol t
    | (some x, t) => (emitCode (byteSymbol x) t).bind (encodeLoop fuel)

/-- The body of ENCODE (R178). -/
def encodeBody (s : State) : Run := encodeLoop (s.inp.bits.length + 1) s

/-- The body of FLUSH (R182). -/
def flushBody (s : State) : Run := .ok (outFlush s)

/-- The child DECODE moves to on a bit: 0 goes left, 1 goes right (R184). -/
def childOf (nd : Node) (b : BitVec 1) : NodeIx := if b = 0#1 then nd.left else nd.right

/-- The walk of DECODE (R184, R185). Each iteration that goes on takes one bit of IN, so `fuel = len(IN.bits) + 1` is
never used up. -/
def decodeLoop : Nat → State → Run
  | 0, _ => .stuck .loopBound
  | fuel + 1, s =>
    match inRead 1 s with
    | (none, t) => .raised .truncated t
    | (some b, t) =>
      let n := childOf t.node[t.cur] b
      if (t.node[n]).kind then
        if (t.node[n]).value = 256#16 then .ok { t with cur := n }
        else
          decodeLoop fuel
            (outWrite 8 ((t.node[n]).value.extractLsb' 0 8) { t with cur := t.root })
      else decodeLoop fuel { t with cur := n }

/-- The body of DECODE (R185), with the one-leaf trie (R186). -/
def decodeBody (s : State) : Run :=
  if (s.node[s.root]).kind then
    if (s.node[s.root]).value = 256#16 then .ok s else .raised .badRoot s
  else decodeLoop (s.inp.bits.length + 1) { s with cur := s.root }

/-- REWIND as a member. -/
def runRewind (s : State) : Run := primitive .rewind rewindBody s

/-- ENCODE as a member. -/
def runEncode (s : State) : Run := primitive .encode encodeBody s

/-- FLUSH as a member. -/
def runFlush (s : State) : Run := primitive .flush flushBody s

/-- DECODE as a member. -/
def runDecode (s : State) : Run := primitive .decode decodeBody s

/-- `REWIND` (R176). -/
def execRewind (s : State) : Host.Outcome State Fault Refusal := issue runRewind s

/-- `ENCODE` (R178). -/
def execEncode (s : State) : Host.Outcome State Fault Refusal := issue runEncode s

/-- `FLUSH` (R182). -/
def execFlush (s : State) : Host.Outcome State Fault Refusal := issue runFlush s

/-- `DECODE` (R185). -/
def execDecode (s : State) : Host.Outcome State Fault Refusal := issue runDecode s

end Sys2Proof.Machine
end

