-- ==== Sys2Proof/Machine/TrieBuilder.lean ====
section
/-! DEFINITION. The Trie Builder command BUILD (41_trie_builder.md). -/

namespace Sys2Proof.Machine

/-- The leaf of Symbol `sym` with the weight `w` (R131 phase 1). -/
def leafNode (sym : Symbol) (w : Word) : Node :=
  { kind := true, value := BitVec.ofNat 16 sym.val, weight := w, left := 0, right := 0 }

/-- The internal node over the first extracted entry `a` (left) and the second extracted `b` (right), with the
combined identity value (R131 phase 2, R139). -/
def combinedNode (s : State) (a b : PqEntry) (sum : Word) : Node :=
  { kind := false, value := (s.node[a.node]).value + (s.node[b.node]).value, weight := sum
    left := a.node, right := b.node }

/-- Allocate a node and put it into the queue under its weight and the next sequence number (R131). -/
def addToQueue (nd : Node) (s : State) : Run :=
  match allocNode nd s with
  | none => .stuck .arenaFull
  | some (i, t) => .ok (enqueue nd.weight i t)

/-- Phase 1 of BUILD (R131): one leaf per symbol with non-zero frequency, in the order of the list. -/
def leafLoop : List Symbol → State → Run
  | [], s => .ok s
  | sym :: rest, s =>
    if s.freq[sym] = 0#32 then leafLoop rest s
    else (addToQueue (leafNode sym s.freq[sym]) s).bind (leafLoop rest)

/-- Phases 2 and 3 of BUILD (R131): combine the two least entries until one remains, which names the root. The sum is
exact and raises at 2^32 (R134). Each round takes one entry off the queue (R136), so `fuel = PQ.size` is never used up. -/
def combineLoop : Nat → State → Run
  | 0, _ => .stuck .loopBound
  | fuel + 1, s =>
    match s.pq with
    | [] => .stuck .queueEmpty
    | [r] => .ok (endTrie r.node { s with pq := [] })
    | a :: b :: rest =>
      if a.weight.toNat + b.weight.toNat < 2 ^ 32 then
        (addToQueue (combinedNode s a b (a.weight + b.weight)) { s with pq := rest }).bind (combineLoop fuel)
      else .raised .overflow { s with pq := rest }

/-- The body of BUILD (R131). -/
def buildBody (s : State) : Run :=
  (leafLoop (List.finRange 257) { startTrie s with seq := 0, pq := [] }).bind fun t =>
    combineLoop (t.pq.length + 1) t

/-- BUILD as a member. -/
def runBuild (s : State) : Run := primitive .build buildBody s

/-- `BUILD` (R131). -/
def execBuild (s : State) : Host.Outcome State Fault Refusal := issue runBuild s

end Sys2Proof.Machine
end

