-- ==== Sys2Proof/Machine/Composite.lean ====
section
/-! DEFINITION. The composite commands COMPRESS and DECOMPRESS (45_composite.md). -/

namespace Sys2Proof.Machine

/-- The members of COMPRESS, in order, stopping at the first raise (R195, R196). -/
def runCompress (s : State) : Run :=
  (runCount s).bind fun s1 =>
  (runBuild s1).bind fun s2 =>
  (runGencode s2).bind fun s3 =>
  (runWrmagic s3).bind fun s4 =>
  (runWrhdr s4).bind fun s5 =>
  (runRewind s5).bind fun s6 =>
  (runEncode s6).bind fun s7 =>
  runFlush s7

/-- The members of DECOMPRESS, in order, stopping at the first raise (R195, R198). -/
def runDecompress (s : State) : Run :=
  (runRdmagic s).bind fun s1 =>
  (runRdhdr s1).bind fun s2 =>
  runDecode s2

/-- `COMPRESS` (R196). -/
def execCompress (s : State) : Host.Outcome State Fault Refusal := issue runCompress s

/-- `DECOMPRESS` (R198). -/
def execDecompress (s : State) : Host.Outcome State Fault Refusal := issue runDecompress s

end Sys2Proof.Machine
end

