-- ==== Sys2Proof/Machine/Dispatch.lean ====
section
/-! DEFINITION. Which meaning each instruction has: one arm per constructor of Instr. -/

namespace Sys2Proof.Machine

def exec (i : Instr) (s : State) : Host.Outcome State Fault Refusal :=
  match i with
  -- Frequency Table (40_frequency_table.md)
  | .clrfreq => Sys2Proof.Machine.execClrfreq s
  | .count => Sys2Proof.Machine.execCount s
  -- Trie Builder (41_trie_builder.md)
  | .build => Sys2Proof.Machine.execBuild s
  -- Code Table Generator (42_code_table.md)
  | .gencode => Sys2Proof.Machine.execGencode s
  -- Header Codec, writing (43_header_codec.md)
  | .wrmagic => Sys2Proof.Machine.execWrmagic s
  | .wrhdr => Sys2Proof.Machine.execWrhdr s
  -- Stream Transcoder, compression side (44_stream_transcoder.md)
  | .rewind => Sys2Proof.Machine.execRewind s
  | .encode => Sys2Proof.Machine.execEncode s
  | .flush => Sys2Proof.Machine.execFlush s
  -- Header Codec, reading
  | .rdmagic => Sys2Proof.Machine.execRdmagic s
  | .rdhdr => Sys2Proof.Machine.execRdhdr s
  -- Stream Transcoder, decompression side
  | .decode => Sys2Proof.Machine.execDecode s
  -- composites (45_composite.md)
  | .compress => Sys2Proof.Machine.execCompress s
  | .decompress => Sys2Proof.Machine.execDecompress s
  -- stream records (30_encoding.md R96, R97)
  | .magicWord => Sys2Proof.Machine.execMagicWord s
  | .hdrInternal => Sys2Proof.Machine.execHdrInternal s
  | .hdrLeaf sym => Sys2Proof.Machine.execHdrLeaf sym s

end Sys2Proof.Machine
end

