-- ==== Sys2Proof/Machine/HostRegs.lean ====
section
/-! DEFINITION. The host register file (10_state.md R41 to R50): what a read of each register returns and what a write
does, `CMD` apart, whose write is the acceptance of a command (Machine/HostPort.lean). -/

namespace Sys2Proof.Machine

/-- `NODE_INFO`: [15:0] VALUE, [16] KIND (R41). -/
def nodeInfoWord (nd : Node) : Word := nd.value.setWidth 32 ||| flagBit nd.kind 16

/-- `NODE_LINK`: [9:0] LEFT, [25:16] RIGHT (R41). -/
def nodeLinkWord (nd : Node) : Word :=
  BitVec.ofNat 32 nd.left.val ||| (BitVec.ofNat 32 nd.right.val <<< 16)

/-- `CODE_LEN`: [31] VALID and, if VALID, LEN in [8:0], else 0 (R41, R48). -/
def codeLenWord (c : CodeEntry) : Word := if c.valid then flagBit true 31 ||| c.len.setWidth 32 else 0

/-- `CODE_BITSk`: `VAL[32k+31 : 32k]`, 0 if not VALID (R41, R48). -/
def codeBitsWord (c : CodeEntry) (k : Nat) : Word := if c.valid then c.val.extractLsb' (32 * k) 32 else 0

/-- The node that NODE_ADDR shows, when there is one (R47). -/
def shownNode (s : State) : Option Node :=
  if s.trieValid = true ∧ s.nodeAddr.toNat < s.nnodes.val then s.node[s.nodeAddr.toNat]? else none

/-- The code that CODE_ADDR shows, when there is one (R48). -/
def shownCode (s : State) : Option CodeEntry :=
  if s.codesValid then s.code[s.codeAddr.toNat]? else none

/-- `ROOT` and `NNODES` have a value while `TRIE_VALID = 1`, and straight after reset (R44, 93_implementation_defined.md
U6): no command has been accepted, since each writes `PHASE` (R27), and no word has been rejected (log 9). -/
def trieRegsKnown (s : State) : Bool :=
  s.trieValid || (decide (s.phase = 0#4) && !s.err && !s.trieStarted)

/-- What a read of register n returns; `none` is an "unspecified word" (R41 to R50). -/
def readReg (n : Nat) (s : State) : Option Word :=
  match n with
  | 0 => some 0
  | 1 => some (statusWord s)
  | 2 => some (s.errcode.setWidth 32)
  | 3 => if trieRegsKnown s then some (BitVec.ofNat 32 s.root.val) else none
  | 4 => if trieRegsKnown s then some (BitVec.ofNat 32 s.nnodes.val) else none
  | 5 => some (s.freqAddr.setWidth 32)
  | 6 => if s.freqValid then s.freq[s.freqAddr.toNat]? else none
  | 7 => some (s.nodeAddr.setWidth 32)
  | 8 => (shownNode s).map nodeInfoWord
  | 9 => (shownNode s).map nodeLinkWord
  | 10 => (shownNode s).map Node.weight
  | 11 => some (s.codeAddr.setWidth 32)
  | 12 => (shownCode s).map codeLenWord
  | 13 => (shownCode s).map (codeBitsWord · 0)
  | 14 => (shownCode s).map (codeBitsWord · 1)
  | 15 => (shownCode s).map (codeBitsWord · 2)
  | 16 => (shownCode s).map (codeBitsWord · 3)
  | 17 => (shownCode s).map (codeBitsWord · 4)
  | 18 => (shownCode s).map (codeBitsWord · 5)
  | 19 => (shownCode s).map (codeBitsWord · 6)
  | 20 => (shownCode s).map (codeBitsWord · 7)
  | 21 => some s.magic
  | 22 => some (s.phase.setWidth 32)
  | _ => none

/-- A host read of register n: the word goes to `busData`; an unspecified word is the next free word (R50 c, log 2).
No other state changes (R50 d). -/
def hostRead (n : Nat) (s : State) : State :=
  match readReg n s with
  | some w => { s with busData := w }
  | none => { s with busData := Config.freeWord s.draws, draws := s.draws + 1 }

/-- A write of v to `FREQ_DATA` (R46): done when `BUSY = 0`, `ERR = 0`, `FREQ_VALID = 1` and `FREQ_ADDR ≤ 255`. -/
def writeFreqData (v : Word) (s : State) : State :=
  if h : s.freqAddr.toNat ≤ 255 then
    if s.busy = false ∧ s.err = false ∧ s.freqValid = true then
      { s with freq := s.freq.set s.freqAddr.toNat v (by omega) }
    else s
  else s

/-- A write to register n other than `CMD`: the index registers store the bits listed and drop the rest; `RO`
registers and numbers 23 and above ignore it (R41, R46 to R50). -/
def writeReg (n : Nat) (w : Word) (s : State) : State :=
  match n with
  | 5 => { s with freqAddr := w.setWidth 9 }
  | 6 => writeFreqData w s
  | 7 => { s with nodeAddr := w.setWidth 10 }
  | 11 => { s with codeAddr := w.setWidth 9 }
  | _ => s

end Sys2Proof.Machine
end

