-- ==== Sys2Proof/Machine/HostPort.lean ====
section
/-! DEFINITION. What drives the engine: a word at `CMD` (30_encoding.md R94), the other moves of the host
(70_reset_and_hazards.md R259), and the reading of one stream record by a reader that is running. -/

namespace Sys2Proof.Machine

/-- A host write of w to `CMD` (10_state.md R42, 30_encoding.md R94): a command is executed, a reserved word rejected. -/
def writeCmd (w : Word) (s : State) : Host.Outcome State Fault Refusal :=
  match decodeCmd w with
  | .ok i => exec i s
  | .error _ => .next (rejectWord s)

/-- One move of the host (R259); it has moves only while `BUSY = 0` (R50 a), which `step` sees to. -/
def hostMove (m : HostMove) (s : State) : Host.Outcome State Fault Refusal :=
  match m with
  | .rst => .next (applyReset s)
  | .attachIn bits pos =>
    if pos ≤ bits.length then .next { s with inp := { bits := bits, pos := pos } }
    else .refused .attachOutsideStream
  | .attachOut bits => .next { s with out := bits }
  | .write reg w => if reg = 0 then writeCmd w s else .next (writeReg reg w s)
  | .read reg => .next (hostRead reg s)
  | .collect => .next { s with collected := s.out }

/-- The next move: none leaves the machine idle (log 5). -/
def hostTurn (s : State) : Host.Outcome State Fault Refusal :=
  match s.host with
  | [] => .next s
  | m :: rest => hostMove m { s with host := rest }

/-- The reader RDHDR fetches and executes one header record (43_header_codec.md R161, R164). -/
def headerTurn (s : State) : Host.Outcome State Fault Refusal :=
  if s.nnodes.val = 513 then .next (raiseErr .trieOverflow s)
  else
    match readRecord s with
    | (.error e, t) => .next (raiseErr e t)
    | (.ok r, t) => exec r.instr t

/-- The reader RDMAGIC fetches 32 bits and executes the marker (R160). -/
def markerTurn (s : State) : Host.Outcome State Fault Refusal :=
  match inRead 32 s with
  | (none, t) => .next (raiseErr .malformedHeader t)
  | (some m, t) =>
    match decodeMarker t.magic m with
    | .ok i => exec i t
    | .error _ => .next (raiseErr .malformedHeader t)

/-- The engine's own turn while `BUSY = 1`: a reader goes on record by record (00_scope.md R9: a command's loop may be
read as micro-steps; log 7). No run from reset leaves a command unfinished between steps, since `exec` runs it whole. -/
def engineTurn (s : State) : Host.Outcome State Fault Refusal :=
  if s.phase = opcodeOf .rdhdr then headerTurn s
  else if s.phase = opcodeOf .rdmagic then markerTurn s
  else .fault .engineBusy

/-- Put an encoded instruction where the next step fetches: a command word becomes the host's next move, with the
engine idle; a stream item becomes IN, with its reader running (log 5, log 7). -/
def placeEncoded (e : Encoded) (s : State) : State :=
  match e with
  | .cmd w => { s with busy := false, host := [.write 0 w] }
  | .marker w =>
    { s with busy := true, phase := opcodeOf .rdmagic, inp := { bits := bitsOf 32 w.toNat, pos := 0 } }
  | .record bits =>
    { s with busy := true, phase := opcodeOf .rdhdr, inp := { bits := bits, pos := 0 } }

end Sys2Proof.Machine
end

