-- ==== Sys2Proof/Machine/Step.lean ====
section
/-! DEFINITION. One step of the machine, and the placing of an instruction where the next step fetches it. -/

namespace Sys2Proof.Machine

/-- One step: while `BUSY = 1` the engine's turn, else the host's next move (10_state.md R50 a; 20_memory.md R76). -/
def step (s : State) : Host.Outcome State Fault Refusal :=
  if s.busy then engineTurn s else hostTurn s

/-- `s` with the instruction of a table row placed so that the next step fetches and runs it (log 5). -/
def State.withFetchWord (s : State) (nbits w : Nat) : State :=
  placeEncoded (placeOf s.magic nbits w) s

end Sys2Proof.Machine
end

