-- ==== Sys2Proof/Machine/Trie.lean ====
section
/-! DEFINITION. The abstract trie of 00_scope.md R12 and the functions of R13 and of 41_trie_builder.md R137, in whose
terms the spec states what the commands do. The machine itself works on the arena and uses none of these. -/

namespace Sys2Proof.Machine

/-- `Trie ::= Leaf(sym, w) | Node(val, w, l, r)` (R12), with exact numbers (R15). -/
inductive Trie where
  | leaf (sym w : Nat)
  | node (val w : Nat) (l r : Trie)
deriving DecidableEq, Repr

/-- `ser(t)` (R13): the pre-order serialisation. -/
def Trie.ser : Trie → Bits
  | .leaf sym _ => true :: bitsOf 9 sym
  | .node _ _ l r => false :: (l.ser ++ r.ser)

/-- `paths(t, p)` (R13): the leaf paths in pre-order, left 0, right 1. -/
def Trie.paths : Trie → Bits → List (Nat × Bits)
  | .leaf sym _, p => [(sym, p)]
  | .node _ _ l r, p => l.paths (p ++ [false]) ++ r.paths (p ++ [true])

/-- `codes(t)` (R13). -/
def Trie.codes (t : Trie) : List (Nat × Bits) := t.paths []

/-- `leaves(t)` (R13). -/
def Trie.leaves : Trie → Nat
  | .leaf _ _ => 1
  | .node _ _ l r => l.leaves + r.leaves

/-- The number of nodes, which R13 gives as `2 leaves(t) - 1` (Laws/Trie.lean). -/
def Trie.nodes : Trie → Nat
  | .leaf _ _ => 1
  | .node _ _ l r => 1 + l.nodes + r.nodes

/-- `depth(t)` (R13). -/
def Trie.depth : Trie → Nat
  | .leaf _ _ => 0
  | .node _ _ l r => 1 + max l.depth r.depth

/-- `shape(t)` (R13): what a header preserves. -/
def Trie.shape : Trie → Trie
  | .leaf sym _ => .leaf sym 0
  | .node _ _ l r => .node 0 0 l.shape r.shape

/-- The Symbols of the leaves, in pre-order. -/
def Trie.symbols : Trie → List Nat
  | .leaf sym _ => [sym]
  | .node _ _ l r => l.symbols ++ r.symbols

/-- The Symbols of the leaves with their weights, in pre-order. -/
def Trie.leafWeights : Trie → List (Nat × Nat)
  | .leaf sym w => [(sym, w)]
  | .node _ _ l r => l.leafWeights ++ r.leafWeights

/-- `w(t)` (41_trie_builder.md R137). -/
def Trie.weight : Trie → Nat
  | .leaf _ w => w
  | .node _ w _ _ => w

/-- `val(t)` (R137): a leaf's Symbol, an internal node's combined identity value. -/
def Trie.value : Trie → Nat
  | .leaf sym _ => sym
  | .node val _ _ _ => val

/-- The leaf at the end of a path, if the path leads to a leaf and to its end. -/
def Trie.leafAt : Trie → Bits → Option Nat
  | .leaf sym _, [] => some sym
  | .leaf _ _, _ :: _ => none
  | .node _ _ _ _, [] => none
  | .node _ _ l _, false :: q => l.leafAt q
  | .node _ _ _ r, true :: q => r.leafAt q

/-- The path leads to an internal node: a code has begun, or has not yet, and is not complete. -/
def Trie.inside : Trie → Bits → Bool
  | .leaf _ _, _ => false
  | .node _ _ _ _, [] => true
  | .node _ _ l _, false :: q => l.inside q
  | .node _ _ _ r, true :: q => r.inside q

/-- How many subtrees a header still owes when n were owed and these records follow (30_encoding.md R99: a header is
complete when every internal node read has received both subtrees; nothing is owed then). -/
def awaited : Nat → List HdrRecord → Nat
  | n, [] => n
  | 0, _ :: _ => 0
  | n + 1, .internal :: rs => awaited (n + 2) rs
  | n + 1, .leaf _ :: rs => awaited n rs

/-- Every internal node's weight and identity value are the exact sums of its children's (R131, R138 c, R139). -/
def Trie.summed : Trie → Prop
  | .leaf _ _ => True
  | .node val w l r => val = l.value + r.value ∧ w = l.weight + r.weight ∧ l.summed ∧ r.summed

/-- `tree(i) = t` (R12), with the list of the arena indices met in pre-order. -/
inductive TreeAt (node : Vector Node 513) : NodeIx → Trie → List NodeIx → Prop
  /-- `KIND = 1`. -/
  | leaf (i : NodeIx) (h : (node[i]).kind = true) :
      TreeAt node i (.leaf (node[i]).value.toNat (node[i]).weight.toNat) [i]
  /-- `KIND = 0`. -/
  | node (i : NodeIx) (l r : Trie) (is js : List NodeIx) (h : (node[i]).kind = false)
      (hl : TreeAt node (node[i]).left l is) (hr : TreeAt node (node[i]).right r js) :
      TreeAt node i (.node (node[i]).value.toNat (node[i]).weight.toNat l r) (i :: (is ++ js))

/-- Arena well-formedness (10_state.md R40), whose leaves carry Symbols (R32): the links from `ROOT` reach every index
below `NNODES`, each once, and no other. -/
def ArenaWf (s : State) : Prop :=
  ∃ t ids, TreeAt s.node s.root t ids ∧ ids.Nodup ∧ (∀ j : NodeIx, j ∈ ids ↔ j.val < s.nnodes.val)
    ∧ ∀ x ∈ t.symbols, x ≤ 256

/-- The order of `huff`'s set, by (w, seq) (R137). -/
def huffBefore (a b : Trie × Nat) : Bool :=
  decide (a.1.weight < b.1.weight ∨ a.1.weight = b.1.weight ∧ a.2 < b.2)

/-- Insertion into `huff`'s set, kept in that order. -/
def huffInsert (e : Trie × Nat) : List (Trie × Nat) → List (Trie × Nat)
  | [] => [e]
  | x :: xs => if huffBefore e x then e :: x :: xs else x :: huffInsert e xs

/-- `huff(Q, n)` (R137), on a set kept in order; the first argument bounds the rounds by the size of Q. -/
def huff : Nat → List (Trie × Nat) → Nat → Option Trie
  | 0, _, _ => none
  | _ + 1, [], _ => none
  | _ + 1, [(t, _)], _ => some t
  | fuel + 1, a :: b :: rest, n =>
    huff fuel
      (huffInsert (.node (a.1.value + b.1.value) (a.1.weight + b.1.weight) a.1 b.1, n) rest) (n + 1)

/-- The symbols with non-zero frequency, ascending (R131 phase 1). -/
def liveSymbols (freq : Vector Word 257) : List Symbol := (List.finRange 257).filter fun v => freq[v] ≠ 0#32

/-- `Q_0` (R137): the k-th leaf with sequence number k, in order. -/
def huffLeaves (freq : Vector Word 257) : List (Trie × Nat) :=
  (liveSymbols freq).zipIdx.foldl
    (fun q e => huffInsert (.leaf e.1.val (freq[e.1]).toNat, e.2) q) []

/-- `huff(Q_0, L)` (R137): the trie of a Frequency Table. -/
def huffTrie (freq : Vector Word 257) : Option Trie :=
  huff (liveSymbols freq).length (huffLeaves freq) (liveSymbols freq).length

/-- The Code Table of a trie (42_code_table.md R146): each leaf's path, in pre-order, a later leaf overwriting. -/
def codeTable (t : Trie) : Vector CodeEntry 257 :=
  t.codes.foldl
    (fun c e =>
      if h : e.1 < 257 then
        c.set e.1 { valid := true, len := BitVec.ofNat 9 e.2.length, val := BitVec.ofNat 256 (valOf e.2) } h
      else c)
    (Vector.replicate 257 CodeEntry.blank)

end Sys2Proof.Machine
end

