-- ==== Sys2Proof/Safety.lean ====
section
/-! DEFINITION. What counts as a good entry, a good end and a good state, in the terms claims use
(70_reset_and_hazards.md R248, R257; 10_state.md R28 to R40), and the functions of whole inputs the spec states its
results with (40_frequency_table.md R124; 44_stream_transcoder.md R180; 45_composite.md R197). -/

namespace Sys2Proof.Machine

/-- `Idle` and `NoFault` (R248): a command is accepted (30_encoding.md R94). -/
def Ready (s : State) : Prop := s.busy = false ∧ s.err = false

/-- `InFinite` (R248): IN is a list, so only the position needs saying. -/
def InWithin (s : State) : Prop := s.inp.pos ≤ s.inp.bits.length

/-- `OutAligned` (R248). -/
def OutAligned (s : State) : Prop := s.out.length % 8 = 0

/-- A run that ended well (R257). -/
def EndedWell (s : State) : Prop := s.busy = false ∧ s.done = true ∧ s.err = false

/-- A run that ended badly with the error e (R217, R257). -/
def EndedBadly (e : Err) (s : State) : Prop :=
  s.busy = false ∧ s.done = false ∧ s.err = true ∧ s.errcode = e.code

/-- `CleanEntry` with `InAtStart` and an empty OUT (R248), for any value of the constant `MAGIC`. -/
def entry (magic : Word) (bits : Bits) : State :=
  { State.reset with magic := magic, inp := { bits := bits, pos := 0 } }

/-- The bits of a byte sequence (20_memory.md R71). -/
def bytesBits (bytes : List (BitVec 8)) : Bits := bytes.flatMap fun b => bitsOf 8 b.toNat

/-- The bits of IN from the read position on. -/
def ahead (s : State) : Bits := s.inp.bits.drop s.inp.pos

/-- How often the byte value v occurs (R124). -/
def occurrences (bytes : List (BitVec 8)) (v : Nat) : Nat := bytes.countP fun b => b.toNat == v

/-- The Frequency Table of a byte sequence (R124). -/
def freqOf (bytes : List (BitVec 8)) : Vector Word 257 :=
  Vector.ofFn fun v => if v.val = 256 then 1#32 else BitVec.ofNat 32 (occurrences bytes v.val)

/-- The sum of all counts (R124, R134). -/
def freqSum (freq : Vector Word 257) : Nat := ((List.finRange 257).map fun v => (freq[v]).toNat).sum

/-- The payload of R101 under a Code Table: the codes of the bytes, then the code of the pseudo-symbol. -/
def payload (code : Vector CodeEntry 257) (bytes : List (BitVec 8)) : Bits :=
  (bytes.flatMap fun b => codeBits code[byteSymbol b]) ++ codeBits code[eosSymbol]

/-- The stream of R95 without its padding. -/
def streamBody (magic : Word) (t : Trie) (bytes : List (BitVec 8)) : Bits :=
  bitsOf 32 magic.toNat ++ t.ser ++ payload (codeTable t) bytes

/-- R68: a bit sequence padded with zeros to a byte boundary. -/
def padded (q : Bits) : Bits := q ++ List.replicate (padLength q.length) false

/-- Is the instruction one of the fourteen commands (30_encoding.md R92)? -/
def isCommand (i : Instr) : Bool := decide (opcodeOf i ≠ 0#4)

/-- Commands issued one by one, each as soon as the one before has ended (45_composite.md R200). -/
def issueAll : List Instr → State → Host.Outcome State Fault Refusal
  | [], s => .next s
  | i :: is, s =>
    match exec i s with
    | .next t => issueAll is t
    | .fault f => .fault f
    | .refused r => .refused r

/-- A host read of register n, as the next move, returns w and changes nothing of the hardware (10_state.md R50 d). -/
def ReadsAs (s : State) (n : Nat) (w : Word) : Prop :=
  ∀ rest, s.busy = false → s.host = .read n :: rest → step s = .next { s with host := rest, busData := w }

/-- A host read of register n, as the next move, returns an unspecified word (R50 c): the next free word. -/
def ReadsUnspecified (s : State) (n : Nat) : Prop :=
  ∀ rest, s.busy = false → s.host = .read n :: rest →
    step s = .next { s with host := rest, busData := Config.freeWord s.draws, draws := s.draws + 1 }

/-- The trie t stands in the arena at `ROOT`, fits it, and carries Symbols on its leaves (R32, R40). -/
def Holds (s : State) (t : Trie) : Prop :=
  (∃ ids, TreeAt s.node s.root t ids) ∧ t.nodes ≤ 513 ∧ ∀ x ∈ t.symbols, x ≤ 256

/-- A payload: literal leaf paths with their Symbols (44_stream_transcoder.md R187). -/
def LiteralPaths (t : Trie) (ps : List (Bits × Nat)) : Prop := ∀ e ∈ ps, t.leafAt e.1 = some e.2 ∧ e.2 ≠ 256

/-- The bits of a list of leaf paths. -/
def pathBits (ps : List (Bits × Nat)) : Bits := ps.flatMap fun e => e.1

/-- The bytes of a list of literal leaf paths, as bits (R187). -/
def literalBits (ps : List (Bits × Nat)) : Bits := ps.flatMap fun e => bitsOf 8 e.2

/-- The flags and codes fit together between steps: no command runs (00_scope.md R9), `ERRCODE` is 0 exactly while
`ERR = 0` (10_state.md R29) and is a code of R216, `DONE` and `ERR` are never both 1 (90_conflicts.md C8), and `PHASE`
is 0 or a primitive's opcode (R27). -/
structure StatusInv (s : State) : Prop where
  idle : s.busy = false
  errCode : s.err = false ↔ s.errcode = 0#4
  errRange : s.errcode.toNat ≤ 9
  notBoth : ¬(s.done = true ∧ s.err = true)
  phaseRange : s.phase.toNat ≤ 12
  inWithin : InWithin s

/-- What the valid flags say (R31, R40, R44, R38): the Frequency Table counts the pseudo-symbol once; the arena is a
trie; a Code Table is the one of the trie that stands in the arena; before the first BUILD or RDHDR, `ROOT` and
`NNODES` hold their reset values; and outside an error the queue and the stack are empty. -/
structure TableInv (s : State) : Prop where
  freqEos : s.freqValid = true → s.freq[eosSymbol] = 1#32
  arena : s.trieValid = true → ArenaWf s
  codes : s.codesValid = true →
    s.trieValid = true ∧ ∃ t ids, TreeAt s.node s.root t ids ∧ s.code = codeTable t
  fresh : s.trieStarted = false → s.root = 0 ∧ s.nnodes = 0 ∧ s.trieValid = false
  hidden : s.err = false → s.pq = [] ∧ s.stack = []

end Sys2Proof.Machine
end

