-- ==== Sys2Proof/Certificates/Slice0/Obligations.lean ====
section
/-! DEFINITION. The statements for the provers, from the numbered rules of spec/. Every result is stated for every
state with the machine ready (not for one run), and an equation for the whole next state says at once what the command
writes and that it leaves everything else as it was. -/

open Sys2Proof Sys2Proof.Machine

/-! ### Encoding -/

/-- 30_encoding.md R92, R97: a few words and records, written out, decode to the rows they stand for. -/
def Obligations.CommandWordsSample : Prop :=
  decodeCmd 0x00000001#32 = .ok .clrfreq ∧ decodeCmd 0x00000003#32 = .ok .build
    ∧ decodeCmd 0x00000004#32 = .ok .gencode ∧ decodeCmd 0x00000006#32 = .ok .wrhdr
    ∧ decodeCmd 0x00000008#32 = .ok .encode ∧ decodeCmd 0x0000000B#32 = .ok .rdhdr
    ∧ decodeCmd 0x0000000C#32 = .ok .decode ∧ decodeCmd 0x0000000E#32 = .ok .decompress
    ∧ decodeRecord [false] = .ok (.internal, [])
    ∧ decodeRecord [true, true, false, false, false, false, false, false, false, false] = .ok (.leaf 256#9, [])
    ∧ decodeRecord [true, false, false, true, false, false, false, false, false, true] = .ok (.leaf 0x41#9, [])

/-- R92, R93: the fourteen command words are exactly the words that decode to their commands, and every other word is
rejected. -/
def Obligations.CommandDecoderExact : Prop :=
  ∀ w : Word, (∀ i, decodeCmd w = .ok i ↔ isCommand i = true ∧ w = commandWord i)
    ∧ ((w.toNat = 0 ∨ 15 ≤ w.toNat) ↔ ∃ e, decodeCmd w = .error e)

/-- R90 to R100: every well-formed instruction, with its operand at every value the encoding admits, is what its
encoding decodes to, under every marker constant; a header record is read off the front of any longer stream. -/
def Obligations.DecodeEncodeAgree : Prop :=
  (∀ (magic : Word) (i : Instr), i.wf = true → decode magic (encode magic i) = .ok i)
    ∧ ∀ (r : HdrRecord) (rest : Bits), r.instr.wf = true → decodeRecord (encodeRecord r ++ rest) = .ok (r, rest)

/-- R97, R100, 43_header_codec.md R161, R164: what RDHDR reads with `InRead` is what the record decoder makes of the
bits ahead, with the read position just behind the record, behind the offending field, or at the end of IN. -/
def Obligations.RecordReaderMatchesDecoder : Prop :=
  ∀ s : State, InWithin s →
    match decodeRecord (ahead s) with
    | .ok (r, rest) =>
      readRecord s = (.ok r, { s with inp := { s.inp with pos := s.inp.bits.length - rest.length } })
    | .error (.reservedSymbol _) =>
      readRecord s = (.error .badSymbol, { s with inp := { s.inp with pos := s.inp.pos + 10 } })
    | .error .truncated =>
      readRecord s = (.error .truncated, { s with inp := { s.inp with pos := s.inp.bits.length } })
    | .error _ => False

/-! ### Reset, steps and acceptance -/

/-- 10_state.md R52: the host's `RST` puts every flag, code and register at 0 and empties the queue and the stack;
`MAGIC`, IN and OUT stay. -/
def Obligations.ResetMove : Prop :=
  ∀ (s : State) (rest : List HostMove), s.busy = false → s.host = .rst :: rest →
    ∃ t, step s = .next t
      ∧ t.busy = false ∧ t.done = false ∧ t.err = false
      ∧ t.freqValid = false ∧ t.trieValid = false ∧ t.codesValid = false
      ∧ t.errcode = 0#4 ∧ t.phase = 0#4
      ∧ t.root = 0 ∧ t.nnodes = 0 ∧ t.seq = 0 ∧ t.cur = 0 ∧ t.sp = 0
      ∧ t.freqAddr = 0#9 ∧ t.nodeAddr = 0#10 ∧ t.codeAddr = 0#9
      ∧ t.pq = [] ∧ t.magic = s.magic ∧ t.inp = s.inp ∧ t.out = s.out ∧ t.host = rest

/-- A step runs the decoded instruction: a word the host writes to `CMD` is executed with the move taken off the
list (30_encoding.md R94). -/
def Obligations.StepRunsCommand : Prop :=
  ∀ (s : State) (w : Word) (i : Instr) (rest : List HostMove),
    s.busy = false → s.host = .write 0 w :: rest → decodeCmd w = .ok i →
    step s = exec i { s with host := rest }

/-- A step of a running reader runs the decoded stream item, with IN moved behind it: a header record while RDHDR
runs and has room, the marker while RDMAGIC runs (43_header_codec.md R160, R161; the model's choice, log 7). -/
def Obligations.StepRunsRecord : Prop :=
  (∀ (s : State) (r : HdrRecord) (rest : Bits),
    s.busy = true → s.phase = 0xB#4 → s.nnodes.val < 513 → InWithin s → decodeRecord (ahead s) = .ok (r, rest) →
    step s = exec r.instr { s with inp := { s.inp with pos := s.inp.bits.length - rest.length } })
  ∧ ∀ (s : State) (rest : Bits),
    s.busy = true → s.phase = 0xA#4 → ahead s = bitsOf 32 s.magic.toNat ++ rest →
    step s = exec .magicWord { s with inp := { s.inp with pos := s.inp.pos + 32 } }

/-- 60_exceptions.md R222: a reserved word raises E_ILLEGAL_CMD at acceptance, `DONE` is cleared, and nothing else
changes. -/
def Obligations.ReservedWordRaises : Prop :=
  ∀ (s : State) (w : Word) (e : Reject) (rest : List HostMove),
    Ready s → s.host = .write 0 w :: rest → decodeCmd w = .error e →
    step s = .next { s with host := rest, err := true, errcode := 3#4, done := false }

/-- 10_state.md R42, 60_exceptions.md R218, R231: while `BUSY = 1` or `ERR = 1` no command has any effect. -/
def Obligations.CommandIgnored : Prop :=
  ∀ (i : Instr) (s : State), isCommand i = true → s.busy = true ∨ s.err = true → exec i s = .next s

/-- R223: a primitive whose valid flag is 0 sets `PHASE` and raises E_SEQUENCE before anything else. -/
def Obligations.SequenceErrorRaises : Prop :=
  (∀ (i : Instr) (s : State), Ready s → precondition i s = false →
    exec i s = .next { s with phase := opcodeOf i, err := true, errcode := 4#4, done := false })
  ∧ ∀ s : State, (precondition .build s = s.freqValid) ∧ (precondition .gencode s = s.trieValid)
    ∧ (precondition .wrhdr s = s.trieValid) ∧ (precondition .encode s = s.codesValid)
    ∧ (precondition .decode s = s.trieValid)

/-- R216, R217: the nine codes, and the four items a raise changes. -/
def Obligations.ErrorCodes : Prop :=
  (Err.malformedHeader.code = 1#4 ∧ Err.truncated.code = 2#4 ∧ Err.illegalCmd.code = 3#4 ∧ Err.sequence.code = 4#4
    ∧ Err.badSymbol.code = 5#4 ∧ Err.trieOverflow.code = 6#4 ∧ Err.badRoot.code = 7#4 ∧ Err.noCode.code = 8#4
    ∧ Err.overflow.code = 9#4)
  ∧ ∀ (e : Err) (s : State),
    raiseErr e s = { s with err := true, errcode := e.code, busy := false, done := false }

/-! ### Frequency Table -/

/-- 40_frequency_table.md R121: the word 1 is CLRFREQ; it completes and leaves the table of an empty input, from which
the host's two writes of R121's example make the table COUNT gives for `41 41 42`. -/
def Obligations.ClrfreqResult : Prop :=
  decodeCmd 0x00000001#32 = .ok .clrfreq
    ∧ (∀ s : State, Ready s →
      exec .clrfreq s = .next { s with phase := 1#4, done := true, freqValid := true, freq := freqOf [] })
    ∧ ((freqOf []).set 65 2#32).set 66 1#32 = freqOf [0x41, 0x41, 0x42]

/-- R124: COUNT completes and counts each byte value from `IN.pos`, and the pseudo-symbol once, when every count is
below 2^32; the bits of a partial last byte are passed over. -/
def Obligations.CountResult : Prop :=
  ∀ (s : State) (bytes : List (BitVec 8)) (rest : Bits), Ready s →
    ahead s = bytesBits bytes ++ rest → rest.length < 8 → (∀ v, occurrences bytes v < 2 ^ 32) →
    exec .count s = .next { s with
      phase := 2#4, done := true, freqValid := true, freq := freqOf bytes
      inp := { s.inp with pos := s.inp.bits.length } }
    ∧ freqSum (freqOf bytes) = bytes.length + 1

/-- R123: the byte whose count would become 2^32 raises E_OVERFLOW before it is counted; `FREQ_VALID` is 0 and `IN.pos`
just after it. -/
def Obligations.CountOverflowRaises : Prop :=
  ∀ (s : State) (bytes : List (BitVec 8)) (x : BitVec 8) (rest : Bits), Ready s →
    ahead s = bytesBits (bytes ++ [x]) ++ rest →
    (∀ v, occurrences bytes v < 2 ^ 32) → occurrences bytes x.toNat = 2 ^ 32 - 1 →
    exec .count s = .next { s with
      phase := 2#4, done := false, err := true, errcode := 9#4, freqValid := false
      freq := Vector.ofFn fun v => BitVec.ofNat 32 (occurrences bytes v.val)
      inp := { s.inp with pos := s.inp.pos + 8 * (bytes.length + 1) } }

/-! ### Trie Builder -/

/-- 41_trie_builder.md R131, R138 a to d: BUILD completes for every valid Frequency Table whose counts sum below
2^32, and leaves a well-formed arena whose leaves are the symbols with non-zero frequency, each once and with its
frequency, and whose weights and identity values add up exactly. -/
def Obligations.BuildResult : Prop :=
  ∀ s : State, Ready s → s.freqValid = true → s.freq[eosSymbol] = 1#32 → freqSum s.freq < 2 ^ 32 →
    ∃ u t ids, exec .build s = .next u ∧ EndedWell u ∧ u.phase = 3#4
      ∧ u.trieValid = true ∧ u.codesValid = false ∧ u.freqValid = true
      ∧ TreeAt u.node u.root t ids ∧ ArenaWf u
      ∧ t.leafWeights.Perm ((liveSymbols s.freq).map fun v => (v.val, (s.freq[v]).toNat))
      ∧ t.summed ∧ t.weight = freqSum s.freq
      ∧ u.freq = s.freq ∧ u.inp = s.inp ∧ u.out = s.out

/-- R137: the trie BUILD leaves at `ROOT` is `huff(Q_0, L)`. -/
def Obligations.BuildMatchesHuff : Prop :=
  ∀ s : State, Ready s → s.freqValid = true → s.freq[eosSymbol] = 1#32 → freqSum s.freq < 2 ^ 32 →
    ∃ u t ids, exec .build s = .next u ∧ huffTrie s.freq = some t ∧ TreeAt u.node u.root t ids

/-- R133: where the nodes stand after BUILD, for L symbols with non-zero frequency. -/
def Obligations.BuildPlacement : Prop :=
  ∀ s : State, Ready s → s.freqValid = true → s.freq[eosSymbol] = 1#32 → freqSum s.freq < 2 ^ 32 →
    ∃ u, exec .build s = .next u
      ∧ u.nnodes.val + 1 = 2 * (liveSymbols s.freq).length
      ∧ u.seq = u.nnodes
      ∧ u.root.val + 2 = 2 * (liveSymbols s.freq).length
      ∧ (∀ (k : NodeIx) (h : k.val < (liveSymbols s.freq).length),
          u.node[k] = leafNode ((liveSymbols s.freq)[k.val]) (s.freq[(liveSymbols s.freq)[k.val]]))
      ∧ ∀ i : NodeIx, (liveSymbols s.freq).length ≤ i.val → i.val < u.nnodes.val →
          (u.node[i]).kind = false ∧ (u.node[i]).left < i ∧ (u.node[i]).right < i

/-- R134: with a valid Frequency Table BUILD always ends; it raises, and then E_OVERFLOW, exactly when the counts sum
to 2^32 or more, and `TRIE_VALID` is then 0. -/
def Obligations.BuildOverflowExact : Prop :=
  ∀ s : State, Ready s → s.freqValid = true → s.freq[eosSymbol] = 1#32 →
    ∃ u, exec .build s = .next u ∧ u.phase = 3#4 ∧ (u.err = true ↔ 2 ^ 32 ≤ freqSum s.freq)
      ∧ (u.err = true → EndedBadly .overflow u ∧ u.trieValid = false ∧ u.codesValid = false)
      ∧ u.freq = s.freq ∧ u.inp = s.inp ∧ u.out = s.out

/-- R132: when only the pseudo-symbol has a frequency, its leaf is the root. The flag `trieStarted` set by BUILD is the
model's own (log 9). -/
def Obligations.BuildOneLeaf : Prop :=
  ∀ s : State, Ready s → s.freqValid = true → s.freq[eosSymbol] = 1#32 →
    (∀ v : Symbol, v ≠ eosSymbol → s.freq[v] = 0#32) →
    exec .build s = .next { s with
      phase := 3#4, done := true, trieValid := true, codesValid := false, trieStarted := true
      nnodes := 1, seq := 1, pq := [], root := 0
      node := s.node.set 0 { kind := true, value := 256#16, weight := 1#32, left := 0, right := 0 } }

/-! ### Code Table Generator -/

/-- 42_code_table.md R146, R152: GENCODE completes on every trie that fits the arena, and `CODE` holds each leaf's
path, a later leaf of the same Symbol overwriting. -/
def Obligations.GencodeResult : Prop :=
  ∀ (s : State) (t : Trie), Ready s → s.trieValid = true → Holds s t →
    exec .gencode s = .next { s with
      phase := 4#4, done := true, codesValid := true, stack := [], code := codeTable t }

/-- R151: in the table GENCODE leaves, no Symbol's code begins another Symbol's code. -/
def Obligations.CodesPrefixFree : Prop :=
  ∀ (s : State) (t : Trie), Ready s → s.trieValid = true → Holds s t →
    ∃ u, exec .gencode s = .next u ∧ ∀ a b : Symbol, a ≠ b →
      (u.code[a]).valid = true → (u.code[b]).valid = true → ¬ (codeBits u.code[a]).IsPrefix (codeBits u.code[b])

/-- R148, R149, R152: a Symbol has a code exactly when it is on a leaf; its code leads to a leaf of it; the code is
empty exactly when the root is that leaf. -/
def Obligations.GencodeCoverage : Prop :=
  ∀ (s : State) (t : Trie), Ready s → s.trieValid = true → Holds s t →
    ∃ u, exec .gencode s = .next u
      ∧ (∀ a : Symbol, (u.code[a]).valid = true ↔ a.val ∈ t.symbols)
      ∧ (∀ a : Symbol, (u.code[a]).valid = true → t.leafAt (codeBits u.code[a]) = some a.val)
      ∧ (∀ a : Symbol, (u.code[a]).valid = true → ((u.code[a]).len = 0#9 ↔ t.leaves = 1))
      ∧ ∀ a : Symbol, (u.code[a]).valid = false → u.code[a] = { valid := false, len := 0#9, val := 0#256 }

/-- R153: a trie, serialised by WRHDR and read back by RDHDR into any ready machine, gives GENCODE the same Code
Table. -/
def Obligations.HeaderIdempotence : Prop :=
  ∀ (s : State) (t : Trie), Ready s → s.trieValid = true → Holds s t →
    ∃ c w q, exec .gencode s = .next c ∧ exec .wrhdr s = .next w ∧ w.out = s.out ++ q ∧
      ∀ (r : State) (rest : Bits), Ready r → ahead r = q ++ rest →
        ∃ h d, exec .rdhdr r = .next h ∧ EndedWell h ∧ exec .gencode h = .next d ∧ EndedWell d ∧ d.code = c.code

/-! ### Header Codec -/

/-- 43_header_codec.md R156: the word 5 is WRMAGIC; it completes and appends `bits32(MAGIC)`, whatever OUT holds. -/
def Obligations.WrmagicResult : Prop :=
  decodeCmd 0x00000005#32 = .ok .wrmagic
    ∧ ∀ s : State, Ready s →
      exec .wrmagic s = .next { s with phase := 5#4, done := true, out := s.out ++ bitsOf 32 s.magic.toNat }

/-- R157, R159, 30_encoding.md R99: WRHDR completes on every trie that fits the arena and appends `ser(tree(ROOT))`,
which for L leaves is `11 L - 1` bits. -/
def Obligations.WrhdrResult : Prop :=
  ∀ (s : State) (t : Trie), Ready s → s.trieValid = true → Holds s t →
    exec .wrhdr s = .next { s with phase := 6#4, done := true, stack := [], out := s.out ++ t.ser }
    ∧ t.ser.length + 1 = 11 * t.leaves

/-- R160, 60_exceptions.md R219: the word 0xA is RDMAGIC; it completes when the next 32 bits are the marker; on any other
bits, or fewer than 32, it raises E_MALFORMED_HEADER, with IN moved by 32 bits or to its end. -/
def Obligations.RdmagicResult : Prop :=
  decodeCmd 0x0000000A#32 = .ok .rdmagic
    ∧ ∀ s : State, Ready s →
      (∀ rest, ahead s = bitsOf 32 s.magic.toNat ++ rest →
        exec .rdmagic s = .next { s with
          phase := 0xA#4, done := true, inp := { s.inp with pos := s.inp.pos + 32 } })
      ∧ ((¬ ∃ rest, ahead s = bitsOf 32 s.magic.toNat ++ rest) →
        exec .rdmagic s = .next { s with
          phase := 0xA#4, done := false, err := true, errcode := 1#4
          inp := { s.inp with pos := min (s.inp.pos + 32) s.inp.bits.length } })

/-- R167, R163: RDHDR completes on the serialisation of every trie of at most 513 nodes with Symbols on its leaves,
reads exactly its bits, and leaves the trie's shape, node indices being pre-order ranks. -/
def Obligations.RdhdrReadsTrie : Prop :=
  ∀ (s : State) (t : Trie) (rest : Bits), Ready s → t.nodes ≤ 513 → (∀ x ∈ t.symbols, x ≤ 256) →
    ahead s = t.ser ++ rest →
    ∃ u ids, exec .rdhdr s = .next u ∧ EndedWell u ∧ u.phase = 0xB#4
      ∧ u.trieValid = true ∧ u.codesValid = false ∧ u.root = 0 ∧ u.nnodes.val = t.nodes ∧ u.stack = []
      ∧ TreeAt u.node u.root t.shape ids ∧ ids.map Fin.val = List.range t.nodes
      ∧ u.inp = { s.inp with pos := s.inp.pos + t.ser.length } ∧ u.out = s.out
      ∧ u.freq = s.freq ∧ u.code = s.code ∧ u.freqValid = s.freqValid

/-- R162, R167: whenever RDHDR ends without a raise, the bits it consumed are the serialisation of the trie it left,
whose weights and internal values are 0. -/
def Obligations.RdhdrInvertsSer : Prop :=
  ∀ s u : State, Ready s → exec .rdhdr s = .next u → u.err = false →
    ∃ t rest ids, ahead s = t.ser ++ rest ∧ t.shape = t ∧ TreeAt u.node u.root t ids
      ∧ u.inp = { s.inp with pos := s.inp.pos + t.ser.length }
      ∧ t.nodes = u.nnodes.val ∧ ∀ x ∈ t.symbols, x ≤ 256

/-- R225, R164, R165: a header still incomplete after 513 records raises E_TRIE_OVERFLOW before another bit is read,
whatever follows. -/
def Obligations.HeaderOverflowRaises : Prop :=
  ∀ (s : State) (rs : List HdrRecord) (tail : Bits), Ready s →
    (∀ r ∈ rs, r.instr.wf = true) → 0 < awaited 1 rs → rs.length = 513 →
    ahead s = rs.flatMap encodeRecord ++ tail →
    ∃ u, exec .rdhdr s = .next u ∧ EndedBadly .trieOverflow u ∧ u.phase = 0xB#4
      ∧ u.trieValid = false ∧ u.codesValid = false ∧ u.nnodes = 513 ∧ u.out = s.out
      ∧ u.inp = { s.inp with pos := s.inp.pos + (rs.flatMap encodeRecord).length }

/-- R220 a, R164: IN ending before the node bit or inside the symbol field of a header's next record raises
E_TRUNCATED, with `NNODES` the complete records and `IN.pos` at the end. -/
def Obligations.HeaderTruncatedRaises : Prop :=
  ∀ (s : State) (rs : List HdrRecord) (tail : Bits), Ready s → InWithin s →
    (∀ r ∈ rs, r.instr.wf = true) → 0 < awaited 1 rs → rs.length < 513 →
    ahead s = rs.flatMap encodeRecord ++ tail → (tail = [] ∨ ∃ q, tail = true :: q ∧ q.length < 9) →
    ∃ u, exec .rdhdr s = .next u ∧ EndedBadly .truncated u ∧ u.phase = 0xB#4
      ∧ u.trieValid = false ∧ u.codesValid = false ∧ u.nnodes.val = rs.length ∧ u.out = s.out
      ∧ u.inp = { s.inp with pos := s.inp.bits.length }

/-- R224, 30_encoding.md R100: a symbol field of 257 to 511 raises E_BAD_SYMBOL; the record is not stored and `IN.pos`
stands after the field. -/
def Obligations.HeaderBadSymbolRaises : Prop :=
  ∀ (s : State) (rs : List HdrRecord) (v : Nat) (rest : Bits), Ready s →
    (∀ r ∈ rs, r.instr.wf = true) → 0 < awaited 1 rs → rs.length < 513 → 257 ≤ v → v < 512 →
    ahead s = rs.flatMap encodeRecord ++ true :: (bitsOf 9 v ++ rest) →
    ∃ u, exec .rdhdr s = .next u ∧ EndedBadly .badSymbol u ∧ u.phase = 0xB#4
      ∧ u.trieValid = false ∧ u.codesValid = false ∧ u.nnodes.val = rs.length ∧ u.out = s.out
      ∧ u.inp = { s.inp with pos := s.inp.pos + (rs.flatMap encodeRecord).length + 10 }

/-- The record HDR_LEAF, taken by the reader (R161; the model's choice, log 7): it completes, stores the leaf at
`NNODES`, and hangs it under the innermost waiting node; when nothing waits any more the header is complete. -/
def Obligations.HdrLeafResult : Prop :=
  ∀ (s : State) (sym : BitVec 9) (h : s.nnodes.val < 513), sym.toNat ≤ 256 →
    let i : NodeIx := ⟨s.nnodes.val, h⟩
    let nodes := s.node.set s.nnodes.val
      { kind := true, value := sym.setWidth 16, weight := 0#32, left := 0, right := 0 } h
    ∃ n : Count, n.val = s.nnodes.val + 1 ∧
      match s.stack with
      | [] => exec (.hdrLeaf sym) s = .next { s with
          node := nodes, nnodes := n, root := 0, trieValid := true, busy := false, done := true }
      | e :: rest =>
        match e.slot with
        | .left => exec (.hdrLeaf sym) s = .next { s with
            node := nodes.set e.node.val { nodes[e.node] with left := i } e.node.isLt, nnodes := n
            stack := { e with slot := .right } :: rest }
        | .right =>
          (rest ≠ [] → exec (.hdrLeaf sym) s = .next { s with
            node := nodes.set e.node.val { nodes[e.node] with right := i } e.node.isLt, nnodes := n
            stack := rest })
          ∧ (rest = [] → exec (.hdrLeaf sym) s = .next { s with
            node := nodes.set e.node.val { nodes[e.node] with right := i } e.node.isLt, nnodes := n
            stack := [], root := 0, trieValid := true, busy := false, done := true })

/-- The record HDR_INTERNAL, taken by the reader (R161; the model's choice, log 7): it completes, stores the node,
hangs it, and lets it wait for its left child. -/
def Obligations.HdrInternalResult : Prop :=
  ∀ (s : State) (h : s.nnodes.val < 513), s.stack.length < 513 →
    let i : NodeIx := ⟨s.nnodes.val, h⟩
    let nodes := s.node.set s.nnodes.val
      { kind := false, value := 0#16, weight := 0#32, left := 0, right := 0 } h
    let waits : StackEntry := { node := i, slot := .left, len := 0#9, path := 0#256 }
    ∃ n : Count, n.val = s.nnodes.val + 1 ∧
      match s.stack with
      | [] => exec .hdrInternal s = .next { s with node := nodes, nnodes := n, stack := [waits] }
      | e :: rest =>
        match e.slot with
        | .left => exec .hdrInternal s = .next { s with
            node := nodes.set e.node.val { nodes[e.node] with left := i } e.node.isLt, nnodes := n
            stack := waits :: { e with slot := .right } :: rest }
        | .right => exec .hdrInternal s = .next { s with
            node := nodes.set e.node.val { nodes[e.node] with right := i } e.node.isLt, nnodes := n
            stack := waits :: rest }

/-- The marker, taken by the reader RDMAGIC (R160; the model's choice, log 7): the command ends well. -/
def Obligations.MagicWordResult : Prop :=
  ∀ s : State, exec .magicWord s = .next { s with busy := false, done := true }

/-- R161, 00_scope.md R9: the command RDHDR is its records, executed one by one from the state its first lines leave,
until it ends or raises; and RDMAGIC is its one marker. Record-level stepping is the model's choice (log 7), and the
flag `trieStarted` set in the start state is the model's (log 9). -/
def Obligations.ReadersAreRecordSteps : Prop :=
  (∀ s : State, Ready s → ∃ k, Host.Core.run Sys2Proof.core k { s with
      busy := true, done := false, phase := 0xB#4
      trieValid := false, codesValid := false, nnodes := 0, trieStarted := true, stack := [] } = exec .rdhdr s)
  ∧ ∀ s : State, Ready s →
    Host.Core.run Sys2Proof.core 1 { s with busy := true, done := false, phase := 0xA#4 } = exec .rdmagic s

/-! ### Stream Transcoder -/

/-- 44_stream_transcoder.md R176: the word 7 is REWIND; it completes and moves `IN.pos` to 0 only. -/
def Obligations.RewindResult : Prop :=
  decodeCmd 0x00000007#32 = .ok .rewind
    ∧ ∀ s : State, Ready s →
      exec .rewind s = .next { s with phase := 7#4, done := true, inp := { s.inp with pos := 0 } }

/-- 20_memory.md R68, 44_stream_transcoder.md R182: the word 9 is FLUSH; it completes and appends the p zero bits, 0 to
7, after which the length is a multiple of 8; on an aligned OUT, as after another FLUSH, p is 0. -/
def Obligations.FlushResult : Prop :=
  decodeCmd 0x00000009#32 = .ok .flush
    ∧ ∀ s : State, Ready s →
      ∃ p, p = (8 - s.out.length % 8) % 8 ∧ p ≤ 7 ∧ (s.out.length + p) % 8 = 0 ∧ (s.out.length % 8 = 0 → p = 0)
        ∧ exec .flush s = .next { s with phase := 9#4, done := true, out := s.out ++ List.replicate p false }

/-- R180: ENCODE completes when every byte ahead and the pseudo-symbol have codes, and appends the codes in order. -/
def Obligations.EncodeResult : Prop :=
  ∀ (s : State) (bytes : List (BitVec 8)) (rest : Bits), Ready s → s.codesValid = true →
    ahead s = bytesBits bytes ++ rest → rest.length < 8 →
    (∀ b ∈ bytes, (s.code[byteSymbol b]).valid = true) → (s.code[eosSymbol]).valid = true →
    exec .encode s = .next { s with
      phase := 8#4, done := true, inp := { s.inp with pos := s.inp.bits.length }
      out := s.out ++ payload s.code bytes }

/-- R179, R227: the first byte without a code raises E_NO_CODE after it has been read and before anything is written
for it; the pseudo-symbol without a code raises it at the terminator. -/
def Obligations.EncodeNoCodeRaises : Prop :=
  ∀ (s : State) (bytes : List (BitVec 8)), Ready s → s.codesValid = true →
    (∀ b ∈ bytes, (s.code[byteSymbol b]).valid = true) →
    (∀ (x : BitVec 8) (rest : Bits), ahead s = bytesBits bytes ++ (bitsOf 8 x.toNat ++ rest) →
      (s.code[byteSymbol x]).valid = false →
      exec .encode s = .next { s with
        phase := 8#4, done := false, err := true, errcode := 8#4
        inp := { s.inp with pos := s.inp.pos + 8 * (bytes.length + 1) }
        out := s.out ++ bytes.flatMap fun b => codeBits s.code[byteSymbol b] })
    ∧ ∀ rest : Bits, ahead s = bytesBits bytes ++ rest → rest.length < 8 →
      (s.code[eosSymbol]).valid = false →
      exec .encode s = .next { s with
        phase := 8#4, done := false, err := true, errcode := 8#4
        inp := { s.inp with pos := s.inp.bits.length }
        out := s.out ++ bytes.flatMap fun b => codeBits s.code[byteSymbol b] }

/-- R187, R188: DECODE completes when literal leaf paths and then a path to the pseudo-symbol lie ahead: it writes one
byte per literal and reads nothing after the pseudo-symbol's code. -/
def Obligations.DecodeResult : Prop :=
  ∀ (s : State) (t : Trie) (ps : List (Bits × Nat)) (pe rest : Bits), Ready s → s.trieValid = true → Holds s t →
    LiteralPaths t ps → t.leafAt pe = some 256 → ahead s = pathBits ps ++ (pe ++ rest) →
    ∃ c, exec .decode s = .next { s with
      phase := 0xC#4, done := true, cur := c
      inp := { s.inp with pos := s.inp.pos + (pathBits ps).length + pe.length }
      out := s.out ++ literalBits ps }

/-- R186, R226: a one-leaf trie of the pseudo-symbol ends DECODE at once; of any other Symbol it raises E_BAD_ROOT;
neither reads a bit nor writes one. -/
def Obligations.DecodeOneLeaf : Prop :=
  ∀ s : State, Ready s → s.trieValid = true → (s.node[s.root]).kind = true →
    ((s.node[s.root]).value = 256#16 → exec .decode s = .next { s with phase := 0xC#4, done := true })
    ∧ ((s.node[s.root]).value ≠ 256#16 →
      exec .decode s = .next { s with phase := 0xC#4, done := false, err := true, errcode := 7#4 })

/-- R189, R220 b: IN ending before the pseudo-symbol's code, between codes or inside one, raises E_TRUNCATED; the
bytes written so far stay in OUT. -/
def Obligations.DecodeTruncatedRaises : Prop :=
  ∀ (s : State) (t : Trie) (ps : List (Bits × Nat)) (q : Bits), Ready s → InWithin s → s.trieValid = true →
    Holds s t → LiteralPaths t ps → t.inside q = true → ahead s = pathBits ps ++ q →
    ∃ c, exec .decode s = .next { s with
      phase := 0xC#4, done := false, err := true, errcode := 2#4, cur := c
      inp := { s.inp with pos := s.inp.bits.length }
      out := s.out ++ literalBits ps }

/-! ### Composites and the properties of the whole -/

/-- 45_composite.md R197: COMPRESS as a function of the input bytes; onto an aligned OUT it appends R95's stream. -/
def Obligations.CompressResult : Prop :=
  ∀ (s : State) (bytes : List (BitVec 8)), Ready s → s.inp = { bits := bytesBits bytes, pos := 0 } →
    bytes.length ≤ 2 ^ 32 - 2 →
    ∃ u t, huffTrie (freqOf bytes) = some t ∧ exec .compress s = .next u ∧ EndedWell u ∧ u.phase = 9#4
      ∧ u.freqValid = true ∧ u.trieValid = true ∧ u.codesValid = true
      ∧ u.out = padded (s.out ++ streamBody s.magic t bytes)
      ∧ (OutAligned s → u.out = s.out ++ padded (streamBody s.magic t bytes))
      ∧ u.inp = { bits := bytesBits bytes, pos := 8 * bytes.length }

/-- R201: from the start of IN, COMPRESS always ends; it raises exactly for 2^32 - 1 bytes or more, then only
E_OVERFLOW, with nothing written to OUT. -/
def Obligations.CompressRaises : Prop :=
  ∀ s : State, Ready s → s.inp.pos = 0 →
    ∃ u, exec .compress s = .next u ∧ (u.err = true ↔ 2 ^ 32 - 1 ≤ s.inp.bits.length / 8)
      ∧ (u.err = true → EndedBadly .overflow u ∧ u.out = s.out)

/-- R199: DECOMPRESS as a function of the bits ahead. -/
def Obligations.DecompressResult : Prop :=
  ∀ (s : State) (t : Trie) (ps : List (Bits × Nat)) (pe rest : Bits), Ready s →
    t.nodes ≤ 513 → (∀ x ∈ t.symbols, x ≤ 256) → LiteralPaths t ps → t.leafAt pe = some 256 →
    ahead s = bitsOf 32 s.magic.toNat ++ (t.ser ++ (pathBits ps ++ (pe ++ rest))) →
    ∃ u ids, exec .decompress s = .next u ∧ EndedWell u ∧ u.phase = 0xC#4
      ∧ u.trieValid = true ∧ u.codesValid = false ∧ u.freqValid = s.freqValid
      ∧ TreeAt u.node u.root t.shape ids
      ∧ u.out = s.out ++ literalBits ps
      ∧ u.inp = { s.inp with
        pos := s.inp.pos + 32 + t.ser.length + (pathBits ps).length + pe.length }

/-- R205: from the reset state with any marker constant, decompressing what COMPRESS wrote for any byte sequence of at
most 2^32 - 2 bytes gives the bytes back; for a longer one COMPRESS raises E_OVERFLOW and writes nothing. -/
def Obligations.RoundTrip : Prop :=
  ∀ (magic : Word) (bytes : List (BitVec 8)),
    (bytes.length ≤ 2 ^ 32 - 2 →
      ∃ u v, exec .compress (entry magic (bytesBits bytes)) = .next u ∧ EndedWell u
        ∧ exec .decompress (entry magic u.out) = .next v ∧ EndedWell v ∧ v.out = bytesBits bytes)
    ∧ (2 ^ 32 - 2 < bytes.length →
      ∃ u, exec .compress (entry magic (bytesBits bytes)) = .next u ∧ EndedBadly .overflow u ∧ u.out = [])

/-- R203: COMPRESS of an empty IN onto an empty OUT writes 48 bits, its trie being the pseudo-symbol's leaf; DECOMPRESS
of these succeeds with `IN.pos = 42` and writes nothing. -/
def Obligations.EmptyInput : Prop :=
  ∀ s : State, Ready s → s.inp = { bits := [], pos := 0 } → s.out = [] →
    ∃ u, exec .compress s = .next u ∧ EndedWell u ∧ u.root = 0 ∧ u.node[u.root] = leafNode eosSymbol 1#32
      ∧ u.out = bitsOf 32 s.magic.toNat
        ++ ([true, true, false, false, false, false, false, false, false, false] ++ List.replicate 6 false)
      ∧ ∀ r : State, Ready r → r.magic = s.magic → r.inp = { bits := u.out, pos := 0 } →
        ∃ v, exec .decompress r = .next v ∧ EndedWell v ∧ v.inp = { bits := u.out, pos := 42 } ∧ v.out = r.out

/-- R208: a stream that does not begin with the marker makes DECOMPRESS raise E_MALFORMED_HEADER before reading
further; OUT and the trie are untouched. -/
def Obligations.MalformedMarkerRejected : Prop :=
  ∀ s : State, Ready s → (¬ ∃ rest, ahead s = bitsOf 32 s.magic.toNat ++ rest) →
    exec .decompress s = .next { s with
      phase := 0xA#4, done := false, err := true, errcode := 1#4
      inp := { s.inp with pos := min (s.inp.pos + 32) s.inp.bits.length } }

/-- R209: a stream cut in its payload makes DECOMPRESS raise E_TRUNCATED in DECODE, with the bytes decoded so far in
OUT; cut in its header, in RDHDR. -/
def Obligations.TruncatedStreamRejected : Prop :=
  (∀ (s : State) (t : Trie) (ps : List (Bits × Nat)) (q : Bits), Ready s →
    t.nodes ≤ 513 → (∀ x ∈ t.symbols, x ≤ 256) → LiteralPaths t ps → t.inside q = true →
    ahead s = bitsOf 32 s.magic.toNat ++ (t.ser ++ (pathBits ps ++ q)) →
    ∃ u, exec .decompress s = .next u ∧ EndedBadly .truncated u ∧ u.phase = 0xC#4 ∧ u.trieValid = true
      ∧ u.inp = { s.inp with pos := s.inp.bits.length } ∧ u.out = s.out ++ literalBits ps)
  ∧ ∀ (s : State) (rs : List HdrRecord) (tail : Bits), Ready s →
    (∀ r ∈ rs, r.instr.wf = true) → 0 < awaited 1 rs → rs.length < 513 →
    ahead s = bitsOf 32 s.magic.toNat ++ (rs.flatMap encodeRecord ++ tail) →
    (tail = [] ∨ ∃ q, tail = true :: q ∧ q.length < 9) →
    ∃ u, exec .decompress s = .next u ∧ EndedBadly .truncated u ∧ u.phase = 0xB#4 ∧ u.trieValid = false
      ∧ u.inp = { s.inp with pos := s.inp.bits.length } ∧ u.out = s.out

/-- R200: a composite and its members issued one by one give the same state, also after a raise. -/
def Obligations.CompositeIsMembers : Prop :=
  ∀ s : State, s.busy = false →
    exec .compress s = issueAll [.count, .build, .gencode, .wrmagic, .wrhdr, .rewind, .encode, .flush] s
    ∧ exec .decompress s = issueAll [.rdmagic, .rdhdr, .decode] s

/-! ### The host's registers -/

/-- 10_state.md R41, R43, R44, R49: what a read of the registers that always hold a value returns, and of `ROOT` and
`NNODES` while they do: while `TRIE_VALID = 1`, and straight after reset (the model's reading of R44 and U6, log 9). An
unspecified word is the next free word (the model's choice, log 2). -/
def Obligations.RegisterReads : Prop :=
  ∀ s : State, s.busy = false →
    ReadsAs s 0 0#32
    ∧ ReadsAs s 1 (BitVec.ofNat 32 (2 * s.done.toNat + 4 * s.err.toNat + 8 * s.freqValid.toNat
        + 16 * s.trieValid.toNat + 32 * s.codesValid.toNat))
    ∧ ReadsAs s 2 (BitVec.ofNat 32 s.errcode.toNat)
    ∧ ReadsAs s 5 (BitVec.ofNat 32 s.freqAddr.toNat)
    ∧ ReadsAs s 7 (BitVec.ofNat 32 s.nodeAddr.toNat)
    ∧ ReadsAs s 11 (BitVec.ofNat 32 s.codeAddr.toNat)
    ∧ ReadsAs s 21 s.magic
    ∧ ReadsAs s 22 (BitVec.ofNat 32 s.phase.toNat)
    ∧ (s.trieValid = true ∨ (s.phase = 0#4 ∧ s.err = false ∧ s.trieStarted = false) →
        ReadsAs s 3 (BitVec.ofNat 32 s.root.val) ∧ ReadsAs s 4 (BitVec.ofNat 32 s.nnodes.val))
    ∧ (s.trieValid = false → s.phase ≠ 0#4 ∨ s.err = true ∨ s.trieStarted = true →
        ReadsUnspecified s 3 ∧ ReadsUnspecified s 4)
    ∧ ∀ n, 23 ≤ n → ReadsUnspecified s n

/-- R46, R47, R48: the windows onto FREQ, NODE and CODE return the entry the index register names while its table
holds a value there, and an unspecified word otherwise. -/
def Obligations.TableWindows : Prop :=
  ∀ s : State, s.busy = false →
    (∀ v : Symbol, s.freqValid = true → s.freqAddr.toNat = v.val → ReadsAs s 6 s.freq[v])
    ∧ (s.freqValid = false ∨ 256 < s.freqAddr.toNat → ReadsUnspecified s 6)
    ∧ (∀ i : NodeIx, s.trieValid = true → s.nodeAddr.toNat = i.val → i.val < s.nnodes.val →
        ReadsAs s 8 (BitVec.ofNat 32 ((s.node[i]).value.toNat + 65536 * (s.node[i]).kind.toNat))
        ∧ ReadsAs s 9 (BitVec.ofNat 32 ((s.node[i]).left.val + 65536 * (s.node[i]).right.val))
        ∧ ReadsAs s 10 (s.node[i]).weight)
    ∧ (s.trieValid = false ∨ s.nnodes.val ≤ s.nodeAddr.toNat →
        ReadsUnspecified s 8 ∧ ReadsUnspecified s 9 ∧ ReadsUnspecified s 10)
    ∧ (∀ v : Symbol, s.codesValid = true → s.codeAddr.toNat = v.val →
        ReadsAs s 12 (if (s.code[v]).valid then BitVec.ofNat 32 (2 ^ 31 + (s.code[v]).len.toNat) else 0#32)
        ∧ ∀ k, k < 8 → ReadsAs s (13 + k)
            (if (s.code[v]).valid then BitVec.ofNat 32 ((s.code[v]).val.toNat / 2 ^ (32 * k)) else 0#32))
    ∧ (s.codesValid = false ∨ 256 < s.codeAddr.toNat →
        ReadsUnspecified s 12 ∧ ∀ k, k < 8 → ReadsUnspecified s (13 + k))

/-- R46, R47, R48, R49, R50 b: a host write, as the next move: the index registers store their bits; `FREQ_DATA`
writes the entry under exactly the four conditions and else nothing; every other register but `CMD` ignores it. -/
def Obligations.RegisterWrites : Prop :=
  ∀ (s : State) (n : Nat) (w : Word) (rest : List HostMove), s.busy = false → s.host = .write n w :: rest →
    (n = 5 → step s = .next { s with host := rest, freqAddr := BitVec.ofNat 9 w.toNat })
    ∧ (n = 7 → step s = .next { s with host := rest, nodeAddr := BitVec.ofNat 10 w.toNat })
    ∧ (n = 11 → step s = .next { s with host := rest, codeAddr := BitVec.ofNat 9 w.toNat })
    ∧ (n = 6 → ∀ v : Symbol, s.freqAddr.toNat = v.val → v ≠ eosSymbol → s.err = false → s.freqValid = true →
        step s = .next { s with host := rest, freq := s.freq.set v.val w })
    ∧ (n = 6 → s.err = true ∨ s.freqValid = false ∨ 256 ≤ s.freqAddr.toNat →
        step s = .next { s with host := rest })
    ∧ (n ≠ 0 → n ≠ 5 → n ≠ 6 → n ≠ 7 → n ≠ 11 → step s = .next { s with host := rest })

/-- 20_memory.md R81: attaching streams and collecting OUT, as the next move; a position outside the new IN is no move
of the host. -/
def Obligations.StreamMoves : Prop :=
  ∀ (s : State) (rest : List HostMove), s.busy = false →
    (∀ bits pos, s.host = .attachIn bits pos :: rest → pos ≤ bits.length →
      step s = .next { s with host := rest, inp := { bits := bits, pos := pos } })
    ∧ (∀ bits pos, s.host = .attachIn bits pos :: rest → bits.length < pos →
      step s = .refused .attachOutsideStream)
    ∧ (∀ bits, s.host = .attachOut bits :: rest → step s = .next { s with host := rest, out := bits })
    ∧ (s.host = .collect :: rest → step s = .next { s with host := rest, collected := s.out })

/-! ### Invariants, stickiness and frames -/

/-- Every step keeps the status invariant (R27, R28, R29, 60_exceptions.md R216, R218). -/
def Obligations.StatusInvKept : Prop :=
  ∀ s t : State, StatusInv s → step s = .next t → StatusInv t

/-- Every step keeps the table invariant, whatever the host does (R31, R38, R40, R53, 20_memory.md R79). -/
def Obligations.TableInvKept : Prop :=
  ∀ s t : State, StatusInv s → TableInv s → step s = .next t → StatusInv t ∧ TableInv t

/-- In a state that meets the invariants no step faults, and none is refused but an attachment outside the stream: no
command, on any tables and streams a run can reach, and no host move is without a next state (R9: terminating). -/
def Obligations.StepsAlwaysComplete : Prop :=
  ∀ s : State, StatusInv s → TableInv s →
    (∃ t, step s = .next t)
    ∨ ∃ bits pos rest, s.host = .attachIn bits pos :: rest ∧ bits.length < pos

/-- Both invariants hold right after reset. -/
def Obligations.InvariantsAtReset : Prop := StatusInv State.reset ∧ TableInv State.reset

/-- 60_exceptions.md R218, with 10_state.md R42, R46: once `ERR = 1` every word written to `CMD`, a command's or a reserved
one, and every write to `FREQ_DATA` is ignored; every read has a next state, and the reset clears the error; no other
move changes `ERR`, `ERRCODE`, `PHASE`, a flag or a table, IN and OUT change only where the host attaches them, and an
index register only by a write to it. -/
def Obligations.ErrorIsSticky : Prop :=
  ∀ s : State, s.busy = false → s.err = true →
    (∀ w rest, s.host = .write 0 w :: rest → step s = .next { s with host := rest })
    ∧ (∀ w rest, s.host = .write 6 w :: rest → step s = .next { s with host := rest })
    ∧ (∀ n rest, s.host = .read n :: rest →
      ∃ w d, step s = .next { s with host := rest, busData := w, draws := d })
    ∧ (∀ rest, s.host = .rst :: rest → ∃ t, step s = .next t ∧ t.err = false ∧ t.errcode = 0#4)
    ∧ ∀ t, step s = .next t → s.host.head? ≠ some .rst →
      t = { s with
        host := s.host.tail, freqAddr := t.freqAddr, nodeAddr := t.nodeAddr, codeAddr := t.codeAddr
        inp := t.inp, out := t.out, busData := t.busData, collected := t.collected, draws := t.draws }
      ∧ ((∀ bits pos, s.host.head? ≠ some (.attachIn bits pos)) → t.inp = s.inp)
      ∧ ((∀ bits, s.host.head? ≠ some (.attachOut bits)) → t.out = s.out)
      ∧ ((∀ w, s.host.head? ≠ some (.write 5 w)) → t.freqAddr = s.freqAddr)
      ∧ ((∀ w, s.host.head? ≠ some (.write 7 w)) → t.nodeAddr = s.nodeAddr)
      ∧ ((∀ w, s.host.head? ≠ some (.write 11 w)) → t.codeAddr = s.codeAddr)
      ∧ ((∀ n, s.host.head? ≠ some (.read n)) → t.busData = s.busData ∧ t.draws = s.draws)
      ∧ (s.host.head? ≠ some .collect → t.collected = s.collected)

/-- The frame of every instruction with a next state (10_state.md R21, R28, R30, R32, R34, R39, R53; 20_memory.md R60,
R62, R73): who may write each piece of state, everything else being as before; OUT is only appended to; the host's
registers and the constant `MAGIC` are never touched; CLRFREQ, WRMAGIC, REWIND, FLUSH and MAGIC_WORD never change `ERR`
or `ERRCODE`. That MAGIC_WORD, HDR_INTERNAL and HDR_LEAF have a meaning of their own is the model's choice (log 7); the
flag `trieStarted` is the model's (log 9). -/
def Obligations.InstructionFrame : Prop :=
  ∀ (i : Instr) (s t : State), exec i s = .next t →
    (t.magic = s.magic ∧ t.freqAddr = s.freqAddr ∧ t.nodeAddr = s.nodeAddr ∧ t.codeAddr = s.codeAddr
      ∧ t.host = s.host ∧ t.busData = s.busData ∧ t.collected = s.collected ∧ t.draws = s.draws
      ∧ t.inp.bits = s.inp.bits ∧ s.out.IsPrefix t.out)
    ∧ (i = .clrfreq ∨ i = .count ∨ i = .compress ∨ (t.freq = s.freq ∧ t.freqValid = s.freqValid))
    ∧ (i = .build ∨ i = .rdhdr ∨ i = .compress ∨ i = .decompress ∨ i = .hdrInternal ∨ (∃ sym, i = .hdrLeaf sym)
      ∨ (t.node = s.node ∧ t.root = s.root ∧ t.nnodes = s.nnodes ∧ t.trieValid = s.trieValid))
    ∧ (i = .build ∨ i = .compress ∨ (t.seq = s.seq ∧ t.pq = s.pq))
    ∧ (i = .gencode ∨ i = .compress ∨ t.code = s.code)
    ∧ (i = .gencode ∨ i = .build ∨ i = .rdhdr ∨ i = .compress ∨ i = .decompress ∨ t.codesValid = s.codesValid)
    ∧ (i = .decode ∨ i = .decompress ∨ t.cur = s.cur)
    ∧ (i = .gencode ∨ i = .wrhdr ∨ i = .rdhdr ∨ i = .compress ∨ i = .decompress ∨ i = .hdrInternal
      ∨ (∃ sym, i = .hdrLeaf sym) ∨ t.stack = s.stack)
    ∧ (i = .count ∨ i = .rewind ∨ i = .encode ∨ i = .rdmagic ∨ i = .rdhdr ∨ i = .decode ∨ i = .compress
      ∨ i = .decompress ∨ t.inp.pos = s.inp.pos)
    ∧ (i = .wrmagic ∨ i = .wrhdr ∨ i = .encode ∨ i = .flush ∨ i = .decode ∨ i = .compress ∨ i = .decompress
      ∨ t.out = s.out)
    ∧ (i = .build ∨ i = .rdhdr ∨ i = .compress ∨ i = .decompress ∨ t.trieStarted = s.trieStarted)
    ∧ (isCommand i = true ∨ t.phase = s.phase)
    ∧ (i = .clrfreq ∨ i = .wrmagic ∨ i = .rewind ∨ i = .flush ∨ i = .magicWord → t.err = s.err ∧ t.errcode = s.errcode)
end

