-- ==== Sys2Proof/Laws/Bits.lean ====
section
/-! SUPPORT. Bits and numbers (00_scope.md R10): `bitsOf` and `valOf` are inverse to each other, and what they do to
lengths and to concatenation. -/

namespace Sys2Proof

@[simp] theorem bitsOf_length (n v : Nat) : (bitsOf n v).length = n := by
  induction n with
  | zero => rfl
  | succ n ih => simp [bitsOf, ih]

@[simp] theorem valOf_nil : valOf [] = 0 := rfl

theorem foldl_value (q : Bits) (v : Nat) :
    q.foldl (fun v b => 2 * v + b.toNat) v = v * 2 ^ q.length + valOf q := by
  induction q generalizing v with
  | nil => simp
  | cons b q ih =>
    rw [valOf, List.foldl_cons, List.foldl_cons, ih, ih, List.length_cons, pow_succ]
    ring

theorem valOf_cons (b : Bool) (q : Bits) : valOf (b :: q) = b.toNat * 2 ^ q.length + valOf q := by
  rw [valOf, List.foldl_cons, foldl_value]
  simp

/-- R10: `val(q ++ [b]) = 2 val(q) + b`. -/
theorem valOf_concat (q : Bits) (b : Bool) : valOf (q ++ [b]) = 2 * valOf q + b.toNat := by
  simp [valOf]

theorem valOf_append (p q : Bits) : valOf (p ++ q) = valOf p * 2 ^ q.length + valOf q := by
  rw [valOf, List.foldl_append, foldl_value]
  rfl

theorem valOf_lt (q : Bits) : valOf q < 2 ^ q.length := by
  induction q with
  | nil => simp
  | cons b q ih =>
    rw [valOf_cons, List.length_cons, pow_succ]
    have : b.toNat ≤ 1 := Bool.toNat_le b
    nlinarith

theorem valOf_bitsOf_mod (n v : Nat) : valOf (bitsOf n v) = v % 2 ^ n := by
  induction n with
  | zero => simp [bitsOf, Nat.mod_one]
  | succ n ih =>
    rw [bitsOf, valOf_cons, ih, bitsOf_length, pow_succ, Nat.mod_mul, Nat.toNat_testBit]
    ring

/-- R10: `val(bitsN(v)) = v` for v < 2^N. -/
theorem valOf_bitsOf {n v : Nat} (h : v < 2 ^ n) : valOf (bitsOf n v) = v := by
  rw [valOf_bitsOf_mod, Nat.mod_eq_of_lt h]

theorem bitsOf_low {n k b v : Nat} (h : n ≤ k) (hv : v < 2 ^ k) : bitsOf n (2 ^ k * b + v) = bitsOf n v := by
  induction n with
  | zero => rfl
  | succ n ih =>
    rw [bitsOf, bitsOf, ih (by omega), Nat.testBit_two_pow_mul_add b hv, if_pos (by omega)]

/-- R10: `bitsN(val(q)) = q` for a q of N bits. -/
theorem bitsOf_valOf (q : Bits) : bitsOf q.length (valOf q) = q := by
  induction q with
  | nil => rfl
  | cons b q ih =>
    have hv := valOf_lt q
    rw [valOf_cons, List.length_cons, bitsOf, Nat.mul_comm, bitsOf_low (le_refl _) hv, ih,
      Nat.testBit_two_pow_mul_add _ hv]
    cases b <;> simp

/-- The first n bits of a longer sequence of bits of numbers. -/
theorem take_bitsOf (n v : Nat) (rest : Bits) : (bitsOf n v ++ rest).take n = bitsOf n v := by
  rw [List.take_append_of_le_length (by simp)]
  simp

theorem drop_bitsOf (n v : Nat) (rest : Bits) : (bitsOf n v ++ rest).drop n = rest := by
  rw [List.drop_append_of_le_length (by simp)]
  simp

end Sys2Proof
end

