-- ==== Sys2Proof/Laws/State.lean ====
section
/-! SUPPORT. One lemma per field per named update of State: what each update writes and that it writes nothing else. -/

namespace Sys2Proof.Machine

/-! `PHASE <- OP` (10_state.md R27). -/

@[simp] theorem setPhase_root (i : Instr) (s : State) : (setPhase i s).root = s.root := rfl
@[simp] theorem setPhase_nnodes (i : Instr) (s : State) : (setPhase i s).nnodes = s.nnodes := rfl
@[simp] theorem setPhase_seq (i : Instr) (s : State) : (setPhase i s).seq = s.seq := rfl
@[simp] theorem setPhase_cur (i : Instr) (s : State) : (setPhase i s).cur = s.cur := rfl
@[simp] theorem setPhase_phase (i : Instr) (s : State) : (setPhase i s).phase = opcodeOf i := rfl
@[simp] theorem setPhase_busy (i : Instr) (s : State) : (setPhase i s).busy = s.busy := rfl
@[simp] theorem setPhase_done (i : Instr) (s : State) : (setPhase i s).done = s.done := rfl
@[simp] theorem setPhase_err (i : Instr) (s : State) : (setPhase i s).err = s.err := rfl
@[simp] theorem setPhase_freqValid (i : Instr) (s : State) : (setPhase i s).freqValid = s.freqValid := rfl
@[simp] theorem setPhase_trieValid (i : Instr) (s : State) : (setPhase i s).trieValid = s.trieValid := rfl
@[simp] theorem setPhase_codesValid (i : Instr) (s : State) : (setPhase i s).codesValid = s.codesValid := rfl
@[simp] theorem setPhase_errcode (i : Instr) (s : State) : (setPhase i s).errcode = s.errcode := rfl
@[simp] theorem setPhase_freqAddr (i : Instr) (s : State) : (setPhase i s).freqAddr = s.freqAddr := rfl
@[simp] theorem setPhase_nodeAddr (i : Instr) (s : State) : (setPhase i s).nodeAddr = s.nodeAddr := rfl
@[simp] theorem setPhase_codeAddr (i : Instr) (s : State) : (setPhase i s).codeAddr = s.codeAddr := rfl
@[simp] theorem setPhase_freq (i : Instr) (s : State) : (setPhase i s).freq = s.freq := rfl
@[simp] theorem setPhase_node (i : Instr) (s : State) : (setPhase i s).node = s.node := rfl
@[simp] theorem setPhase_code (i : Instr) (s : State) : (setPhase i s).code = s.code := rfl
@[simp] theorem setPhase_pq (i : Instr) (s : State) : (setPhase i s).pq = s.pq := rfl
@[simp] theorem setPhase_stack (i : Instr) (s : State) : (setPhase i s).stack = s.stack := rfl
@[simp] theorem setPhase_magic (i : Instr) (s : State) : (setPhase i s).magic = s.magic := rfl
@[simp] theorem setPhase_inp (i : Instr) (s : State) : (setPhase i s).inp = s.inp := rfl
@[simp] theorem setPhase_out (i : Instr) (s : State) : (setPhase i s).out = s.out := rfl
@[simp] theorem setPhase_host (i : Instr) (s : State) : (setPhase i s).host = s.host := rfl
@[simp] theorem setPhase_busData (i : Instr) (s : State) : (setPhase i s).busData = s.busData := rfl
@[simp] theorem setPhase_collected (i : Instr) (s : State) : (setPhase i s).collected = s.collected := rfl
@[simp] theorem setPhase_trieStarted (i : Instr) (s : State) : (setPhase i s).trieStarted = s.trieStarted := rfl
@[simp] theorem setPhase_draws (i : Instr) (s : State) : (setPhase i s).draws = s.draws := rfl

/-! Acceptance (30_encoding.md R94). -/

@[simp] theorem accept_root (s : State) : (accept s).root = s.root := rfl
@[simp] theorem accept_nnodes (s : State) : (accept s).nnodes = s.nnodes := rfl
@[simp] theorem accept_seq (s : State) : (accept s).seq = s.seq := rfl
@[simp] theorem accept_cur (s : State) : (accept s).cur = s.cur := rfl
@[simp] theorem accept_phase (s : State) : (accept s).phase = s.phase := rfl
@[simp] theorem accept_busy (s : State) : (accept s).busy = true := rfl
@[simp] theorem accept_done (s : State) : (accept s).done = false := rfl
@[simp] theorem accept_err (s : State) : (accept s).err = s.err := rfl
@[simp] theorem accept_freqValid (s : State) : (accept s).freqValid = s.freqValid := rfl
@[simp] theorem accept_trieValid (s : State) : (accept s).trieValid = s.trieValid := rfl
@[simp] theorem accept_codesValid (s : State) : (accept s).codesValid = s.codesValid := rfl
@[simp] theorem accept_errcode (s : State) : (accept s).errcode = s.errcode := rfl
@[simp] theorem accept_freqAddr (s : State) : (accept s).freqAddr = s.freqAddr := rfl
@[simp] theorem accept_nodeAddr (s : State) : (accept s).nodeAddr = s.nodeAddr := rfl
@[simp] theorem accept_codeAddr (s : State) : (accept s).codeAddr = s.codeAddr := rfl
@[simp] theorem accept_freq (s : State) : (accept s).freq = s.freq := rfl
@[simp] theorem accept_node (s : State) : (accept s).node = s.node := rfl
@[simp] theorem accept_code (s : State) : (accept s).code = s.code := rfl
@[simp] theorem accept_pq (s : State) : (accept s).pq = s.pq := rfl
@[simp] theorem accept_stack (s : State) : (accept s).stack = s.stack := rfl
@[simp] theorem accept_magic (s : State) : (accept s).magic = s.magic := rfl
@[simp] theorem accept_inp (s : State) : (accept s).inp = s.inp := rfl
@[simp] theorem accept_out (s : State) : (accept s).out = s.out := rfl
@[simp] theorem accept_host (s : State) : (accept s).host = s.host := rfl
@[simp] theorem accept_busData (s : State) : (accept s).busData = s.busData := rfl
@[simp] theorem accept_collected (s : State) : (accept s).collected = s.collected := rfl
@[simp] theorem accept_trieStarted (s : State) : (accept s).trieStarted = s.trieStarted := rfl
@[simp] theorem accept_draws (s : State) : (accept s).draws = s.draws := rfl

/-! Successful end (R94). -/

@[simp] theorem finish_root (s : State) : (finish s).root = s.root := rfl
@[simp] theorem finish_nnodes (s : State) : (finish s).nnodes = s.nnodes := rfl
@[simp] theorem finish_seq (s : State) : (finish s).seq = s.seq := rfl
@[simp] theorem finish_cur (s : State) : (finish s).cur = s.cur := rfl
@[simp] theorem finish_phase (s : State) : (finish s).phase = s.phase := rfl
@[simp] theorem finish_busy (s : State) : (finish s).busy = false := rfl
@[simp] theorem finish_done (s : State) : (finish s).done = true := rfl
@[simp] theorem finish_err (s : State) : (finish s).err = s.err := rfl
@[simp] theorem finish_freqValid (s : State) : (finish s).freqValid = s.freqValid := rfl
@[simp] theorem finish_trieValid (s : State) : (finish s).trieValid = s.trieValid := rfl
@[simp] theorem finish_codesValid (s : State) : (finish s).codesValid = s.codesValid := rfl
@[simp] theorem finish_errcode (s : State) : (finish s).errcode = s.errcode := rfl
@[simp] theorem finish_freqAddr (s : State) : (finish s).freqAddr = s.freqAddr := rfl
@[simp] theorem finish_nodeAddr (s : State) : (finish s).nodeAddr = s.nodeAddr := rfl
@[simp] theorem finish_codeAddr (s : State) : (finish s).codeAddr = s.codeAddr := rfl
@[simp] theorem finish_freq (s : State) : (finish s).freq = s.freq := rfl
@[simp] theorem finish_node (s : State) : (finish s).node = s.node := rfl
@[simp] theorem finish_code (s : State) : (finish s).code = s.code := rfl
@[simp] theorem finish_pq (s : State) : (finish s).pq = s.pq := rfl
@[simp] theorem finish_stack (s : State) : (finish s).stack = s.stack := rfl
@[simp] theorem finish_magic (s : State) : (finish s).magic = s.magic := rfl
@[simp] theorem finish_inp (s : State) : (finish s).inp = s.inp := rfl
@[simp] theorem finish_out (s : State) : (finish s).out = s.out := rfl
@[simp] theorem finish_host (s : State) : (finish s).host = s.host := rfl
@[simp] theorem finish_busData (s : State) : (finish s).busData = s.busData := rfl
@[simp] theorem finish_collected (s : State) : (finish s).collected = s.collected := rfl
@[simp] theorem finish_trieStarted (s : State) : (finish s).trieStarted = s.trieStarted := rfl
@[simp] theorem finish_draws (s : State) : (finish s).draws = s.draws := rfl

/-! A raise (60_exceptions.md R217). -/

@[simp] theorem raiseErr_root (e : Err) (s : State) : (raiseErr e s).root = s.root := rfl
@[simp] theorem raiseErr_nnodes (e : Err) (s : State) : (raiseErr e s).nnodes = s.nnodes := rfl
@[simp] theorem raiseErr_seq (e : Err) (s : State) : (raiseErr e s).seq = s.seq := rfl
@[simp] theorem raiseErr_cur (e : Err) (s : State) : (raiseErr e s).cur = s.cur := rfl
@[simp] theorem raiseErr_phase (e : Err) (s : State) : (raiseErr e s).phase = s.phase := rfl
@[simp] theorem raiseErr_busy (e : Err) (s : State) : (raiseErr e s).busy = false := rfl
@[simp] theorem raiseErr_done (e : Err) (s : State) : (raiseErr e s).done = false := rfl
@[simp] theorem raiseErr_err (e : Err) (s : State) : (raiseErr e s).err = true := rfl
@[simp] theorem raiseErr_freqValid (e : Err) (s : State) : (raiseErr e s).freqValid = s.freqValid := rfl
@[simp] theorem raiseErr_trieValid (e : Err) (s : State) : (raiseErr e s).trieValid = s.trieValid := rfl
@[simp] theorem raiseErr_codesValid (e : Err) (s : State) : (raiseErr e s).codesValid = s.codesValid := rfl
@[simp] theorem raiseErr_errcode (e : Err) (s : State) : (raiseErr e s).errcode = e.code := rfl
@[simp] theorem raiseErr_freqAddr (e : Err) (s : State) : (raiseErr e s).freqAddr = s.freqAddr := rfl
@[simp] theorem raiseErr_nodeAddr (e : Err) (s : State) : (raiseErr e s).nodeAddr = s.nodeAddr := rfl
@[simp] theorem raiseErr_codeAddr (e : Err) (s : State) : (raiseErr e s).codeAddr = s.codeAddr := rfl
@[simp] theorem raiseErr_freq (e : Err) (s : State) : (raiseErr e s).freq = s.freq := rfl
@[simp] theorem raiseErr_node (e : Err) (s : State) : (raiseErr e s).node = s.node := rfl
@[simp] theorem raiseErr_code (e : Err) (s : State) : (raiseErr e s).code = s.code := rfl
@[simp] theorem raiseErr_pq (e : Err) (s : State) : (raiseErr e s).pq = s.pq := rfl
@[simp] theorem raiseErr_stack (e : Err) (s : State) : (raiseErr e s).stack = s.stack := rfl
@[simp] theorem raiseErr_magic (e : Err) (s : State) : (raiseErr e s).magic = s.magic := rfl
@[simp] theorem raiseErr_inp (e : Err) (s : State) : (raiseErr e s).inp = s.inp := rfl
@[simp] theorem raiseErr_out (e : Err) (s : State) : (raiseErr e s).out = s.out := rfl
@[simp] theorem raiseErr_host (e : Err) (s : State) : (raiseErr e s).host = s.host := rfl
@[simp] theorem raiseErr_busData (e : Err) (s : State) : (raiseErr e s).busData = s.busData := rfl
@[simp] theorem raiseErr_collected (e : Err) (s : State) : (raiseErr e s).collected = s.collected := rfl
@[simp] theorem raiseErr_trieStarted (e : Err) (s : State) : (raiseErr e s).trieStarted = s.trieStarted := rfl
@[simp] theorem raiseErr_draws (e : Err) (s : State) : (raiseErr e s).draws = s.draws := rfl

/-! The start of BUILD and RDHDR (10_state.md R28). -/

@[simp] theorem startTrie_root (s : State) : (startTrie s).root = s.root := rfl
@[simp] theorem startTrie_nnodes (s : State) : (startTrie s).nnodes = 0 := rfl
@[simp] theorem startTrie_seq (s : State) : (startTrie s).seq = s.seq := rfl
@[simp] theorem startTrie_cur (s : State) : (startTrie s).cur = s.cur := rfl
@[simp] theorem startTrie_phase (s : State) : (startTrie s).phase = s.phase := rfl
@[simp] theorem startTrie_busy (s : State) : (startTrie s).busy = s.busy := rfl
@[simp] theorem startTrie_done (s : State) : (startTrie s).done = s.done := rfl
@[simp] theorem startTrie_err (s : State) : (startTrie s).err = s.err := rfl
@[simp] theorem startTrie_freqValid (s : State) : (startTrie s).freqValid = s.freqValid := rfl
@[simp] theorem startTrie_trieValid (s : State) : (startTrie s).trieValid = false := rfl
@[simp] theorem startTrie_codesValid (s : State) : (startTrie s).codesValid = false := rfl
@[simp] theorem startTrie_errcode (s : State) : (startTrie s).errcode = s.errcode := rfl
@[simp] theorem startTrie_freqAddr (s : State) : (startTrie s).freqAddr = s.freqAddr := rfl
@[simp] theorem startTrie_nodeAddr (s : State) : (startTrie s).nodeAddr = s.nodeAddr := rfl
@[simp] theorem startTrie_codeAddr (s : State) : (startTrie s).codeAddr = s.codeAddr := rfl
@[simp] theorem startTrie_freq (s : State) : (startTrie s).freq = s.freq := rfl
@[simp] theorem startTrie_node (s : State) : (startTrie s).node = s.node := rfl
@[simp] theorem startTrie_code (s : State) : (startTrie s).code = s.code := rfl
@[simp] theorem startTrie_pq (s : State) : (startTrie s).pq = s.pq := rfl
@[simp] theorem startTrie_stack (s : State) : (startTrie s).stack = s.stack := rfl
@[simp] theorem startTrie_magic (s : State) : (startTrie s).magic = s.magic := rfl
@[simp] theorem startTrie_inp (s : State) : (startTrie s).inp = s.inp := rfl
@[simp] theorem startTrie_out (s : State) : (startTrie s).out = s.out := rfl
@[simp] theorem startTrie_host (s : State) : (startTrie s).host = s.host := rfl
@[simp] theorem startTrie_busData (s : State) : (startTrie s).busData = s.busData := rfl
@[simp] theorem startTrie_collected (s : State) : (startTrie s).collected = s.collected := rfl
@[simp] theorem startTrie_trieStarted (s : State) : (startTrie s).trieStarted = true := rfl
@[simp] theorem startTrie_draws (s : State) : (startTrie s).draws = s.draws := rfl

/-! The end of BUILD and RDHDR (R28). -/

@[simp] theorem endTrie_root (r : NodeIx) (s : State) : (endTrie r s).root = r := rfl
@[simp] theorem endTrie_nnodes (r : NodeIx) (s : State) : (endTrie r s).nnodes = s.nnodes := rfl
@[simp] theorem endTrie_seq (r : NodeIx) (s : State) : (endTrie r s).seq = s.seq := rfl
@[simp] theorem endTrie_cur (r : NodeIx) (s : State) : (endTrie r s).cur = s.cur := rfl
@[simp] theorem endTrie_phase (r : NodeIx) (s : State) : (endTrie r s).phase = s.phase := rfl
@[simp] theorem endTrie_busy (r : NodeIx) (s : State) : (endTrie r s).busy = s.busy := rfl
@[simp] theorem endTrie_done (r : NodeIx) (s : State) : (endTrie r s).done = s.done := rfl
@[simp] theorem endTrie_err (r : NodeIx) (s : State) : (endTrie r s).err = s.err := rfl
@[simp] theorem endTrie_freqValid (r : NodeIx) (s : State) : (endTrie r s).freqValid = s.freqValid := rfl
@[simp] theorem endTrie_trieValid (r : NodeIx) (s : State) : (endTrie r s).trieValid = true := rfl
@[simp] theorem endTrie_codesValid (r : NodeIx) (s : State) : (endTrie r s).codesValid = s.codesValid := rfl
@[simp] theorem endTrie_errcode (r : NodeIx) (s : State) : (endTrie r s).errcode = s.errcode := rfl
@[simp] theorem endTrie_freqAddr (r : NodeIx) (s : State) : (endTrie r s).freqAddr = s.freqAddr := rfl
@[simp] theorem endTrie_nodeAddr (r : NodeIx) (s : State) : (endTrie r s).nodeAddr = s.nodeAddr := rfl
@[simp] theorem endTrie_codeAddr (r : NodeIx) (s : State) : (endTrie r s).codeAddr = s.codeAddr := rfl
@[simp] theorem endTrie_freq (r : NodeIx) (s : State) : (endTrie r s).freq = s.freq := rfl
@[simp] theorem endTrie_node (r : NodeIx) (s : State) : (endTrie r s).node = s.node := rfl
@[simp] theorem endTrie_code (r : NodeIx) (s : State) : (endTrie r s).code = s.code := rfl
@[simp] theorem endTrie_pq (r : NodeIx) (s : State) : (endTrie r s).pq = s.pq := rfl
@[simp] theorem endTrie_stack (r : NodeIx) (s : State) : (endTrie r s).stack = s.stack := rfl
@[simp] theorem endTrie_magic (r : NodeIx) (s : State) : (endTrie r s).magic = s.magic := rfl
@[simp] theorem endTrie_inp (r : NodeIx) (s : State) : (endTrie r s).inp = s.inp := rfl
@[simp] theorem endTrie_out (r : NodeIx) (s : State) : (endTrie r s).out = s.out := rfl
@[simp] theorem endTrie_host (r : NodeIx) (s : State) : (endTrie r s).host = s.host := rfl
@[simp] theorem endTrie_busData (r : NodeIx) (s : State) : (endTrie r s).busData = s.busData := rfl
@[simp] theorem endTrie_collected (r : NodeIx) (s : State) : (endTrie r s).collected = s.collected := rfl
@[simp] theorem endTrie_trieStarted (r : NodeIx) (s : State) : (endTrie r s).trieStarted = s.trieStarted := rfl
@[simp] theorem endTrie_draws (r : NodeIx) (s : State) : (endTrie r s).draws = s.draws := rfl

/-! Appending to OUT (20_memory.md R67). -/

@[simp] theorem outAppend_root (q : Bits) (s : State) : (outAppend q s).root = s.root := rfl
@[simp] theorem outAppend_nnodes (q : Bits) (s : State) : (outAppend q s).nnodes = s.nnodes := rfl
@[simp] theorem outAppend_seq (q : Bits) (s : State) : (outAppend q s).seq = s.seq := rfl
@[simp] theorem outAppend_cur (q : Bits) (s : State) : (outAppend q s).cur = s.cur := rfl
@[simp] theorem outAppend_phase (q : Bits) (s : State) : (outAppend q s).phase = s.phase := rfl
@[simp] theorem outAppend_busy (q : Bits) (s : State) : (outAppend q s).busy = s.busy := rfl
@[simp] theorem outAppend_done (q : Bits) (s : State) : (outAppend q s).done = s.done := rfl
@[simp] theorem outAppend_err (q : Bits) (s : State) : (outAppend q s).err = s.err := rfl
@[simp] theorem outAppend_freqValid (q : Bits) (s : State) : (outAppend q s).freqValid = s.freqValid := rfl
@[simp] theorem outAppend_trieValid (q : Bits) (s : State) : (outAppend q s).trieValid = s.trieValid := rfl
@[simp] theorem outAppend_codesValid (q : Bits) (s : State) : (outAppend q s).codesValid = s.codesValid := rfl
@[simp] theorem outAppend_errcode (q : Bits) (s : State) : (outAppend q s).errcode = s.errcode := rfl
@[simp] theorem outAppend_freqAddr (q : Bits) (s : State) : (outAppend q s).freqAddr = s.freqAddr := rfl
@[simp] theorem outAppend_nodeAddr (q : Bits) (s : State) : (outAppend q s).nodeAddr = s.nodeAddr := rfl
@[simp] theorem outAppend_codeAddr (q : Bits) (s : State) : (outAppend q s).codeAddr = s.codeAddr := rfl
@[simp] theorem outAppend_freq (q : Bits) (s : State) : (outAppend q s).freq = s.freq := rfl
@[simp] theorem outAppend_node (q : Bits) (s : State) : (outAppend q s).node = s.node := rfl
@[simp] theorem outAppend_code (q : Bits) (s : State) : (outAppend q s).code = s.code := rfl
@[simp] theorem outAppend_pq (q : Bits) (s : State) : (outAppend q s).pq = s.pq := rfl
@[simp] theorem outAppend_stack (q : Bits) (s : State) : (outAppend q s).stack = s.stack := rfl
@[simp] theorem outAppend_magic (q : Bits) (s : State) : (outAppend q s).magic = s.magic := rfl
@[simp] theorem outAppend_inp (q : Bits) (s : State) : (outAppend q s).inp = s.inp := rfl
@[simp] theorem outAppend_out (q : Bits) (s : State) : (outAppend q s).out = s.out ++ q := rfl
@[simp] theorem outAppend_host (q : Bits) (s : State) : (outAppend q s).host = s.host := rfl
@[simp] theorem outAppend_busData (q : Bits) (s : State) : (outAppend q s).busData = s.busData := rfl
@[simp] theorem outAppend_collected (q : Bits) (s : State) : (outAppend q s).collected = s.collected := rfl
@[simp] theorem outAppend_trieStarted (q : Bits) (s : State) : (outAppend q s).trieStarted = s.trieStarted := rfl
@[simp] theorem outAppend_draws (q : Bits) (s : State) : (outAppend q s).draws = s.draws := rfl

/-! Rewinding IN (R66). -/

@[simp] theorem inRewind_root (s : State) : (inRewind s).root = s.root := rfl
@[simp] theorem inRewind_nnodes (s : State) : (inRewind s).nnodes = s.nnodes := rfl
@[simp] theorem inRewind_seq (s : State) : (inRewind s).seq = s.seq := rfl
@[simp] theorem inRewind_cur (s : State) : (inRewind s).cur = s.cur := rfl
@[simp] theorem inRewind_phase (s : State) : (inRewind s).phase = s.phase := rfl
@[simp] theorem inRewind_busy (s : State) : (inRewind s).busy = s.busy := rfl
@[simp] theorem inRewind_done (s : State) : (inRewind s).done = s.done := rfl
@[simp] theorem inRewind_err (s : State) : (inRewind s).err = s.err := rfl
@[simp] theorem inRewind_freqValid (s : State) : (inRewind s).freqValid = s.freqValid := rfl
@[simp] theorem inRewind_trieValid (s : State) : (inRewind s).trieValid = s.trieValid := rfl
@[simp] theorem inRewind_codesValid (s : State) : (inRewind s).codesValid = s.codesValid := rfl
@[simp] theorem inRewind_errcode (s : State) : (inRewind s).errcode = s.errcode := rfl
@[simp] theorem inRewind_freqAddr (s : State) : (inRewind s).freqAddr = s.freqAddr := rfl
@[simp] theorem inRewind_nodeAddr (s : State) : (inRewind s).nodeAddr = s.nodeAddr := rfl
@[simp] theorem inRewind_codeAddr (s : State) : (inRewind s).codeAddr = s.codeAddr := rfl
@[simp] theorem inRewind_freq (s : State) : (inRewind s).freq = s.freq := rfl
@[simp] theorem inRewind_node (s : State) : (inRewind s).node = s.node := rfl
@[simp] theorem inRewind_code (s : State) : (inRewind s).code = s.code := rfl
@[simp] theorem inRewind_pq (s : State) : (inRewind s).pq = s.pq := rfl
@[simp] theorem inRewind_stack (s : State) : (inRewind s).stack = s.stack := rfl
@[simp] theorem inRewind_magic (s : State) : (inRewind s).magic = s.magic := rfl
@[simp] theorem inRewind_inp (s : State) : (inRewind s).inp = { s.inp with pos := 0 } := rfl
@[simp] theorem inRewind_out (s : State) : (inRewind s).out = s.out := rfl
@[simp] theorem inRewind_host (s : State) : (inRewind s).host = s.host := rfl
@[simp] theorem inRewind_busData (s : State) : (inRewind s).busData = s.busData := rfl
@[simp] theorem inRewind_collected (s : State) : (inRewind s).collected = s.collected := rfl
@[simp] theorem inRewind_trieStarted (s : State) : (inRewind s).trieStarted = s.trieStarted := rfl
@[simp] theorem inRewind_draws (s : State) : (inRewind s).draws = s.draws := rfl

/-! `RST` (70_reset_and_hazards.md R245). -/

@[simp] theorem applyReset_root (s : State) : (applyReset s).root = State.reset.root := rfl
@[simp] theorem applyReset_nnodes (s : State) : (applyReset s).nnodes = State.reset.nnodes := rfl
@[simp] theorem applyReset_seq (s : State) : (applyReset s).seq = State.reset.seq := rfl
@[simp] theorem applyReset_cur (s : State) : (applyReset s).cur = State.reset.cur := rfl
@[simp] theorem applyReset_phase (s : State) : (applyReset s).phase = State.reset.phase := rfl
@[simp] theorem applyReset_busy (s : State) : (applyReset s).busy = State.reset.busy := rfl
@[simp] theorem applyReset_done (s : State) : (applyReset s).done = State.reset.done := rfl
@[simp] theorem applyReset_err (s : State) : (applyReset s).err = State.reset.err := rfl
@[simp] theorem applyReset_freqValid (s : State) : (applyReset s).freqValid = State.reset.freqValid := rfl
@[simp] theorem applyReset_trieValid (s : State) : (applyReset s).trieValid = State.reset.trieValid := rfl
@[simp] theorem applyReset_codesValid (s : State) : (applyReset s).codesValid = State.reset.codesValid := rfl
@[simp] theorem applyReset_errcode (s : State) : (applyReset s).errcode = State.reset.errcode := rfl
@[simp] theorem applyReset_freqAddr (s : State) : (applyReset s).freqAddr = State.reset.freqAddr := rfl
@[simp] theorem applyReset_nodeAddr (s : State) : (applyReset s).nodeAddr = State.reset.nodeAddr := rfl
@[simp] theorem applyReset_codeAddr (s : State) : (applyReset s).codeAddr = State.reset.codeAddr := rfl
@[simp] theorem applyReset_freq (s : State) : (applyReset s).freq = State.reset.freq := rfl
@[simp] theorem applyReset_node (s : State) : (applyReset s).node = State.reset.node := rfl
@[simp] theorem applyReset_code (s : State) : (applyReset s).code = State.reset.code := rfl
@[simp] theorem applyReset_pq (s : State) : (applyReset s).pq = State.reset.pq := rfl
@[simp] theorem applyReset_stack (s : State) : (applyReset s).stack = State.reset.stack := rfl
@[simp] theorem applyReset_magic (s : State) : (applyReset s).magic = s.magic := rfl
@[simp] theorem applyReset_inp (s : State) : (applyReset s).inp = s.inp := rfl
@[simp] theorem applyReset_out (s : State) : (applyReset s).out = s.out := rfl
@[simp] theorem applyReset_host (s : State) : (applyReset s).host = s.host := rfl
@[simp] theorem applyReset_busData (s : State) : (applyReset s).busData = s.busData := rfl
@[simp] theorem applyReset_collected (s : State) : (applyReset s).collected = s.collected := rfl
@[simp] theorem applyReset_trieStarted (s : State) : (applyReset s).trieStarted = State.reset.trieStarted := rfl
@[simp] theorem applyReset_draws (s : State) : (applyReset s).draws = s.draws := rfl

end Sys2Proof.Machine
end

