-- ==== Sys2Proof/Laws/Operands.lean ====
section
/-! SUPPORT. One specification per operation on the streams and the tables: everything each can do. -/

namespace Sys2Proof.Machine

theorem ahead_length (s : State) : (ahead s).length = s.inp.bits.length - s.inp.pos := by
  simp [ahead]

/-- `InRead(n)` when n bits remain (20_memory.md R64). -/
theorem inRead_enough {n : Nat} {s : State} (h : s.inp.pos + n ≤ s.inp.bits.length) :
    inRead n s = (some (BitVec.ofNat n (valOf ((ahead s).take n))),
      { s with inp := { s.inp with pos := s.inp.pos + n } }) := by
  simp [inRead, h, ahead]

/-- `InRead(n)` when fewer than n bits remain (R65). -/
theorem inRead_short {n : Nat} {s : State} (h : (ahead s).length < n) :
    inRead n s = (none, { s with inp := { s.inp with pos := s.inp.bits.length } }) := by
  rw [ahead_length] at h
  have : ¬ s.inp.pos + n ≤ s.inp.bits.length := by omega
  simp [inRead, this]

/-- `InRead(n)` of a field written with `OutWrite(n, v)` (R64, R67, R70). -/
theorem inRead_field {n v : Nat} {s : State} {rest : Bits} (hn : 0 < n) (hv : v < 2 ^ n)
    (h : ahead s = bitsOf n v ++ rest) :
    inRead n s = (some (BitVec.ofNat n v), { s with inp := { s.inp with pos := s.inp.pos + n } }) := by
  have hl : (ahead s).length = n + rest.length := by simp [h]
  rw [ahead_length] at hl
  rw [inRead_enough (by omega), h, take_bitsOf, valOf_bitsOf hv]

/-- What lies ahead once n bits have been read. -/
theorem ahead_advance {n : Nat} {s : State} {p rest : Bits} (hp : p.length = n) (h : ahead s = p ++ rest) :
    ahead { s with inp := { s.inp with pos := s.inp.pos + n } } = rest := by
  have : ahead { s with inp := { s.inp with pos := s.inp.pos + n } } = (ahead s).drop n := by
    simp [ahead, List.drop_drop]
  rw [this, h, ← hp, List.drop_left]

/-- A read moves nothing but the position of IN (R64, R65). -/
theorem inRead_state (n : Nat) (s : State) :
    (inRead n s).2 = { s with inp := { s.inp with pos := (inRead n s).2.inp.pos } } := by
  unfold inRead
  split <;> rfl

/-- A read that answers takes its n bits off what lies ahead (R64). -/
theorem inRead_some_length {n : Nat} {s t : State} {x : BitVec n} (hn : 0 < n) (h : inRead n s = (some x, t)) :
    (ahead t).length + n = (ahead s).length ∧ t.inp.bits = s.inp.bits := by
  unfold inRead at h
  split at h
  · injection h with _ ht
    subst ht
    simp only [ahead_length, and_true]
    omega
  · simp at h

/-- R68: the padding brings the length to a multiple of 8 with at most 7 bits. -/
theorem padLength_spec (n : Nat) : (n + padLength n) % 8 = 0 ∧ padLength n ≤ 7 := by
  unfold padLength
  omega

/-- R68: a flush of an aligned stream appends nothing. -/
theorem padLength_aligned {n : Nat} (h : n % 8 = 0) : padLength n = 0 := by
  unfold padLength
  omega

theorem nextCount_val {n : Count} (h : n.val < 513) : (nextCount n).val = n.val + 1 := by
  unfold nextCount
  split
  · rfl
  · omega

/-- Allocation while there is room (41_trie_builder.md R131, 43_header_codec.md R161). -/
theorem allocNode_room {nd : Node} {s : State} (h : s.nnodes.val < 513) :
    allocNode nd s = some (⟨s.nnodes.val, h⟩,
      { s with node := s.node.set s.nnodes.val nd, nnodes := nextCount s.nnodes }) := by
  simp [allocNode, h]

/-- Allocation in a full arena. -/
theorem allocNode_full {nd : Node} {s : State} (h : s.nnodes.val = 513) : allocNode nd s = none := by
  simp [allocNode, h]

theorem push_room {e : StackEntry} {s : State} (h : s.stack.length < 513) :
    push e s = some { s with stack := e :: s.stack } := by
  simp [push, h]

theorem pqBefore_iff (a b : PqEntry) :
    pqBefore a b = true ↔ a.weight.toNat < b.weight.toNat ∨ a.weight = b.weight ∧ a.seq.val < b.seq.val := by
  simp [pqBefore]

/-- The order of R36 is transitive. -/
theorem pqBefore_trans {a b c : PqEntry} (h : pqBefore a b = true) (k : pqBefore b c = true) :
    pqBefore a c = true := by
  rw [pqBefore_iff] at *
  rcases h with h | ⟨h, h'⟩ <;> rcases k with k | ⟨k, k'⟩
  · exact .inl (by omega)
  · exact .inl (k ▸ h)
  · exact .inl (h ▸ k)
  · exact .inr ⟨h.trans k, by omega⟩

/-- The order of R36 is total on entries with distinct sequence numbers (R24, R36). -/
theorem pqBefore_total {a b : PqEntry} (h : a.seq ≠ b.seq) (k : pqBefore a b = false) : pqBefore b a = true := by
  rw [← Bool.not_eq_true, pqBefore_iff] at k
  rw [pqBefore_iff]
  have hs : a.seq.val ≠ b.seq.val := fun e => h (Fin.ext e)
  by_cases hw : a.weight = b.weight
  · exact .inr ⟨hw.symm, by simp [hw] at k; omega⟩
  · refine .inl ?_
    have : a.weight.toNat ≠ b.weight.toNat := fun e => hw (BitVec.eq_of_toNat_eq e)
    simp [hw] at k
    omega

/-- Insertion adds exactly the entry (R35). -/
theorem pqInsert_perm (e : PqEntry) (q : List PqEntry) : (pqInsert e q).Perm (e :: q) := by
  induction q with
  | nil => exact .refl _
  | cons x xs ih =>
    unfold pqInsert
    split
    · exact .refl _
    · exact (ih.cons x).trans (.swap e x xs)

theorem pqInsert_length (e : PqEntry) (q : List PqEntry) : (pqInsert e q).length = q.length + 1 := by
  simpa using (pqInsert_perm e q).length_eq

/-- Insertion keeps the canonical form of `PQ`, for a sequence number of its own (R24, R35, R36). -/
theorem pqInsert_sorted {e : PqEntry} {q : List PqEntry} (hq : pqSorted q) (he : ∀ x ∈ q, e.seq ≠ x.seq) :
    pqSorted (pqInsert e q) := by
  unfold pqSorted at *
  induction q with
  | nil => simp [pqInsert]
  | cons x xs ih =>
    rw [List.pairwise_cons] at hq
    unfold pqInsert
    split
    next h =>
      refine List.pairwise_cons.mpr ⟨?_, List.pairwise_cons.mpr hq⟩
      intro y hy
      rcases List.mem_cons.mp hy with rfl | hy
      · exact h
      · exact pqBefore_trans h (hq.1 y hy)
    next h =>
      refine List.pairwise_cons.mpr ⟨?_, ih hq.2 fun y hy => he y (List.mem_cons_of_mem _ hy)⟩
      intro y hy
      rcases List.mem_cons.mp ((pqInsert_perm e xs).mem_iff.mp hy) with rfl | hy
      · exact pqBefore_total (he x List.mem_cons_self) (by simpa using h)
      · exact hq.1 y hy

/-- Extraction keeps the canonical form (R35). -/
theorem pqSorted_tail {e : PqEntry} {q : List PqEntry} (h : pqSorted (e :: q)) : pqSorted q :=
  (List.pairwise_cons.mp h).2

/-- The head of the canonical form is the least entry (R36). -/
theorem pqSorted_head {e x : PqEntry} {q : List PqEntry} (h : pqSorted (e :: q)) (hx : x ∈ q) :
    pqBefore e x = true :=
  (List.pairwise_cons.mp h).1 x hx

end Sys2Proof.Machine
end

