-- ==== Sys2Proof/Laws/Ops.lean ====
section
/-! SUPPORT. What the shared operations of a command can do: how a run binds, ends and is wrapped (30_encoding.md R94;
60_exceptions.md R217), once each, and that no data of IN can pass a loop's bound. -/

namespace Sys2Proof.Machine

@[simp] theorem bind_ok (s : State) (f : State → Run) : (Run.ok s).bind f = f s := rfl
@[simp] theorem bind_raised (e : Err) (s : State) (f : State → Run) : (Run.raised e s).bind f = .raised e s := rfl
@[simp] theorem bind_stuck (x : Fault) (f : State → Run) : (Run.stuck x).bind f = .stuck x := rfl

/-- A sequence ends well exactly when both parts do. -/
theorem bind_eq_ok {r : Run} {f : State → Run} {u : State} : r.bind f = .ok u ↔ ∃ t, r = .ok t ∧ f t = .ok u := by
  cases r <;> simp

/-- A sequence raises where its first raising part does (R217). -/
theorem bind_eq_raised {r : Run} {f : State → Run} {e : Err} {u : State} :
    r.bind f = .raised e u ↔ r = .raised e u ∨ ∃ t, r = .ok t ∧ f t = .raised e u := by
  cases r <;> simp

/-- A sequence gets stuck where its first stuck part does. -/
theorem bind_eq_stuck {r : Run} {f : State → Run} {x : Fault} :
    r.bind f = .stuck x ↔ r = .stuck x ∨ ∃ t, r = .ok t ∧ f t = .stuck x := by
  cases r <;> simp

theorem bind_assoc (r : Run) (f g : State → Run) : (r.bind f).bind g = r.bind fun s => (f s).bind g := by
  cases r <;> rfl

/-- How an accepted command can end (R94, R217). -/
theorem settle_next {r : Run} {t : State} :
    settle r = .next t ↔ (∃ u, r = .ok u ∧ t = finish u) ∨ ∃ e u, r = .raised e u ∧ t = raiseErr e u := by
  cases r <;> simp [settle, eq_comm]

/-- An accepted command (R94). -/
theorem issue_ready {run : State → Run} {s : State} (h : Ready s) : issue run s = settle (run (accept s)) := by
  simp [issue, h.1, h.2]

/-- A command that is not accepted has no effect at all (10_state.md R42). -/
theorem issue_ignored {run : State → Run} {s : State} (h : s.busy = true ∨ s.err = true) : issue run s = .next s := by
  rcases h with h | h <;> simp [issue, h]

/-- Everything a command can do with a next state. -/
theorem issue_next {run : State → Run} {s t : State} (h : issue run s = .next t) :
    ((s.busy = true ∨ s.err = true) ∧ t = s) ∨
    (Ready s ∧ ((∃ u, run (accept s) = .ok u ∧ t = finish u) ∨
      ∃ e u, run (accept s) = .raised e u ∧ t = raiseErr e u)) := by
  by_cases hr : s.busy = true ∨ s.err = true
  · rw [issue_ignored hr] at h
    exact .inl ⟨hr, by injection h with h; exact h.symm⟩
  · have hr' : Ready s := by
      rw [not_or, Bool.not_eq_true, Bool.not_eq_true] at hr
      exact hr
    rw [issue_ready hr'] at h
    exact .inr ⟨hr', settle_next.mp h⟩

/-- A primitive whose precondition holds (R94). -/
theorem primitive_allowed {i : Instr} {body : State → Run} {s : State} (h : precondition i s = true) :
    primitive i body s = body (setPhase i s) := by
  simp [primitive, h]

/-- A primitive whose precondition fails (60_exceptions.md R223). -/
theorem primitive_denied {i : Instr} {body : State → Run} {s : State} (h : precondition i s = false) :
    primitive i body s = .raised .sequence (setPhase i s) := by
  simp [primitive, h]

/-- The preconditions read the valid flags only, which acceptance and `PHASE` do not change. -/
@[simp] theorem precondition_accept (i : Instr) (s : State) : precondition i (accept s) = precondition i s := by
  cases i <;> rfl

@[simp] theorem precondition_setPhase (i j : Instr) (s : State) :
    precondition i (setPhase j s) = precondition i s := by
  cases i <;> rfl

@[simp] theorem ahead_accept (s : State) : ahead (accept s) = ahead s := rfl
@[simp] theorem ahead_setPhase (i : Instr) (s : State) : ahead (setPhase i s) = ahead s := rfl

/-- When a read of `ROOT` or `NNODES` returns the register (10_state.md R44). -/
theorem trieRegsKnown_iff (s : State) :
    trieRegsKnown s = true ↔ s.trieValid = true ∨ (s.phase = 0#4 ∧ s.err = false ∧ s.trieStarted = false) := by
  simp [trieRegsKnown, and_assoc]

/-- `PHASE` of a command is never the value after reset (R27). -/
theorem setPhase_ne_zero {i : Instr} (s : State) (h : isCommand i = true) : (setPhase i s).phase ≠ 0#4 := by
  simpa [isCommand] using h

/-- What a push answers (10_state.md R37). -/
theorem pushRun_room {e : StackEntry} {s : State} (h : s.stack.length < 513) :
    pushRun e s = .ok { s with stack := e :: s.stack } := by
  simp [pushRun, push_room h]

end Sys2Proof.Machine
end

