-- ==== Sys2Proof/Laws/Frames.lean ====
section
/-! SUPPORT. What each command body can write: one frame lemma per loop, over every way the loop can end, so that a
proof about a command never unfolds a loop only to learn what it leaves alone (10_state.md R21, R28 to R37). -/

namespace Sys2Proof.Machine

/-- Every state a run can end in, well or by a raise, is related so to the start. -/
def Run.Ends (P : State → Prop) : Run → Prop
  | .ok t => P t
  | .raised _ t => P t
  | .stuck _ => True

@[simp] theorem ends_ok (P : State → Prop) (t : State) : (Run.ok t).Ends P ↔ P t := Iff.rfl
@[simp] theorem ends_raised (P : State → Prop) (e : Err) (t : State) : (Run.raised e t).Ends P ↔ P t := Iff.rfl
@[simp] theorem ends_stuck (P : State → Prop) (x : Fault) : (Run.stuck x).Ends P ↔ True := Iff.rfl

/-- A sequence ends so if its first part does and its second does from there. -/
theorem ends_bind {P : State → Prop} {r : Run} {f : State → Run} (h : r.Ends P) (k : ∀ t, P t → (f t).Ends P) :
    (r.bind f).Ends P := by
  cases r with
  | ok t => exact k t h
  | raised e t => exact h
  | stuck x => trivial

/-- A weaker relation. -/
theorem ends_mono {P Q : State → Prop} {r : Run} (h : r.Ends P) (k : ∀ t, P t → Q t) : r.Ends Q := by
  cases r with
  | ok t => exact k t h
  | raised e t => exact k t h
  | stuck x => trivial

/-- A read of IN moves the position and nothing else. -/
theorem inRead_frame (n : Nat) (s : State) : ∃ p, (inRead n s).2 = { s with inp := { s.inp with pos := p } } :=
  ⟨_, inRead_state n s⟩

/-- Everything COUNT's loop can write: `FREQ` and the read position. -/
theorem countLoop_frame (fuel : Nat) (s : State) :
    (countLoop fuel s).Ends fun t => ∃ f p, t = { s with freq := f, inp := { s.inp with pos := p } } := by
  induction fuel generalizing s with
  | zero => trivial
  | succ fuel ih =>
    obtain ⟨p, hp⟩ := inRead_frame 8 s
    unfold countLoop
    split
    · next t h => rw [h] at hp; exact ⟨s.freq, p, hp⟩
    · next x t h =>
      rw [h] at hp
      simp only at hp
      subst hp
      split
      · exact ⟨s.freq, p, rfl⟩
      · exact ends_mono (ih _) fun t ⟨f, q, e⟩ => ⟨f, q, e⟩

/-- Everything adding a node to the queue can write: one arena entry and `NNODES`, `PQ` and `SEQ`. -/
theorem addToQueue_frame (nd : Node) (s : State) :
    (addToQueue nd s).Ends fun t => ∃ n c q k, t = { s with node := n, nnodes := c, pq := q, seq := k } := by
  unfold addToQueue
  split
  · trivial
  · next i t h =>
    unfold allocNode at h
    split at h
    · cases h
      exact ⟨_, _, _, _, rfl⟩
    · cases h

/-- Everything BUILD's first phase can write. -/
theorem leafLoop_frame (l : List Symbol) (s : State) :
    (leafLoop l s).Ends fun t => ∃ n c q k, t = { s with node := n, nnodes := c, pq := q, seq := k } := by
  induction l generalizing s with
  | nil => exact ⟨s.node, s.nnodes, s.pq, s.seq, rfl⟩
  | cons sym rest ih =>
    unfold leafLoop
    split
    · exact ih s
    · refine ends_bind (addToQueue_frame _ _) ?_
      rintro _ ⟨n, c, q, k, rfl⟩
      exact ends_mono (ih _) fun t ⟨n', c', q', k', e⟩ => ⟨n', c', q', k', e⟩

/-- Everything BUILD's second and third phase can write. -/
theorem combineLoop_frame (fuel : Nat) (s : State) :
    (combineLoop fuel s).Ends fun t => ∃ n c q k r v,
      t = { s with node := n, nnodes := c, pq := q, seq := k, root := r, trieValid := v } := by
  induction fuel generalizing s with
  | zero => trivial
  | succ fuel ih =>
    unfold combineLoop
    split
    · trivial
    · next r _ => exact ⟨s.node, s.nnodes, [], s.seq, r.node, true, rfl⟩
    · next a b rest _ =>
      split
      · refine ends_bind (ends_mono (addToQueue_frame _ _) fun t ⟨n, c, q, k, e⟩ => ?_) ?_
        · exact ⟨n, c, q, k, s.root, s.trieValid, e⟩
        · rintro _ ⟨n, c, q, k, r, v, rfl⟩
          exact ends_mono (ih _) fun t ⟨n', c', q', k', r', v', e⟩ => ⟨n', c', q', k', r', v', e⟩
      · exact ⟨s.node, s.nnodes, rest, s.seq, s.root, s.trieValid, rfl⟩

/-- Everything a push can write. -/
theorem pushRun_frame (e : StackEntry) (s : State) : (pushRun e s).Ends fun t => ∃ st, t = { s with stack := st } := by
  unfold pushRun push
  split
  · next t h =>
    split at h
    · cases h
      exact ⟨_, rfl⟩
    · cases h
  · trivial

/-- Everything GENCODE's walk can write: `CODE` and `STACK`. -/
theorem gencodeLoop_frame (fuel : Nat) (s : State) :
    (gencodeLoop fuel s).Ends fun t => ∃ c st, t = { s with code := c, stack := st } := by
  induction fuel generalizing s with
  | zero =>
    unfold gencodeLoop
    split
    · exact ⟨s.code, s.stack, rfl⟩
    · trivial
  | succ fuel ih =>
    unfold gencodeLoop
    split
    · exact ⟨s.code, s.stack, rfl⟩
    · next e rest _ =>
      split
      · split
        · exact ends_mono (ih _) fun t ⟨c, st, h⟩ => ⟨c, st, h⟩
        · trivial
      · refine ends_bind (ends_bind (ends_mono (pushRun_frame _ _) fun t ⟨st, h⟩ => ⟨s.code, st, h⟩) ?_) ?_
        · rintro _ ⟨c, st, rfl⟩
          exact ends_mono (pushRun_frame _ _) fun t ⟨st', h⟩ => ⟨c, st', h⟩
        · rintro _ ⟨c, st, rfl⟩
          exact ends_mono (ih _) fun t ⟨c', st', h⟩ => ⟨c', st', h⟩

/-- Everything WRHDR's walk can write: the end of OUT, and `STACK`. -/
theorem wrhdrLoop_frame (fuel : Nat) (s : State) :
    (wrhdrLoop fuel s).Ends fun t => ∃ q st, t = { s with out := s.out ++ q, stack := st } := by
  induction fuel generalizing s with
  | zero =>
    unfold wrhdrLoop
    split
    · exact ⟨[], s.stack, by simp⟩
    · trivial
  | succ fuel ih =>
    unfold wrhdrLoop
    split
    · exact ⟨[], s.stack, by simp⟩
    · next e rest _ =>
      split
      · exact ends_mono (ih _) fun t ⟨q, st, h⟩ => 
          ⟨encodeRecord (recordOf s.node[e.node]) ++ q, st, h.trans (by simp [outAppend])⟩
      · refine ends_bind (ends_bind (ends_mono (pushRun_frame _ _) fun t ⟨st, h⟩ =>
          ⟨encodeRecord (recordOf s.node[e.node]), st, h⟩) ?_) ?_
        · rintro _ ⟨q, st, rfl⟩
          exact ends_mono (pushRun_frame _ _) fun t ⟨st', h⟩ => ⟨q, st', h⟩
        · rintro _ ⟨q, st, rfl⟩
          exact ends_mono (ih _) fun t ⟨q', st', h⟩ => ⟨q ++ q', st', h.trans (by simp)⟩

/-- Everything hanging a node can write: links in the arena, and `STACK`. -/
theorem hangNode_frame (i : NodeIx) (s : State) : ∃ n st, hangNode i s = { s with node := n, stack := st } := by
  unfold hangNode
  split
  · exact ⟨_, _, rfl⟩
  · split
    · exact ⟨_, _, rfl⟩
    · exact ⟨_, _, rfl⟩

/-- Everything taking a header record can write. -/
theorem takeRecord_frame (r : HdrRecord) (s : State) :
    (takeRecord r s).Ends fun t => ∃ n c st, t = { s with node := n, nnodes := c, stack := st } := by
  unfold takeRecord
  split
  · exact ⟨s.node, s.nnodes, s.stack, rfl⟩
  · next i t h =>
    have ht : ∃ n c, t = { s with node := n, nnodes := c } := by
      unfold allocNode at h
      split at h
      · cases h
        exact ⟨_, _, rfl⟩
      · cases h
    obtain ⟨n, c, rfl⟩ := ht
    obtain ⟨n', st, hn⟩ := hangNode_frame i { s with node := n, nnodes := c }
    split
    · rw [hn]
      exact ends_mono (pushRun_frame _ _) fun u ⟨st', e⟩ => ⟨n', c, st', e⟩
    · rw [hn]
      exact ⟨n', c, st, rfl⟩

/-- Reading a header record moves the position of IN and nothing else. -/
theorem readRecord_frame (s : State) : ∃ p, (readRecord s).2 = { s with inp := { s.inp with pos := p } } := by
  obtain ⟨p, hp⟩ := inRead_frame 1 s
  unfold readRecord
  split
  · next t h => rw [h] at hp; exact ⟨p, hp⟩
  · next b t h =>
    rw [h] at hp
    simp only at hp
    subst hp
    obtain ⟨p', hp'⟩ := inRead_frame 9 { s with inp := { s.inp with pos := p } }
    split
    · split
      · next u k => rw [k] at hp'; exact ⟨p', hp'⟩
      · next f u k =>
        rw [k] at hp'
        simp only at hp'
        subst hp'
        split
        · exact ⟨p', rfl⟩
        · exact ⟨p', rfl⟩
    · exact ⟨p, rfl⟩

/-- Everything RDHDR's loop can write. -/
theorem rdhdrLoop_frame (fuel : Nat) (s : State) :
    (rdhdrLoop fuel s).Ends fun t => ∃ n c st r v p, t = { s with
      node := n, nnodes := c, stack := st, root := r, trieValid := v, inp := { s.inp with pos := p } } := by
  induction fuel generalizing s with
  | zero => trivial
  | succ fuel ih =>
    unfold rdhdrLoop
    split
    · exact ⟨s.node, s.nnodes, s.stack, s.root, s.trieValid, s.inp.pos, rfl⟩
    · obtain ⟨p, hp⟩ := readRecord_frame s
      split
      · next e t h =>
        rw [h] at hp
        exact ⟨s.node, s.nnodes, s.stack, s.root, s.trieValid, p, hp⟩
      · next r t h =>
        rw [h] at hp
        simp only at hp
        subst hp
        refine ends_bind (ends_mono (takeRecord_frame _ _) fun u ⟨n, c, st, e⟩ => ?_) ?_
        · exact ⟨n, c, st, s.root, s.trieValid, p, e⟩
        · rintro _ ⟨n, c, st, r', v, p', rfl⟩
          split
          · exact ⟨n, c, st, 0, true, p', rfl⟩
          · exact ends_mono (ih _) fun u ⟨n', c', st', r'', v', p'', e⟩ => ⟨n', c', st', r'', v', p'', e⟩

/-- Everything emitting a code can write: the end of OUT. -/
theorem emitCode_frame (sym : Symbol) (s : State) : (emitCode sym s).Ends fun t => ∃ q, t = { s with out := s.out ++ q } := by
  unfold emitCode
  split
  · exact ⟨_, rfl⟩
  · exact ⟨[], by simp⟩

/-- Everything ENCODE's loop can write: the position of IN, and the end of OUT. -/
theorem encodeLoop_frame (fuel : Nat) (s : State) :
    (encodeLoop fuel s).Ends fun t => ∃ p q, t = { s with inp := { s.inp with pos := p }, out := s.out ++ q } := by
  induction fuel generalizing s with
  | zero => trivial
  | succ fuel ih =>
    obtain ⟨p, hp⟩ := inRead_frame 8 s
    unfold encodeLoop
    split
    · next t h =>
      rw [h] at hp
      simp only at hp
      subst hp
      exact ends_mono (emitCode_frame _ _) fun u ⟨q, e⟩ => ⟨p, q, e⟩
    · next x t h =>
      rw [h] at hp
      simp only at hp
      subst hp
      refine ends_bind (ends_mono (emitCode_frame _ _) fun u ⟨q, e⟩ => ⟨p, q, e⟩) ?_
      rintro _ ⟨p', q, rfl⟩
      exact ends_mono (ih _) fun u ⟨p'', q', e⟩ => ⟨p'', q ++ q', e.trans (by simp)⟩

/-- Everything DECODE's loop can write: `CUR`, the position of IN, and the end of OUT. -/
theorem decodeLoop_frame (fuel : Nat) (s : State) :
    (decodeLoop fuel s).Ends fun t => ∃ c p q,
      t = { s with cur := c, inp := { s.inp with pos := p }, out := s.out ++ q } := by
  induction fuel generalizing s with
  | zero => trivial
  | succ fuel ih =>
    obtain ⟨p, hp⟩ := inRead_frame 1 s
    unfold decodeLoop
    split
    · next t h =>
      rw [h] at hp
      exact ⟨s.cur, p, [], hp.trans (by simp)⟩
    · next b t h =>
      rw [h] at hp
      simp only at hp
      subst hp
      dsimp only
      split
      · split
        · exact ⟨childOf s.node[s.cur] b, p, [], by simp⟩
        · exact ends_mono (ih _) fun u ⟨c, p', q, e⟩ => 
            ⟨c, p', bitsOf 8 ((s.node[childOf s.node[s.cur] b]).value.extractLsb' 0 8).toNat ++ q,
              e.trans (by simp [outWrite, outAppend])⟩
      · exact ends_mono (ih _) fun u ⟨c, p', q, e⟩ => ⟨c, p', q, e⟩

end Sys2Proof.Machine
end

