-- ==== Sys2Proof/Laws/PerInstr.lean ====
section
/-! SUPPORT. Statements made of every instruction as syntax, one lemma per constructor: the family EncodedWidth says
that the encoder gives each row of the opcode table as many bits as the table does. -/

namespace Sys2Proof.Laws.EncodedWidth

/-- How many bits an encoded instruction has. -/
def bitCount : Encoded → Nat
  | .cmd _ => 32
  | .marker _ => 32
  | .record bits => bits.length

/-- The widths of the table's rows (30_encoding.md R90, R96, R97). -/
def rowWidth : Instr → Nat
  | .hdrInternal => 1
  | .hdrLeaf _ => 10
  | .clrfreq | .count | .build | .gencode | .wrmagic | .wrhdr | .rewind | .encode | .flush | .rdmagic | .rdhdr
  | .decode | .compress | .decompress | .magicWord => 32

/-- The encoder's width is the row's, under every marker constant. -/
def Statement (i : Instr) : Prop := ∀ magic, bitCount (Sys2Proof.encode magic i) = rowWidth i

theorem clrfreq : Statement .clrfreq := fun _ => rfl
theorem count : Statement .count := fun _ => rfl
theorem build : Statement .build := fun _ => rfl
theorem gencode : Statement .gencode := fun _ => rfl
theorem wrmagic : Statement .wrmagic := fun _ => rfl
theorem wrhdr : Statement .wrhdr := fun _ => rfl
theorem rewind : Statement .rewind := fun _ => rfl
theorem encode : Statement .encode := fun _ => rfl
theorem flush : Statement .flush := fun _ => rfl
theorem rdmagic : Statement .rdmagic := fun _ => rfl
theorem rdhdr : Statement .rdhdr := fun _ => rfl
theorem decode : Statement .decode := fun _ => rfl
theorem compress : Statement .compress := fun _ => rfl
theorem decompress : Statement .decompress := fun _ => rfl
theorem magicWord : Statement .magicWord := fun _ => rfl
theorem hdrInternal : Statement .hdrInternal := fun _ => rfl
theorem hdrLeaf (sym : BitVec 9) : Statement (.hdrLeaf sym) := fun _ => rfl

end Sys2Proof.Laws.EncodedWidth
end

