-- ==== Sys2Proof/Laws/Trie.lean ====
section
/-! SUPPORT. Small facts about the abstract trie (00_scope.md R12, R13). -/

namespace Sys2Proof.Machine

@[simp] theorem codes_eq (t : Trie) : t.codes = t.paths [] := rfl

theorem leaves_pos (t : Trie) : 0 < t.leaves := by
  induction t with
  | leaf => simp [Trie.leaves]
  | node _ _ l r hl hr => simp [Trie.leaves]; omega

/-- R13: `nodes(t) = 2 leaves(t) - 1`. -/
theorem nodes_eq (t : Trie) : t.nodes + 1 = 2 * t.leaves := by
  induction t with
  | leaf => rfl
  | node _ _ l r hl hr => simp only [Trie.nodes, Trie.leaves]; omega

/-- 42_code_table.md R150: a trie of depth d has at least 2d + 1 nodes. -/
theorem depth_nodes (t : Trie) : 2 * t.depth + 1 ≤ t.nodes := by
  induction t with
  | leaf => simp [Trie.depth, Trie.nodes]
  | node _ _ l r hl hr =>
    simp only [Trie.depth, Trie.nodes]
    have := nodes_eq l
    have := nodes_eq r
    have := leaves_pos l
    have := leaves_pos r
    omega

@[simp] theorem shape_nodes (t : Trie) : t.shape.nodes = t.nodes := by
  induction t with
  | leaf => rfl
  | node _ _ l r hl hr => simp [Trie.shape, Trie.nodes, hl, hr]

@[simp] theorem shape_symbols (t : Trie) : t.shape.symbols = t.symbols := by
  induction t with
  | leaf => rfl
  | node _ _ l r hl hr => simp [Trie.shape, Trie.symbols, hl, hr]

/-- R13: a header preserves the shape, so the shape has the same serialisation. -/
@[simp] theorem shape_ser (t : Trie) : t.shape.ser = t.ser := by
  induction t with
  | leaf => rfl
  | node _ _ l r hl hr => simp [Trie.shape, Trie.ser, hl, hr]

/-- R153: the paths depend on the shape and the leaf symbols only. -/
@[simp] theorem shape_paths (t : Trie) (p : Bits) : t.shape.paths p = t.paths p := by
  induction t generalizing p with
  | leaf => rfl
  | node _ _ l r hl hr => simp [Trie.shape, Trie.paths, hl, hr]

@[simp] theorem shape_leafAt (t : Trie) (q : Bits) : t.shape.leafAt q = t.leafAt q := by
  induction t generalizing q with
  | leaf => cases q <;> rfl
  | node _ _ l r hl hr => rcases q with _ | ⟨b, q⟩ <;> [rfl; cases b <;> simp [Trie.shape, Trie.leafAt, hl, hr]]

@[simp] theorem shape_inside (t : Trie) (q : Bits) : t.shape.inside q = t.inside q := by
  induction t generalizing q with
  | leaf => cases q <;> rfl
  | node _ _ l r hl hr => rcases q with _ | ⟨b, q⟩ <;> [rfl; cases b <;> simp [Trie.shape, Trie.inside, hl, hr]]

/-- The arena holds at most one trie at an index (R12: `tree(i)` is a function). -/
theorem TreeAt.unique {node : Vector Node 513} {i : NodeIx} {t u : Trie} {is js : List NodeIx}
    (h : TreeAt node i t is) (k : TreeAt node i u js) : t = u ∧ is = js := by
  induction h generalizing u js with
  | leaf i hi =>
    cases k with
    | leaf => exact ⟨rfl, rfl⟩
    | node _ _ _ _ _ hk => rw [hi] at hk; cases hk
  | node i l r is js hi hl hr ihl ihr =>
    cases k with
    | leaf _ hk => rw [hi] at hk; cases hk
    | node _ _ _ _ _ _ kl kr =>
      obtain ⟨rfl, rfl⟩ := ihl kl
      obtain ⟨rfl, rfl⟩ := ihr kr
      exact ⟨rfl, rfl⟩

/-- The indices met are as many as the nodes. -/
theorem TreeAt.length {node : Vector Node 513} {i : NodeIx} {t : Trie} {is : List NodeIx}
    (h : TreeAt node i t is) : is.length = t.nodes := by
  induction h with
  | leaf => rfl
  | node i l r is js hi hl hr ihl ihr => simp [Trie.nodes, ihl, ihr]; omega

/-- A trie is read off the entries it reaches only: two arenas that agree there hold the same trie. -/
theorem TreeAt.congr {node node' : Vector Node 513} {i : NodeIx} {t : Trie} {is : List NodeIx}
    (h : TreeAt node i t is) (hn : ∀ j ∈ is, node'[j] = node[j]) : TreeAt node' i t is := by
  induction h with
  | leaf i hi =>
    have e := hn i (by simp)
    rw [← e]
    exact .leaf i (by rw [e]; exact hi)
  | node i l r is js hi hl hr ihl ihr =>
    have e := hn i (by simp)
    have kl := ihl fun j hj => hn j (by simp [hj])
    have kr := ihr fun j hj => hn j (by simp [hj])
    rw [← e] at kl kr ⊢
    exact .node i l r is js (by rw [e]; exact hi) kl kr

end Sys2Proof.Machine
end

