-- ==== Sys2Proof/Tests/Slice0.lean ====
section
/-! SUPPORT. The model's own tests, each on one step or one command with the expected value taken from spec/ (rules
R143, R154, R170, R192 and the vectors V<n> of 95_test_vectors.md), and a witness for the hypotheses of every statement. -/

-- One test after another: tests that evaluate in the kernel would otherwise all wait at once, each in a thread of its own.
set_option Elab.async false

namespace Sys2Proof.Tests

open Sys2Proof.Machine

/-- A field of the next state, if there is one. -/
def after {α : Type} (o : Host.Outcome State Fault Refusal) (f : State → α) : Option α :=
  match o with
  | .next t => some (f t)
  | .fault _ => none
  | .refused _ => none

/-- The reset state with these bytes as IN. -/
def fed (bytes : List (BitVec 8)) : State := entry Config.magicDefault (bytesBits bytes)

/-- A bit sequence from 0s and 1s. -/
def bin (l : List Nat) : Bits := l.map fun n => n == 1

/-! ### WellFormed: an ill-formed term for its one check -/

/-- R100: the field 257 names no Symbol. -/
theorem test_wf_refuses_257 : (Instr.hdrLeaf 257#9).wf = false := by decide
/-- R98: the field 256 is the pseudo-symbol. -/
theorem test_wf_accepts_256 : (Instr.hdrLeaf 256#9).wf = true := by decide

/-! ### Decoding: every row, by a word written out from R90, R92, R96, R97 -/

theorem test_decode_clrfreq : decodeTableWord 32 0b00000000000000000000000000000001 = some .clrfreq := by decide
theorem test_decode_count : decodeTableWord 32 0b00000000000000000000000000000010 = some .count := by decide
theorem test_decode_build : decodeTableWord 32 0b00000000000000000000000000000011 = some .build := by decide
theorem test_decode_gencode : decodeTableWord 32 0b00000000000000000000000000000100 = some .gencode := by decide
theorem test_decode_wrmagic : decodeTableWord 32 0b00000000000000000000000000000101 = some .wrmagic := by decide
theorem test_decode_wrhdr : decodeTableWord 32 0b00000000000000000000000000000110 = some .wrhdr := by decide
theorem test_decode_rewind : decodeTableWord 32 0b00000000000000000000000000000111 = some .rewind := by decide
theorem test_decode_encode : decodeTableWord 32 0b00000000000000000000000000001000 = some .encode := by decide
theorem test_decode_flush : decodeTableWord 32 0b00000000000000000000000000001001 = some .flush := by decide
theorem test_decode_rdmagic : decodeTableWord 32 0b00000000000000000000000000001010 = some .rdmagic := by decide
theorem test_decode_rdhdr : decodeTableWord 32 0b00000000000000000000000000001011 = some .rdhdr := by decide
theorem test_decode_decode : decodeTableWord 32 0b00000000000000000000000000001100 = some .decode := by decide
theorem test_decode_compress : decodeTableWord 32 0b00000000000000000000000000001101 = some .compress := by decide
theorem test_decode_decompress : decodeTableWord 32 0b00000000000000000000000000001110 = some .decompress := by decide
/-- R96, with the default marker. -/
theorem test_decode_magicWord : decodeTableWord 32 0b11111010110011101000001000000001 = some .magicWord := by decide
theorem test_decode_hdrInternal : decodeTableWord 1 0b0 = some .hdrInternal := by decide
/-- R170: the pseudo-symbol's record is `1 100000000`. -/
theorem test_decode_hdrLeaf : decodeTableWord 10 0b1100000000 = some (.hdrLeaf 256#9) := by decide
/-- R170: the record of 0x41 is `1001000001`. -/
theorem test_decode_hdrLeaf_41 : decodeTableWord 10 0b1001000001 = some (.hdrLeaf 0x41#9) := by decide
/-- V10, V11, V12, V13: reserved words. -/
theorem test_decode_reserved : decodeCmd 0x00000000#32 = .error (.reservedOp 0#4)
    ∧ decodeCmd 0x0000000F#32 = .error (.reservedOp 15#4) ∧ decodeCmd 0x00000011#32 = .error .upperBitsSet
    ∧ decodeCmd 0x80000001#32 = .error .upperBitsSet := by decide
/-- V57, V58: symbol fields 257 and 511. -/
theorem test_decode_bad_symbol : decodeRecord (bin [1, 1, 0, 0, 0, 0, 0, 0, 0, 1]) = .error (.reservedSymbol 257#9)
    ∧ decodeRecord (bin [1, 1, 1, 1, 1, 1, 1, 1, 1, 1]) = .error (.reservedSymbol 511#9) := by decide

/-! ### Fetching -/

/-- The placed word is the next thing that runs: CLRFREQ after reset (V30). -/
theorem test_fetch_clrfreq : after (step (State.reset.withFetchWord 32 1)) statusWord = some 0x0A#32 := by
  decide +kernel
/-- V10: the placed word 0 raises E_ILLEGAL_CMD. -/
theorem test_fetch_reserved :
    after (step (State.reset.withFetchWord 32 0)) (fun t => (statusWord t, t.errcode, t.phase)) =
      some (0x04#32, 3#4, 0#4) := by decide +kernel
/-- V54 by its record: the header `1 100000000` is complete. -/
theorem test_fetch_hdrLeaf :
    after (step (State.reset.withFetchWord 10 0b1100000000)) (fun t => (statusWord t, t.nnodes, t.inp.pos)) =
      some (0x12#32, 1, 10) := by decide +kernel

/-! ### One or two per instruction -/

/-- V30. -/
theorem test_clrfreq : after (exec .clrfreq State.reset) (fun t => (t.freq[0], t.freq[255], t.freq[256])) =
    some (0#32, 0#32, 1#32) := by decide +kernel
/-- V31. -/
theorem test_count : after (exec .count (fed [0x41, 0x41, 0x42]))
    (fun t => (t.freq[0x41], t.freq[0x42], t.freq[256], t.inp.pos, statusWord t)) =
      some (2#32, 1#32, 1#32, 24, 0x0A#32) := by decide +kernel
/-- V32: the three leftover bits are dropped. -/
theorem test_count_leftover : after (exec .count
      { State.reset with inp := { bits := bin [0, 1, 0, 0, 0, 0, 0, 1, 1, 0, 1], pos := 0 } })
    (fun t => (t.freq[0x41], t.inp.pos)) = some (1#32, 11) := by decide +kernel

/-- The Frequency Table of V41. -/
def counted : State := { State.reset with freqValid := true, freq := freqOf [0x41, 0x41, 0x42] }

/-- R143 example 1: the tie at weight 2 goes to the older leaf. -/
theorem test_build : after (exec .build counted)
    (fun t => (t.root, t.nnodes, (t.node[3]).left, (t.node[3]).right, (t.node[4]).left, (t.node[4]).right,
      (t.node[4]).value, (t.node[4]).weight)) = some (4, 5, 1, 2, 0, 3, 387#16, 4#32) := by decide +kernel
/-- V45: the sum 2^32 overflows with the two leaves stored. -/
theorem test_build_overflow : after (exec .build { State.reset with
      freqValid := true, freq := (Vector.replicate 257 0#32).set 0 (BitVec.allOnes 32) |>.set 256 1#32 })
    (fun t => (statusWord t, t.errcode, t.phase, t.nnodes)) = some (0x0C#32, 9#4, 3#4, 2) := by decide +kernel

/-- The trie of V23, as BUILD leaves it (R143 example 1). -/
def builtNodes : Vector Node 513 :=
  ((((Vector.replicate 513 Node.blank).set 0
      { kind := true, value := 0x41#16, weight := 2#32, left := 0, right := 0 }).set 1
      { kind := true, value := 0x42#16, weight := 1#32, left := 0, right := 0 }).set 2
      { kind := true, value := 256#16, weight := 1#32, left := 0, right := 0 }).set 3
      { kind := false, value := 322#16, weight := 2#32, left := 1, right := 2 } |>.set 4
      { kind := false, value := 387#16, weight := 4#32, left := 0, right := 3 }

/-- The state after V23's BUILD, as far as the trie goes. -/
def built : State :=
  { State.reset with trieValid := true, trieStarted := true, root := 4, nnodes := 5, seq := 5, node := builtNodes }

/-- V23: the codes 0, 10, 11. -/
theorem test_gencode : after (exec .gencode built)
    (fun t => (codeBits t.code[0x41], codeBits t.code[0x42], codeBits t.code[256], (t.code[0x43]).valid)) =
      some (bin [0], bin [1, 0], bin [1, 1], false) := by decide +kernel
/-- V50. -/
theorem test_wrmagic : after (exec .wrmagic State.reset) (fun t => t.out) =
    some (bin [1,1,1,1,1,0,1,0, 1,1,0,0,1,1,1,0, 1,0,0,0,0,0,1,0, 0,0,0,0,0,0,0,1]) := by decide +kernel
/-- V63. -/
theorem test_wrhdr : after (exec .wrhdr built) (fun t => t.out) =
    some (bin [0, 1,0,0,1,0,0,0,0,0,1, 0, 1,0,0,1,0,0,0,0,1,0, 1,1,0,0,0,0,0,0,0,0]) := by decide +kernel
/-- V70. -/
theorem test_rewind : after (exec .rewind { fed [0x41, 0x41, 0x42] with inp :=
      { bits := bytesBits [0x41, 0x41, 0x42], pos := 24 } })
    (fun t => (t.inp.pos, t.phase)) = some (0, 7#4) := by decide +kernel

/-- The codes of V23 with V74's input. -/
def coded : State :=
  { State.reset with
    codesValid := true
    code := (((Vector.replicate 257 CodeEntry.blank).set 0x41 { valid := true, len := 1#9, val := 0#256 }).set 0x42
      { valid := true, len := 2#9, val := 2#256 }).set 256 { valid := true, len := 2#9, val := 3#256 } }

/-- V71. -/
theorem test_encode : after (exec .encode { coded with inp := { bits := bytesBits [0x41, 0x41, 0x42], pos := 0 } })
    (fun t => (t.out, t.inp.pos)) = some (bin [0, 0, 1, 0, 1, 1], 24) := by decide +kernel
/-- V74. -/
theorem test_encode_no_code :
    after (exec .encode { coded with inp := { bits := bytesBits [0x41, 0x43, 0x42], pos := 0 } })
      (fun t => (t.out, t.inp.pos, t.errcode)) = some (bin [0], 16, 8#4) := by decide +kernel
/-- V76. -/
theorem test_flush : after (exec .flush { State.reset with out := bin [1, 0, 1] }) (fun t => t.out) =
    some (bin [1, 0, 1, 0, 0, 0, 0, 0]) := by decide +kernel
/-- V51. -/
theorem test_rdmagic : after (exec .rdmagic (fed [0xFA, 0xCE, 0x82, 0x01])) (fun t => (statusWord t, t.inp.pos)) =
    some (0x02#32, 32) := by decide +kernel
/-- V52. -/
theorem test_rdmagic_short : after (exec .rdmagic (fed [0xFA, 0xCE, 0x82]))
    (fun t => (statusWord t, t.errcode, t.inp.pos)) = some (0x04#32, 1#4, 24) := by decide +kernel
/-- V33 b: the pre-order arena. -/
theorem test_rdhdr : after (exec .rdhdr (fed [0x48, 0x29, 0x0B, 0x00]))
    (fun t => (t.root, t.nnodes, (t.node[0]).left, (t.node[0]).right, t.inp.pos)) = some (0, 5, 1, 2, 32) := by
  decide +kernel
/-- V33 b: its second internal node and the last leaf. -/
theorem test_rdhdr_inner : after (exec .rdhdr (fed [0x48, 0x29, 0x0B, 0x00]))
    (fun t => ((t.node[2]).left, (t.node[2]).right, (t.node[4]).value)) = some (3, 4, 256#16) := by decide +kernel
/-- V57. -/
theorem test_rdhdr_bad_symbol : after (exec .rdhdr (fed [0xC0, 0x40]))
    (fun t => (t.errcode, t.phase, t.nnodes, t.inp.pos)) = some (5#4, 11#4, 0, 10) := by decide +kernel
/-- V78, on the arena of BUILD: the placement does not matter (R163). -/
theorem test_decode : after (exec .decode { built with inp := { bits := bin [0, 0, 1, 0, 1, 1, 0, 0], pos := 0 } })
    (fun t => (t.out, t.inp.pos)) = some (bytesBits [0x41, 0x41, 0x42], 6) := by decide +kernel
/-- R192: `0 0 1` writes 41 41, then raises E_TRUNCATED. -/
theorem test_decode_truncated :
    after (exec .decode { built with inp := { bits := bin [0, 0, 1], pos := 0 } })
      (fun t => (t.out, t.errcode)) = some (bytesBits [0x41, 0x41], 2#4) := by decide +kernel
/-- V21: COMPRESS of one byte. -/
theorem test_compress : after (exec .compress (fed [0x41])) (fun t => (t.out, statusWord t, t.phase)) =
    some (bytesBits [0xFA, 0xCE, 0x82, 0x01, 0x48, 0x38, 0x02], 0x3A#32, 9#4) := by decide +kernel
/-- V1: COMPRESS of nothing. -/
theorem test_compress_empty : after (exec .compress (fed [])) (fun t => (t.out, t.root, t.inp.pos)) =
    some (bytesBits [0xFA, 0xCE, 0x82, 0x01, 0xC0, 0x00], 0, 0) := by decide +kernel
/-- V21 back. -/
theorem test_decompress : after (exec .decompress (fed [0xFA, 0xCE, 0x82, 0x01, 0x48, 0x38, 0x02]))
    (fun t => (t.out, t.inp.pos, statusWord t)) = some (bytesBits [0x41], 55, 0x12#32) := by decide +kernel
/-- V80: a root leaf of another Symbol. -/
theorem test_decompress_bad_root : after (exec .decompress (fed [0xFA, 0xCE, 0x82, 0x01, 0x90, 0x40]))
    (fun t => (statusWord t, t.errcode, t.phase, t.nnodes, t.inp.pos)) = some (0x14#32, 7#4, 12#4, 1, 42) := by
  decide +kernel
/-- R160: the marker ends RDMAGIC well. -/
theorem test_magicWord : after (exec .magicWord { State.reset with busy := true, phase := 0xA#4 }) statusWord =
    some 0x02#32 := by decide +kernel
/-- R161: the first record of V33 b leaves node 0 waiting for its left child. -/
theorem test_hdrInternal : after (exec .hdrInternal { State.reset with busy := true, phase := 0xB#4 })
    (fun t => (t.nnodes, t.sp, (t.node[0]).kind, t.busy)) = some (1, 1, false, true) := by decide +kernel
/-- R161: its second record becomes the left child. -/
theorem test_hdrLeaf : after (exec (.hdrLeaf 0x41#9)
      { State.reset with busy := true, phase := 0xB#4, nnodes := 1, stack := [waitEntry 0] })
    (fun t => (t.nnodes, (t.node[0]).left, (t.node[1]).value, t.stack.map StackEntry.slot)) =
      some (2, 1, 0x41#16, [Slot.right]) := by decide +kernel

/-! ### The host's registers -/

/-- R44, U6: `NNODES` reads 0 straight after reset, and is unspecified once CLRFREQ or a reserved word came between. -/
theorem test_nnodes_reset : readReg 4 State.reset = some 0#32
    ∧ after (exec .clrfreq State.reset) (readReg 4) = some none
    ∧ after (step (State.reset.withFetchWord 32 0)) (readReg 4) = some none := by decide +kernel
/-- V36: entry 256 cannot be written. -/
theorem test_freq_data_eos :
    after (step { State.reset with freqValid := true, freq := emptyFreq, freqAddr := 256#9, host := [.write 6 7#32] })
      (fun t => t.freq[256]) = some 1#32 := by decide +kernel
/-- V33 b: `NODE_LINK` of node 3 of V23's arena. -/
theorem test_node_link : readReg 9 { built with nodeAddr := 3#10 } = some 0x00020001#32 := by decide +kernel
/-- V33 a: `CODE_LEN` of 0x42. -/
theorem test_code_len : readReg 12 { coded with codeAddr := 0x42#9 } = some 0x80000002#32 := by decide +kernel
/-- P4: reset clears the error and touches no stream. -/
theorem test_reset_move :
    after (step { State.reset with err := true, errcode := 2#4, out := bin [1], host := [.rst] })
      (fun t => (t.err, t.errcode, t.out)) = some (false, 0#4, bin [1]) := by decide +kernel

/-- R218, R42: a reserved word written to `CMD` in error is ignored, so the code stays. -/
theorem test_reserved_in_error :
    after (step { State.reset with err := true, errcode := 2#4, phase := 12#4, host := [.write 0 15#32] })
      (fun t => (t.err, t.errcode, t.phase)) = some (true, 2#4, 12#4) := by decide +kernel

/-! ### Witnesses: the hypotheses of each statement, met together, at boundary values of each clause -/

/-- The reset state with these bits as IN. -/
def feed (bits : Bits) : State := { State.reset with inp := { bits := bits, pos := 0 } }

/-- The idle machine with these moves of the host to come. -/
def hosted (moves : List HostMove) (s : State) : State := { s with host := moves }

/-- The trie of V23 (R143 example 1). -/
def treeBuilt : Trie := .node 387 4 (.leaf 0x41 2) (.node 322 2 (.leaf 0x42 1) (.leaf 256 1))

theorem built_treeAt : TreeAt built.node built.root treeBuilt [4, 0, 3, 1, 2] :=
  .node 4 _ _ [0] [3, 1, 2] (by decide +kernel) (.leaf 0 (by decide +kernel))
    (.node 3 _ _ [1] [2] (by decide +kernel) (.leaf 1 (by decide +kernel)) (.leaf 2 (by decide +kernel)))

theorem built_holds : Holds built treeBuilt := ⟨⟨_, built_treeAt⟩, by decide, by decide⟩

/-- The one-leaf trie of V40, as BUILD leaves it, with another Symbol on its leaf if need be. -/
def lone (sym : BitVec 16) : State :=
  { State.reset with
    trieValid := true, trieStarted := true, root := 0, nnodes := 1, seq := 1
    node := (Vector.replicate 513 Node.blank).set 0 { kind := true, value := sym, weight := 1#32, left := 0, right := 0 } }

theorem lone_treeAt : TreeAt (lone 256#16).node (lone 256#16).root (.leaf 256 1) [0] := .leaf 0 (by decide +kernel)

theorem lone_holds : Holds (lone 256#16) (.leaf 256 1) := ⟨⟨_, lone_treeAt⟩, by decide, by decide⟩

/-- The deepest trie of R140: 257 leaves, 513 nodes. -/
def comb : Nat → Trie
  | 0 => .leaf 256 0
  | n + 1 => .node 0 0 (.leaf n 0) (comb n)

theorem comb_nodes (n : Nat) : (comb n).nodes = 2 * n + 1 := by
  induction n with
  | zero => rfl
  | succ n ih => simp only [comb, Trie.nodes, ih]; omega

theorem comb_symbols (n : Nat) (h : n ≤ 256) : ∀ x ∈ (comb n).symbols, x ≤ 256 := by
  induction n with
  | zero => simp [comb, Trie.symbols]
  | succ n ih =>
    simp only [comb, Trie.symbols, List.mem_append, List.mem_singleton]
    rintro x (rfl | hx)
    · omega
    · exact ih (by omega) x hx

/-- After COMPRESS of V23's input: every table valid and standing. -/
def full : State :=
  { built with freqValid := true, freq := freqOf [0x41, 0x41, 0x42], codesValid := true, code := codeTable treeBuilt }

theorem full_statusInv (moves : List HostMove) : StatusInv (hosted moves full) where
  idle := rfl
  errCode := ⟨fun _ => rfl, fun _ => rfl⟩
  errRange := Nat.zero_le 9
  notBoth := by rintro ⟨h, _⟩; cases h
  phaseRange := Nat.zero_le 12
  inWithin := Nat.le_refl 0

theorem full_tableInv (moves : List HostMove) : TableInv (hosted moves full) where
  freqEos _ := by
    show (freqOf [0x41, 0x41, 0x42])[eosSymbol] = 1#32
    decide +kernel
  arena _ := ⟨treeBuilt, _, built_treeAt, by decide, by
    show ∀ j : NodeIx, j ∈ ([4, 0, 3, 1, 2] : List NodeIx) ↔ j.val < 5
    decide +kernel, by decide⟩
  codes _ := ⟨rfl, treeBuilt, _, built_treeAt, rfl⟩
  fresh h := by cases h
  hidden _ := ⟨rfl, rfl⟩

theorem witness_CommandDecoderExact : 15 ≤ (0xF#32).toNat ∧ 15 ≤ (0xFFFFFFFF#32).toNat ∧ (0#32).toNat = 0
    ∧ decodeCmd 0xE#32 = .ok .decompress := by decide

theorem witness_DecodeEncodeAgree : (Instr.hdrLeaf 0#9).wf = true ∧ (Instr.hdrLeaf 256#9).wf = true
    ∧ (HdrRecord.leaf 256#9).instr.wf = true ∧ HdrRecord.internal.instr.wf = true := by decide

theorem witness_RecordReaderMatchesDecoder :
    (InWithin (feed [false]) ∧ decodeRecord (ahead (feed [false])) = .ok (.internal, []))
    ∧ (InWithin (feed (true :: bitsOf 9 256)) ∧ decodeRecord (ahead (feed (true :: bitsOf 9 256))) = .ok (.leaf 256#9, []))
    ∧ (InWithin (feed (true :: bitsOf 9 257))
      ∧ decodeRecord (ahead (feed (true :: bitsOf 9 257))) = .error (.reservedSymbol 257#9))
    ∧ (InWithin (feed []) ∧ decodeRecord (ahead (feed [])) = .error .truncated)
    ∧ (InWithin (feed (true :: bitsOf 8 128))
      ∧ decodeRecord (ahead (feed (true :: bitsOf 8 128))) = .error .truncated) := by
  refine ⟨⟨Nat.zero_le _, ?_⟩, ⟨Nat.zero_le _, ?_⟩, ⟨Nat.zero_le _, ?_⟩, ⟨Nat.zero_le _, ?_⟩, Nat.zero_le _, ?_⟩ <;>
    decide

theorem witness_ResetMove : (hosted [.rst, .collect] full).busy = false
    ∧ (hosted [.rst, .collect] full).host = .rst :: [.collect] := ⟨rfl, rfl⟩

theorem witness_StepRunsCommand : (hosted [.write 0 0x0E#32] full).busy = false
    ∧ (hosted [.write 0 0x0E#32] full).host = .write 0 0x0E#32 :: [] ∧ decodeCmd 0x0E#32 = .ok .decompress :=
  ⟨rfl, rfl, by decide⟩

/-- RDHDR running with one place left in the arena, a leaf record ahead; RDMAGIC running with the marker ahead. -/
theorem witness_StepRunsRecord :
    (let s : State := { feed (true :: bitsOf 9 256) with busy := true, phase := 0xB#4, nnodes := 512 };
      s.busy = true ∧ s.phase = 0xB#4 ∧ s.nnodes.val < 513 ∧ InWithin s ∧ decodeRecord (ahead s) = .ok (.leaf 256#9, []))
    ∧ (let s : State := { feed (bitsOf 32 State.reset.magic.toNat ++ [true]) with busy := true, phase := 0xA#4 };
      s.busy = true ∧ s.phase = 0xA#4 ∧ ahead s = bitsOf 32 s.magic.toNat ++ [true]) :=
  ⟨⟨rfl, rfl, by decide, Nat.zero_le _, by decide⟩, rfl, rfl, rfl⟩

theorem witness_ReservedWordRaises : Ready (hosted [.write 0 0x0F#32] full)
    ∧ (hosted [.write 0 0x0F#32] full).host = .write 0 0x0F#32 :: [] ∧ decodeCmd 0x0F#32 = .error (.reservedOp 15#4)
    ∧ decodeCmd 0x10#32 = .error .upperBitsSet := ⟨⟨rfl, rfl⟩, rfl, by decide, by decide⟩

theorem witness_CommandIgnored : isCommand .decompress = true ∧ { State.reset with err := true }.err = true
    ∧ { State.reset with busy := true }.busy = true := by decide

theorem witness_SequenceErrorRaises : Ready State.reset ∧ precondition .build State.reset = false
    ∧ precondition .gencode State.reset = false ∧ precondition .wrhdr State.reset = false
    ∧ precondition .encode State.reset = false ∧ precondition .decode State.reset = false :=
  ⟨⟨rfl, rfl⟩, rfl, rfl, rfl, rfl, rfl⟩

theorem witness_ClrfreqResult : Ready full := ⟨rfl, rfl⟩

/-- Bytes and a partial byte; the largest count is met below. -/
theorem witness_CountResult : Ready (feed (bytesBits [0x41, 0x41] ++ bin [1, 0, 1, 0, 1, 0, 1]))
    ∧ ahead (feed (bytesBits [0x41, 0x41] ++ bin [1, 0, 1, 0, 1, 0, 1])) = bytesBits [0x41, 0x41] ++ bin [1, 0, 1, 0, 1, 0, 1]
    ∧ (bin [1, 0, 1, 0, 1, 0, 1]).length < 8 ∧ ∀ v, occurrences [0x41, 0x41] v < 2 ^ 32 :=
  ⟨⟨rfl, rfl⟩, rfl, by decide, fun _ => Nat.lt_of_le_of_lt List.countP_le_length (by decide)⟩

theorem occurrences_replicate (n v : Nat) : occurrences (List.replicate n 0#8) v = if 0 = v then n else 0 := by
  simp [occurrences, List.countP_replicate]

theorem witness_CountResult_bound (n : Nat) (hn : n = 2 ^ 32 - 1) :
    Ready (feed (bytesBits (List.replicate n 0#8) ++ []))
    ∧ ahead (feed (bytesBits (List.replicate n 0#8) ++ [])) = bytesBits (List.replicate n 0#8) ++ []
    ∧ ([] : Bits).length < 8 ∧ ∀ v, occurrences (List.replicate n 0#8) v < 2 ^ 32 := by
  refine ⟨⟨rfl, rfl⟩, rfl, by decide, fun v => ?_⟩
  rw [occurrences_replicate]
  split <;> omega

theorem witness_CountOverflowRaises (n : Nat) (hn : n = 2 ^ 32 - 1) :
    Ready (feed (bytesBits (List.replicate n 0#8 ++ [0#8]) ++ [true]))
    ∧ ahead (feed (bytesBits (List.replicate n 0#8 ++ [0#8]) ++ [true])) =
      bytesBits (List.replicate n 0#8 ++ [0#8]) ++ [true]
    ∧ (∀ v, occurrences (List.replicate n 0#8) v < 2 ^ 32)
    ∧ occurrences (List.replicate n 0#8) (0#8).toNat = 2 ^ 32 - 1 := by
  refine ⟨⟨rfl, rfl⟩, rfl, fun v => ?_, ?_⟩
  · rw [occurrences_replicate]
    split <;> omega
  · rw [occurrences_replicate]
    simpa using hn

/-- BuildResult, BuildMatchesHuff and BuildPlacement. -/
theorem witness_BuildResult : Ready counted ∧ counted.freqValid = true ∧ counted.freq[eosSymbol] = 1#32
    ∧ freqSum counted.freq < 2 ^ 32 := ⟨⟨rfl, rfl⟩, rfl, by decide +kernel, by decide +kernel⟩

theorem witness_BuildMatchesHuff : Ready counted ∧ counted.freqValid = true ∧ counted.freq[eosSymbol] = 1#32
    ∧ freqSum counted.freq < 2 ^ 32 := witness_BuildResult

/-- The first allocated leaf and the first internal node are clauses of one placement. -/
theorem witness_BuildPlacement : (Ready counted ∧ counted.freqValid = true ∧ counted.freq[eosSymbol] = 1#32
    ∧ freqSum counted.freq < 2 ^ 32) ∧ (2 : NodeIx).val < (liveSymbols counted.freq).length
    ∧ (liveSymbols counted.freq).length ≤ (3 : NodeIx).val := ⟨witness_BuildResult, by decide +kernel, by decide +kernel⟩

/-- The counts of V45, whose sum is 2^32. -/
def tooMany : State :=
  { State.reset with freqValid := true, freq := (Vector.replicate 257 0#32).set 0 (BitVec.allOnes 32) |>.set 256 1#32 }

theorem witness_BuildOverflowExact : Ready tooMany ∧ tooMany.freqValid = true ∧ tooMany.freq[eosSymbol] = 1#32
    ∧ freqSum tooMany.freq = 2 ^ 32 := ⟨⟨rfl, rfl⟩, rfl, by decide +kernel, by decide +kernel⟩

theorem witness_BuildOneLeaf : let s : State := { State.reset with freqValid := true, freq := emptyFreq }
    Ready s ∧ s.freqValid = true ∧ s.freq[eosSymbol] = 1#32 ∧ ∀ v : Symbol, v ≠ eosSymbol → s.freq[v] = 0#32 :=
  ⟨⟨rfl, rfl⟩, rfl, by decide +kernel, by
    show ∀ v : Symbol, v ≠ eosSymbol → emptyFreq[v] = 0#32
    decide +kernel⟩

/-- GencodeResult, WrhdrResult and HeaderIdempotence's first part, for a tree and for the one-leaf trie. -/
theorem witness_GencodeResult : (Ready built ∧ built.trieValid = true ∧ Holds built treeBuilt)
    ∧ (Ready (lone 256#16) ∧ (lone 256#16).trieValid = true ∧ Holds (lone 256#16) (.leaf 256 1)) :=
  ⟨⟨⟨rfl, rfl⟩, rfl, built_holds⟩, ⟨rfl, rfl⟩, rfl, lone_holds⟩

/-- Two Symbols with codes in V23's table. -/
theorem witness_CodesPrefixFree : (Ready built ∧ built.trieValid = true ∧ Holds built treeBuilt)
    ∧ (0x41 : Symbol) ≠ 256 ∧ ((codeTable treeBuilt)[0x41]).valid = true ∧ ((codeTable treeBuilt)[256]).valid = true :=
  ⟨witness_GencodeResult.1, by decide, by decide +kernel, by decide +kernel⟩

theorem witness_GencodeCoverage : (Ready built ∧ built.trieValid = true ∧ Holds built treeBuilt)
    ∧ ((codeTable treeBuilt)[256]).valid = true ∧ ((codeTable treeBuilt)[0]).valid = false :=
  ⟨witness_GencodeResult.1, by decide +kernel, by decide +kernel⟩

theorem witness_HeaderIdempotence : (Ready built ∧ built.trieValid = true ∧ Holds built treeBuilt)
    ∧ Ready (feed (treeBuilt.ser ++ [true])) ∧ ahead (feed (treeBuilt.ser ++ [true])) = treeBuilt.ser ++ [true] :=
  ⟨witness_GencodeResult.1, ⟨rfl, rfl⟩, rfl⟩

theorem witness_WrmagicResult : Ready full := ⟨rfl, rfl⟩

theorem witness_WrhdrResult : (Ready built ∧ built.trieValid = true ∧ Holds built treeBuilt)
    ∧ (Ready (lone 256#16) ∧ (lone 256#16).trieValid = true ∧ Holds (lone 256#16) (.leaf 256 1)) := witness_GencodeResult

/-- The marker with nothing after it; 31 of its bits; 32 other bits. -/
theorem witness_RdmagicResult :
    (Ready (feed (bitsOf 32 State.reset.magic.toNat ++ []))
      ∧ ahead (feed (bitsOf 32 State.reset.magic.toNat ++ [])) = bitsOf 32 State.reset.magic.toNat ++ [])
    ∧ (Ready (feed ((bitsOf 32 0xFACE8201).take 31))
      ∧ ¬ ∃ rest, ahead (feed ((bitsOf 32 0xFACE8201).take 31)) = bitsOf 32 State.reset.magic.toNat ++ rest)
    ∧ (Ready (feed (bitsOf 32 0)) ∧ ¬ ∃ rest, ahead (feed (bitsOf 32 0)) = bitsOf 32 State.reset.magic.toNat ++ rest) := by
  refine ⟨⟨⟨rfl, rfl⟩, rfl⟩, ⟨⟨rfl, rfl⟩, ?_⟩, ⟨rfl, rfl⟩, ?_⟩
  · rintro ⟨rest, h⟩
    have := congrArg List.length h
    simp [ahead, feed, bitsOf] at this
  · rintro ⟨rest, h⟩
    have hm : bitsOf 32 State.reset.magic.toNat = true :: (bitsOf 32 State.reset.magic.toNat).tail := by decide
    rw [hm] at h
    have := congrArg List.head? h
    simp [ahead, feed, bitsOf] at this

/-- The largest trie, of 513 nodes. -/
theorem witness_RdhdrReadsTrie : Ready (feed ((comb 256).ser ++ [false])) ∧ (comb 256).nodes = 513
    ∧ (∀ x ∈ (comb 256).symbols, x ≤ 256) ∧ ahead (feed ((comb 256).ser ++ [false])) = (comb 256).ser ++ [false] :=
  ⟨⟨rfl, rfl⟩, comb_nodes 256, comb_symbols 256 (Nat.le_refl _), rfl⟩

theorem witness_RdhdrInvertsSer : Ready (feed (Trie.leaf 256 0).ser)
    ∧ ∃ u, exec .rdhdr (feed (Trie.leaf 256 0).ser) = .next u ∧ u.err = false := ⟨⟨rfl, rfl⟩, _, rfl, rfl⟩

theorem awaited_internal (n k : Nat) : awaited (k + 1) (List.replicate n .internal) = k + 1 + n := by
  induction n generalizing k with
  | zero => rfl
  | succ n ih => simp only [List.replicate_succ, awaited]; rw [ih (k + 1)]; omega

theorem internal_wf (n : Nat) : ∀ r ∈ List.replicate n HdrRecord.internal, r.instr.wf = true := by
  intro r hr
  rw [List.eq_of_mem_replicate hr]
  rfl

/-- 513 internal nodes, the header of R165's bound. -/
theorem witness_HeaderOverflowRaises :
    let rs := List.replicate 513 HdrRecord.internal
    Ready (feed (rs.flatMap encodeRecord ++ [true])) ∧ (∀ r ∈ rs, r.instr.wf = true) ∧ 0 < awaited 1 rs ∧ rs.length = 513
      ∧ ahead (feed (rs.flatMap encodeRecord ++ [true])) = rs.flatMap encodeRecord ++ [true] :=
  ⟨⟨rfl, rfl⟩, internal_wf 513, by rw [awaited_internal]; omega, List.length_replicate, rfl⟩

/-- IN ending before a node bit, with no record and with 512; and with eight of nine symbol bits. -/
theorem witness_HeaderTruncatedRaises :
    (Ready (feed ([] ++ [])) ∧ InWithin (feed ([] ++ [])) ∧ 0 < awaited 1 [] ∧ ahead (feed ([] ++ [])) = [] ++ [])
    ∧ (let rs := List.replicate 512 HdrRecord.internal;
      let tail := true :: bitsOf 8 0;
      Ready (feed (rs.flatMap encodeRecord ++ tail)) ∧ InWithin (feed (rs.flatMap encodeRecord ++ tail))
        ∧ (∀ r ∈ rs, r.instr.wf = true) ∧ 0 < awaited 1 rs ∧ rs.length < 513
        ∧ ahead (feed (rs.flatMap encodeRecord ++ tail)) = rs.flatMap encodeRecord ++ tail
        ∧ ∃ q, tail = true :: q ∧ q.length < 9) :=
  ⟨⟨⟨rfl, rfl⟩, Nat.zero_le _, by decide, rfl⟩, ⟨rfl, rfl⟩, Nat.zero_le _, internal_wf 512,
    by rw [awaited_internal]; omega, by rw [List.length_replicate]; omega, rfl, _, rfl, by decide⟩

theorem witness_HeaderBadSymbolRaises :
    (let s := feed (([] : List HdrRecord).flatMap encodeRecord ++ true :: (bitsOf 9 257 ++ []));
      Ready s ∧ 0 < awaited 1 [] ∧ ahead s = ([] : List HdrRecord).flatMap encodeRecord ++ true :: (bitsOf 9 257 ++ []))
    ∧ (let s := feed ([HdrRecord.internal, .leaf 256#9].flatMap encodeRecord ++ true :: (bitsOf 9 511 ++ [true]));
      Ready s ∧ (∀ r ∈ [HdrRecord.internal, .leaf 256#9], r.instr.wf = true)
        ∧ 0 < awaited 1 [HdrRecord.internal, .leaf 256#9]
        ∧ ahead s = [HdrRecord.internal, .leaf 256#9].flatMap encodeRecord ++ true :: (bitsOf 9 511 ++ [true])) :=
  ⟨⟨⟨rfl, rfl⟩, by decide, rfl⟩, ⟨rfl, rfl⟩, by decide, by decide, rfl⟩

/-- The last place of the arena; the waiting node wants its left child, its right one, and none waits. -/
theorem witness_HdrLeafResult : (256#9).toNat ≤ 256
    ∧ (let s : State := { State.reset with nnodes := 512 };
      s.nnodes.val < 513 ∧ s.stack = [])
    ∧ (let s : State := { State.reset with nnodes := 1, stack := [waitEntry 0] };
      s.nnodes.val < 513 ∧ s.stack = waitEntry 0 :: [] ∧ (waitEntry 0).slot = .left)
    ∧ (let s : State := { State.reset with nnodes := 2, stack := [{ waitEntry 0 with slot := .right }] };
      s.nnodes.val < 513 ∧ s.stack = { waitEntry 0 with slot := .right } :: [])
    ∧ (let s : State := { State.reset with nnodes := 3, stack := [{ waitEntry 1 with slot := .right }, waitEntry 0] };
      s.nnodes.val < 513 ∧ s.stack = { waitEntry 1 with slot := .right } :: [waitEntry 0]) := by
  decide

theorem witness_HdrInternalResult :
    (let s : State := { State.reset with nnodes := 512, stack := List.replicate 512 (waitEntry 0) };
      s.nnodes.val < 513 ∧ s.stack.length < 513)
    ∧ (let s : State := { State.reset with nnodes := 1, stack := [{ waitEntry 0 with slot := .right }] };
      s.nnodes.val < 513 ∧ s.stack.length < 513)
    ∧ (State.reset.nnodes.val < 513 ∧ State.reset.stack.length < 513) :=
  ⟨⟨by decide, by rw [List.length_replicate]; omega⟩, by decide, by decide⟩

theorem witness_ReadersAreRecordSteps : Ready (feed (Trie.leaf 256 0).ser) := ⟨rfl, rfl⟩

theorem witness_RewindResult : Ready { State.reset with inp := { bits := [true], pos := 1 } } := ⟨rfl, rfl⟩

theorem witness_FlushResult : Ready { State.reset with out := [true] }
    ∧ ({ State.reset with out := List.replicate 8 true } : State).out.length % 8 = 0 := ⟨⟨rfl, rfl⟩, rfl⟩

/-- The codes of V23 with these bits as IN. -/
def codedFeed (bits : Bits) : State := { coded with inp := { bits := bits, pos := 0 } }

theorem witness_EncodeResult : Ready (codedFeed (bytesBits [0x41, 0x42] ++ [true]))
    ∧ (codedFeed (bytesBits [0x41, 0x42] ++ [true])).codesValid = true
    ∧ ahead (codedFeed (bytesBits [0x41, 0x42] ++ [true])) = bytesBits [0x41, 0x42] ++ [true]
    ∧ ([true] : Bits).length < 8
    ∧ (∀ b ∈ [(0x41#8), 0x42#8], (coded.code[byteSymbol b]).valid = true) ∧ (coded.code[eosSymbol]).valid = true :=
  ⟨⟨rfl, rfl⟩, rfl, rfl, by decide, by decide +kernel, by decide +kernel⟩

/-- A byte without a code behind one with; and a table without the pseudo-symbol's code, at the terminator. -/
theorem witness_EncodeNoCodeRaises :
    (let s := codedFeed (bytesBits [0x41] ++ (bitsOf 8 (0x43#8).toNat ++ []));
      Ready s ∧ s.codesValid = true ∧ (∀ b ∈ [0x41#8], (s.code[byteSymbol b]).valid = true)
        ∧ ahead s = bytesBits [0x41] ++ (bitsOf 8 (0x43#8).toNat ++ []) ∧ (s.code[byteSymbol 0x43#8]).valid = false)
    ∧ (let s := { codedFeed (bytesBits [0x41] ++ []) with code := coded.code.set 256 CodeEntry.blank };
      Ready s ∧ s.codesValid = true ∧ (∀ b ∈ [0x41#8], (s.code[byteSymbol b]).valid = true)
        ∧ ahead s = bytesBits [0x41] ++ [] ∧ ([] : Bits).length < 8 ∧ (s.code[eosSymbol]).valid = false) :=
  ⟨⟨⟨rfl, rfl⟩, rfl, by decide +kernel, rfl, by decide +kernel⟩,
    ⟨rfl, rfl⟩, rfl, by decide +kernel, rfl, by decide, by decide +kernel⟩

/-- The payload of V23 as paths. -/
def paths23 : List (Bits × Nat) := [([false], 0x41), ([false], 0x41), ([true, false], 0x42)]

theorem paths23_literal : LiteralPaths treeBuilt paths23 := by
  simp [LiteralPaths, paths23, treeBuilt, Trie.leafAt]

/-- V23's arena with these bits as IN. -/
def builtFeed (bits : Bits) : State := { built with inp := { bits := bits, pos := 0 } }

theorem witness_DecodeResult : Ready (builtFeed (pathBits paths23 ++ ([true, true] ++ [false, false])))
    ∧ (builtFeed (pathBits paths23 ++ ([true, true] ++ [false, false]))).trieValid = true
    ∧ Holds (builtFeed (pathBits paths23 ++ ([true, true] ++ [false, false]))) treeBuilt
    ∧ LiteralPaths treeBuilt paths23 ∧ treeBuilt.leafAt [true, true] = some 256
    ∧ ahead (builtFeed (pathBits paths23 ++ ([true, true] ++ [false, false]))) =
      pathBits paths23 ++ ([true, true] ++ [false, false]) :=
  ⟨⟨rfl, rfl⟩, rfl, built_holds, paths23_literal, rfl, rfl⟩

theorem witness_DecodeOneLeaf :
    (Ready (lone 256#16) ∧ (lone 256#16).trieValid = true ∧ ((lone 256#16).node[(lone 256#16).root]).kind = true
      ∧ ((lone 256#16).node[(lone 256#16).root]).value = 256#16)
    ∧ (Ready (lone 255#16) ∧ (lone 255#16).trieValid = true ∧ ((lone 255#16).node[(lone 255#16).root]).kind = true
      ∧ ((lone 255#16).node[(lone 255#16).root]).value ≠ 256#16) :=
  ⟨⟨⟨rfl, rfl⟩, rfl, by decide +kernel, by decide +kernel⟩, ⟨rfl, rfl⟩, rfl, by decide +kernel, by decide +kernel⟩

/-- IN ending between codes and inside one. -/
theorem witness_DecodeTruncatedRaises :
    (Ready (builtFeed (pathBits paths23 ++ [])) ∧ InWithin (builtFeed (pathBits paths23 ++ []))
      ∧ (builtFeed (pathBits paths23 ++ [])).trieValid = true ∧ Holds (builtFeed (pathBits paths23 ++ [])) treeBuilt
      ∧ LiteralPaths treeBuilt paths23 ∧ treeBuilt.inside [] = true
      ∧ ahead (builtFeed (pathBits paths23 ++ [])) = pathBits paths23 ++ [])
    ∧ treeBuilt.inside [true] = true
    ∧ ahead (builtFeed (pathBits paths23 ++ [true])) = pathBits paths23 ++ [true] :=
  ⟨⟨⟨rfl, rfl⟩, Nat.zero_le _, rfl, built_holds, paths23_literal, rfl, rfl⟩, rfl, rfl⟩

theorem witness_CompressResult : Ready (fed []) ∧ (fed []).inp = { bits := bytesBits [], pos := 0 }
    ∧ ([] : List (BitVec 8)).length ≤ 2 ^ 32 - 2 ∧ OutAligned (fed []) := ⟨⟨rfl, rfl⟩, rfl, by decide, rfl⟩

/-- The longest input that compresses. -/
theorem witness_CompressResult_bound (n : Nat) (hn : n = 2 ^ 32 - 2) : Ready (fed (List.replicate n 0#8))
    ∧ (fed (List.replicate n 0#8)).inp = { bits := bytesBits (List.replicate n 0#8), pos := 0 }
    ∧ (List.replicate n 0#8).length ≤ 2 ^ 32 - 2 := ⟨⟨rfl, rfl⟩, rfl, by rw [List.length_replicate]; omega⟩

theorem bytesBits_replicate (n : Nat) : (bytesBits (List.replicate n 0#8)).length = 8 * n := by
  induction n with
  | zero => rfl
  | succ n ih =>
    rw [List.replicate_succ]
    show (bitsOf 8 0 ++ bytesBits (List.replicate n 0#8)).length = _
    rw [List.length_append, ih]
    simp [bitsOf]
    omega

/-- A shorter input, and the shortest that overflows. -/
theorem witness_CompressRaises (n : Nat) (hn : n = 2 ^ 32 - 1) :
    (Ready (fed [0x41]) ∧ (fed [0x41]).inp.pos = 0)
    ∧ Ready (fed (List.replicate n 0#8)) ∧ (fed (List.replicate n 0#8)).inp.pos = 0
    ∧ 2 ^ 32 - 1 ≤ (fed (List.replicate n 0#8)).inp.bits.length / 8 := by
  refine ⟨⟨⟨rfl, rfl⟩, rfl⟩, ⟨rfl, rfl⟩, rfl, ?_⟩
  show _ ≤ (bytesBits (List.replicate n 0#8)).length / 8
  rw [bytesBits_replicate]
  omega

/-- A V23 stream, and one with the largest header and no literal. -/
theorem witness_DecompressResult :
    (let s := feed (bitsOf 32 State.reset.magic.toNat ++ (treeBuilt.ser ++ (pathBits paths23 ++ ([true, true] ++ [false]))));
      Ready s ∧ treeBuilt.nodes ≤ 513 ∧ (∀ x ∈ treeBuilt.symbols, x ≤ 256) ∧ LiteralPaths treeBuilt paths23
        ∧ treeBuilt.leafAt [true, true] = some 256
        ∧ ahead s = bitsOf 32 s.magic.toNat ++ (treeBuilt.ser ++ (pathBits paths23 ++ ([true, true] ++ [false]))))
    ∧ (let s := feed (bitsOf 32 State.reset.magic.toNat ++ ((Trie.leaf 256 0).ser ++ (pathBits [] ++ ([] ++ []))));
      Ready s ∧ (Trie.leaf 256 0).nodes ≤ 513 ∧ LiteralPaths (.leaf 256 0) [] ∧ (Trie.leaf 256 0).leafAt [] = some 256
        ∧ ahead s = bitsOf 32 s.magic.toNat ++ ((Trie.leaf 256 0).ser ++ (pathBits [] ++ ([] ++ [])))) :=
  ⟨⟨⟨rfl, rfl⟩, by decide, by decide, paths23_literal, rfl, rfl⟩,
    ⟨rfl, rfl⟩, by decide, (by intro e he; cases he), rfl, rfl⟩

theorem witness_EmptyInput : (Ready (fed []) ∧ (fed []).inp = { bits := [], pos := 0 } ∧ (fed []).out = [])
    ∧ Ready (feed (bitsOf 32 0xFACE8201 ++ (true :: bitsOf 9 256 ++ bitsOf 6 0)))
    ∧ (feed (bitsOf 32 0xFACE8201 ++ (true :: bitsOf 9 256 ++ bitsOf 6 0))).magic = (fed []).magic :=
  ⟨⟨⟨rfl, rfl⟩, rfl, rfl⟩, ⟨rfl, rfl⟩, rfl⟩

theorem witness_RoundTrip (n : Nat) (hn : n = 2 ^ 32 - 2) : (List.replicate n 0#8).length ≤ 2 ^ 32 - 2
    ∧ 2 ^ 32 - 2 < (List.replicate (n + 1) 0#8).length := by
  simp only [List.length_replicate]
  omega

theorem witness_MalformedMarkerRejected : Ready (feed (bitsOf 32 0))
    ∧ ¬ ∃ rest, ahead (feed (bitsOf 32 0)) = bitsOf 32 State.reset.magic.toNat ++ rest := witness_RdmagicResult.2.2

/-- A payload cut inside a code; a header cut at once and inside a symbol field. -/
theorem witness_TruncatedStreamRejected :
    (let s := feed (bitsOf 32 State.reset.magic.toNat ++ (treeBuilt.ser ++ (pathBits paths23 ++ [true])));
      Ready s ∧ treeBuilt.nodes ≤ 513 ∧ (∀ x ∈ treeBuilt.symbols, x ≤ 256) ∧ LiteralPaths treeBuilt paths23
        ∧ treeBuilt.inside [true] = true
        ∧ ahead s = bitsOf 32 s.magic.toNat ++ (treeBuilt.ser ++ (pathBits paths23 ++ [true])))
    ∧ (let s := feed (bitsOf 32 State.reset.magic.toNat ++ (([] : List HdrRecord).flatMap encodeRecord ++ []));
      Ready s ∧ 0 < awaited 1 []
        ∧ ahead s = bitsOf 32 s.magic.toNat ++ (([] : List HdrRecord).flatMap encodeRecord ++ []))
    ∧ (let rs := List.replicate 512 HdrRecord.internal;
      let s := feed (bitsOf 32 State.reset.magic.toNat ++ (rs.flatMap encodeRecord ++ true :: bitsOf 8 0));
      Ready s ∧ (∀ r ∈ rs, r.instr.wf = true) ∧ 0 < awaited 1 rs ∧ rs.length < 513
        ∧ ahead s = bitsOf 32 s.magic.toNat ++ (rs.flatMap encodeRecord ++ true :: bitsOf 8 0)
        ∧ (bitsOf 8 0).length < 9) :=
  ⟨⟨⟨rfl, rfl⟩, by decide, by decide, paths23_literal, rfl, rfl⟩, ⟨⟨rfl, rfl⟩, by decide, rfl⟩,
    ⟨rfl, rfl⟩, internal_wf 512, by rw [awaited_internal]; omega, by rw [List.length_replicate]; omega, rfl, by decide⟩

theorem witness_CompositeIsMembers : full.busy = false ∧ { full with err := true }.busy = false := ⟨rfl, rfl⟩

/-- A valid trie; the state at reset; no valid trie with each reason for an unspecified word; the first number past the
file. -/
theorem witness_RegisterReads : (full.busy = false ∧ full.trieValid = true)
    ∧ (State.reset.busy = false ∧ State.reset.phase = 0#4 ∧ State.reset.err = false ∧ State.reset.trieStarted = false)
    ∧ (let s : State := { State.reset with phase := 1#4 };
      s.busy = false ∧ s.trieValid = false ∧ s.phase ≠ 0#4)
    ∧ (let s : State := { State.reset with err := true };
      s.busy = false ∧ s.trieValid = false ∧ s.err = true)
    ∧ (let s : State := { full with trieValid := false };
      s.busy = false ∧ s.trieValid = false ∧ s.trieStarted = true)
    ∧ 23 ≤ 23 ∧ (hosted [.read 23] full).host = .read 23 :: [] :=
  ⟨⟨rfl, rfl⟩, ⟨rfl, rfl, rfl, rfl⟩, ⟨rfl, rfl, by decide⟩, ⟨rfl, rfl, rfl⟩, ⟨rfl, rfl, rfl⟩, Nat.le_refl _, rfl⟩

/-- Each window at the last entry it shows and at the first index past it. -/
theorem witness_TableWindows :
    (let s := { full with freqAddr := 256#9, nodeAddr := 4#10, codeAddr := 256#9 };
      s.busy = false ∧ s.freqValid = true ∧ s.freqAddr.toNat = eosSymbol.val ∧ s.trieValid = true
        ∧ s.nodeAddr.toNat = (4 : NodeIx).val ∧ (4 : NodeIx).val < s.nnodes.val ∧ s.codesValid = true
        ∧ s.codeAddr.toNat = eosSymbol.val)
    ∧ (let s := { full with freqAddr := 257#9, nodeAddr := 5#10, codeAddr := 257#9 };
      s.busy = false ∧ 256 < s.freqAddr.toNat ∧ s.nnodes.val ≤ s.nodeAddr.toNat ∧ 256 < s.codeAddr.toNat)
    ∧ State.reset.freqValid = false ∧ State.reset.trieValid = false ∧ State.reset.codesValid = false :=
  ⟨⟨rfl, rfl, rfl, rfl, rfl, by decide, rfl, rfl⟩, ⟨rfl, by decide, by decide, by decide⟩, rfl, rfl, rfl⟩

theorem witness_RegisterWrites : (hosted [.write 6 7#32] { full with freqAddr := 255#9 }).busy = false
    ∧ (hosted [.write 6 7#32] { full with freqAddr := 255#9 }).host = .write 6 7#32 :: []
    ∧ ((255#9).toNat = (255 : Symbol).val ∧ (255 : Symbol) ≠ eosSymbol ∧ full.err = false ∧ full.freqValid = true)
    ∧ 256 ≤ (256#9).toNat ∧ { full with err := true }.err = true ∧ State.reset.freqValid = false
    ∧ (hosted [.write 21 7#32] full).host = .write 21 7#32 :: [] :=
  ⟨rfl, rfl, ⟨by decide, by decide, rfl, rfl⟩, by decide, rfl, rfl, rfl⟩

/-- The last position within the stream, and the first outside it. -/
theorem witness_StreamMoves :
    (hosted [.attachIn [true] 1] full).busy = false ∧ (hosted [.attachIn [true] 1] full).host = .attachIn [true] 1 :: []
    ∧ 1 ≤ ([true] : Bits).length ∧ ([true] : Bits).length < 2
    ∧ (hosted [.attachOut [true]] full).host = .attachOut [true] :: [] ∧ (hosted [.collect] full).host = .collect :: [] :=
  ⟨rfl, rfl, by decide, by decide, rfl, rfl⟩

theorem witness_StatusInvKept : StatusInv (hosted [.write 0 9#32] full)
    ∧ ∃ t, step (hosted [.write 0 9#32] full) = .next t := ⟨full_statusInv _, _, rfl⟩

theorem witness_TableInvKept : StatusInv (hosted [.write 0 9#32] full) ∧ TableInv (hosted [.write 0 9#32] full)
    ∧ ∃ t, step (hosted [.write 0 9#32] full) = .next t := ⟨full_statusInv _, full_tableInv _, _, rfl⟩

theorem witness_StepsAlwaysComplete :
    (StatusInv (hosted [.write 0 0xE#32] full) ∧ TableInv (hosted [.write 0 0xE#32] full))
    ∧ StatusInv (hosted [.attachIn [] 1] full) ∧ TableInv (hosted [.attachIn [] 1] full) :=
  ⟨⟨full_statusInv _, full_tableInv _⟩, full_statusInv _, full_tableInv _⟩

/-- In error: a command and a reserved word written to `CMD`, a write to `FREQ_DATA` that would else succeed, a read, a
reset, and for the last clause a next state by each move that it lets change something and by one that changes nothing. -/
theorem witness_ErrorIsSticky :
    let s := { full with err := true, errcode := 2#4, freqAddr := 255#9 };
    s.busy = false ∧ s.err = true ∧ (hosted [.write 0 1#32] s).host = .write 0 1#32 :: []
      ∧ (hosted [.write 0 15#32] s).host = .write 0 15#32 :: [] ∧ (hosted [.write 6 7#32] s).host = .write 6 7#32 :: []
      ∧ (hosted [.read 2] s).host = .read 2 :: [] ∧ (hosted [.rst] s).host = .rst :: []
      ∧ ∀ m ∈ [HostMove.attachIn [true] 1, .attachOut [true], .write 5 7#32, .write 7 7#32, .write 11 7#32, .read 2,
          .collect, .write 0 1#32],
        m ≠ .rst ∧ ∃ t, step (hosted [m] s) = .next t := by
  refine ⟨rfl, rfl, rfl, rfl, rfl, rfl, rfl, ?_⟩
  simp only [List.forall_mem_cons]
  refine ⟨?_, ?_, ?_, ?_, ?_, ?_, ?_, ?_, List.forall_mem_nil _⟩ <;> exact ⟨by decide, _, rfl⟩

/-- One instruction outside most lists, and the ones that may raise. -/
theorem witness_InstructionFrame : (∃ t, exec .flush full = .next t) ∧ (∃ t, exec .rewind State.reset = .next t)
    ∧ ∃ t, exec .magicWord full = .next t := ⟨⟨_, rfl⟩, ⟨_, rfl⟩, _, rfl⟩

end Sys2Proof.Tests
end

namespace Sys2Proof.Machine

/-! ### Commands as runs -/

/-- The run `exec` wraps for a command (30_encoding.md R92, R94); a stream item has none and stands for an empty one. -/
def commandRun : Instr → State → Run
  | .clrfreq => runClrfreq
  | .count => runCount
  | .build => runBuild
  | .gencode => runGencode
  | .wrmagic => runWrmagic
  | .wrhdr => runWrhdr
  | .rewind => runRewind
  | .encode => runEncode
  | .flush => runFlush
  | .rdmagic => runRdmagic
  | .rdhdr => runRdhdr
  | .decode => runDecode
  | .compress => runCompress
  | .decompress => runDecompress
  | .magicWord | .hdrInternal | .hdrLeaf _ => .ok

/-- Every command is its run in the envelope of R94. -/
theorem exec_command {i : Instr} (h : isCommand i = true) (s : State) : exec i s = issue (commandRun i) s := by
  cases i with
  | magicWord | hdrInternal | hdrLeaf _ => simp [isCommand, opcodeOf] at h
  | _ => rfl

/-- A word at `CMD` decodes to commands only, never to a stream item (R92). -/
theorem isCommand_of_decodeCmd {w : Word} {i : Instr} (h : decodeCmd w = .ok i) : isCommand i = true := by
  unfold decodeCmd instrOfOp at h
  split at h
  · split at h <;> cases h <;> rfl
  · cases h

/-- A write to `CMD` is a command in its envelope, or a rejected word. -/
theorem writeCmd_cases (w : Word) (s : State) :
    (∃ i, isCommand i = true ∧ writeCmd w s = issue (commandRun i) s) ∨ writeCmd w s = .next (rejectWord s) := by
  unfold writeCmd
  split
  next i h =>
    have hi := isCommand_of_decodeCmd h
    exact .inl ⟨i, hi, exec_command hi s⟩
  next => exact .inr rfl

theorem step_idle {s : State} (h : s.busy = false) : step s = hostTurn s := by simp [step, h]

/-! ### The status of a machine in the middle of a command -/

/-- What holds from the acceptance of a command until it ends or raises: no error yet, `PHASE` a primitive's opcode
or 0, and the read position within IN. -/
def MidCommand (s : State) : Prop := s.err = false ∧ s.errcode = 0#4 ∧ s.phase.toNat ≤ 12 ∧ InWithin s

theorem midCommand_accept {s : State} (h : StatusInv s) (he : s.err = false) : MidCommand (accept s) :=
  ⟨he, h.errCode.mp he, h.phaseRange, h.inWithin⟩

theorem MidCommand.setPhase {i : Instr} {s : State} (h : MidCommand s) (hi : (opcodeOf i).toNat ≤ 12) :
    MidCommand (setPhase i s) := by
  obtain ⟨herr, hcode, _, hin⟩ := h
  exact ⟨herr, hcode, hi, hin⟩

theorem statusInv_finish {s : State} (h : MidCommand s) : StatusInv (finish s) := by
  obtain ⟨herr, hcode, hphase, hin⟩ := h
  exact ⟨rfl, by simp [herr, hcode], by simp [hcode], by simp [herr], hphase, hin⟩

/-- The codes of R216 are 1 to 9. -/
theorem errCode_range (e : Err) : 1 ≤ e.code.toNat ∧ e.code.toNat ≤ 9 := by cases e <;> decide

/-- A raise needs no more of the state than `PHASE` and the read position. -/
theorem statusInv_raiseErr {e : Err} {s : State} (hp : s.phase.toNat ≤ 12) (hin : InWithin s) :
    StatusInv (raiseErr e s) := by
  have hc : e.code ≠ 0#4 := by
    intro h
    have := (errCode_range e).1
    simp [h] at this
  exact ⟨rfl, by simp [hc], (errCode_range e).2, by simp, hp, hin⟩

/-- A command whose run keeps the status of the machine keeps the status invariant. -/
theorem statusInv_issue {run : State → Run} {s t : State} (hs : StatusInv s)
    (hrun : ∀ u, MidCommand u → (run u).Ends MidCommand) (h : issue run s = .next t) : StatusInv t := by
  rcases issue_next h with ⟨_, rfl⟩ | ⟨⟨_, he⟩, hend⟩
  · exact hs
  · have hm := hrun _ (midCommand_accept hs he)
    rcases hend with ⟨u, hu, rfl⟩ | ⟨e, u, hu, rfl⟩ <;> rw [hu] at hm
    · exact statusInv_finish hm
    · obtain ⟨_, _, hphase, hin⟩ := hm
      exact statusInv_raiseErr hphase hin

/-! ### Reading keeps the position within IN -/

/-- A read of IN leaves the position within it, wherever it stood (20_memory.md R64, R65). -/
theorem inRead_within (n : Nat) (s : State) : InWithin (inRead n s).2 := by
  unfold inRead InWithin
  split
  · assumption
  · exact le_refl _

theorem inRead_midCommand {n : Nat} {s t : State} {x : Option (BitVec n)} (h : MidCommand s)
    (hr : inRead n s = (x, t)) : MidCommand t := by
  obtain ⟨herr, hcode, hphase, _⟩ := h
  obtain ⟨p, hp⟩ := inRead_frame n s
  have hin := inRead_within n s
  rw [hr] at hp hin
  dsimp only at hp
  subst hp
  exact ⟨herr, hcode, hphase, hin⟩

theorem readRecord_midCommand {s t : State} {x : Except Err HdrRecord} (h : MidCommand s)
    (hr : readRecord s = (x, t)) : MidCommand t := by
  unfold readRecord at hr
  split at hr
  next u hu => cases hr; exact inRead_midCommand h hu
  next b u hu =>
    have hm := inRead_midCommand h hu
    split at hr
    · split at hr
      next v hv => cases hr; exact inRead_midCommand hm hv
      next f v hv => split at hr <;> cases hr <;> exact inRead_midCommand hm hv
    · cases hr; exact hm

/-! ### Every run keeps the status -/

theorem primitive_midCommand {i : Instr} {body : State → Run} {s : State} (hs : MidCommand s)
    (hi : (opcodeOf i).toNat ≤ 12) (hbody : ∀ t, MidCommand t → (body t).Ends MidCommand) :
    (primitive i body s).Ends MidCommand := by
  unfold primitive
  split
  · exact hbody _ (hs.setPhase hi)
  · exact hs.setPhase hi

theorem countLoop_midCommand (fuel : Nat) {s : State} (h : MidCommand s) : (countLoop fuel s).Ends MidCommand := by
  induction fuel generalizing s with
  | zero => trivial
  | succ fuel ih =>
    unfold countLoop
    split
    next t ht => exact inRead_midCommand h ht
    next x t ht =>
      have hm := inRead_midCommand h ht
      split
      · exact hm
      · exact ih hm

theorem emitCode_midCommand (sym : Symbol) {s : State} (h : MidCommand s) : (emitCode sym s).Ends MidCommand :=
  ends_mono (emitCode_frame sym s) fun _ ⟨_, e⟩ => e ▸ h

theorem encodeLoop_midCommand (fuel : Nat) {s : State} (h : MidCommand s) : (encodeLoop fuel s).Ends MidCommand := by
  induction fuel generalizing s with
  | zero => trivial
  | succ fuel ih =>
    unfold encodeLoop
    split
    next t ht => exact emitCode_midCommand _ (inRead_midCommand h ht)
    next x t ht => exact ends_bind (emitCode_midCommand _ (inRead_midCommand h ht)) fun u hu => ih hu

theorem decodeLoop_midCommand (fuel : Nat) {s : State} (h : MidCommand s) : (decodeLoop fuel s).Ends MidCommand := by
  induction fuel generalizing s with
  | zero => trivial
  | succ fuel ih =>
    unfold decodeLoop
    split
    next t ht => exact inRead_midCommand h ht
    next b t ht =>
      have hm := inRead_midCommand h ht
      dsimp only
      split
      · split
        · exact hm
        · exact ih hm
      · exact ih hm

theorem rdhdrLoop_midCommand (fuel : Nat) {s : State} (h : MidCommand s) : (rdhdrLoop fuel s).Ends MidCommand := by
  induction fuel generalizing s with
  | zero => trivial
  | succ fuel ih =>
    unfold rdhdrLoop
    split
    · exact h
    · split
      next e t ht => exact readRecord_midCommand h ht
      next r t ht =>
        have hm := readRecord_midCommand h ht
        refine ends_bind (ends_mono (takeRecord_frame r t) fun u ⟨_, _, _, e⟩ => e ▸ hm) fun u hu => ?_
        split
        · exact hu
        · exact ih hu

theorem runClrfreq_midCommand {s : State} (h : MidCommand s) : (runClrfreq s).Ends MidCommand :=
  primitive_midCommand h (by decide) fun _ ht => ht

theorem runCount_midCommand {s : State} (h : MidCommand s) : (runCount s).Ends MidCommand :=
  primitive_midCommand h (by decide) fun _ ht => ends_bind (countLoop_midCommand _ ht) fun _ hu => hu

theorem runBuild_midCommand {s : State} (h : MidCommand s) : (runBuild s).Ends MidCommand :=
  primitive_midCommand h (by decide) fun t ht =>
    have leaves : (leafLoop (List.finRange 257) { startTrie t with seq := 0, pq := [] }).Ends MidCommand :=
      ends_mono (leafLoop_frame _ _) fun _ ⟨_, _, _, _, e⟩ => e ▸ ht
    ends_bind leaves fun _ hu => ends_mono (combineLoop_frame _ _) fun _ ⟨_, _, _, _, _, _, e⟩ => e ▸ hu

theorem runGencode_midCommand {s : State} (h : MidCommand s) : (runGencode s).Ends MidCommand :=
  primitive_midCommand h (by decide) fun _ ht =>
    ends_bind (ends_mono (gencodeLoop_frame _ _) fun _ ⟨_, _, e⟩ => e ▸ ht) fun _ hu => hu

theorem runWrmagic_midCommand {s : State} (h : MidCommand s) : (runWrmagic s).Ends MidCommand :=
  primitive_midCommand h (by decide) fun _ ht => ht

theorem runWrhdr_midCommand {s : State} (h : MidCommand s) : (runWrhdr s).Ends MidCommand :=
  primitive_midCommand h (by decide) fun _ ht => ends_mono (wrhdrLoop_frame _ _) fun _ ⟨_, _, e⟩ => e ▸ ht

theorem runRewind_midCommand {s : State} (h : MidCommand s) : (runRewind s).Ends MidCommand :=
  primitive_midCommand h (by decide) fun _ ⟨herr, hcode, hphase, _⟩ => ⟨herr, hcode, hphase, Nat.zero_le _⟩

theorem runEncode_midCommand {s : State} (h : MidCommand s) : (runEncode s).Ends MidCommand :=
  primitive_midCommand h (by decide) fun _ ht => encodeLoop_midCommand _ ht

theorem runFlush_midCommand {s : State} (h : MidCommand s) : (runFlush s).Ends MidCommand :=
  primitive_midCommand h (by decide) fun _ ht => ht

theorem runRdmagic_midCommand {s : State} (h : MidCommand s) : (runRdmagic s).Ends MidCommand :=
  primitive_midCommand h (by decide) fun t ht => by
    unfold rdmagicBody
    split
    next u hu => exact inRead_midCommand ht hu
    next m u hu => split <;> exact inRead_midCommand ht hu

theorem runRdhdr_midCommand {s : State} (h : MidCommand s) : (runRdhdr s).Ends MidCommand :=
  primitive_midCommand h (by decide) fun _ ht => rdhdrLoop_midCommand _ ht

theorem runDecode_midCommand {s : State} (h : MidCommand s) : (runDecode s).Ends MidCommand :=
  primitive_midCommand h (by decide) fun t ht => by
    unfold decodeBody
    split
    · split <;> exact ht
    · exact decodeLoop_midCommand _ ht

theorem runCompress_midCommand {s : State} (h : MidCommand s) : (runCompress s).Ends MidCommand :=
  ends_bind (runCount_midCommand h) fun _ h1 =>
  ends_bind (runBuild_midCommand h1) fun _ h2 =>
  ends_bind (runGencode_midCommand h2) fun _ h3 =>
  ends_bind (runWrmagic_midCommand h3) fun _ h4 =>
  ends_bind (runWrhdr_midCommand h4) fun _ h5 =>
  ends_bind (runRewind_midCommand h5) fun _ h6 =>
  ends_bind (runEncode_midCommand h6) fun _ h7 =>
  runFlush_midCommand h7

theorem runDecompress_midCommand {s : State} (h : MidCommand s) : (runDecompress s).Ends MidCommand :=
  ends_bind (runRdmagic_midCommand h) fun _ h1 =>
  ends_bind (runRdhdr_midCommand h1) fun _ h2 =>
  runDecode_midCommand h2

theorem commandRun_midCommand (i : Instr) {s : State} (h : MidCommand s) : (commandRun i s).Ends MidCommand := by
  cases i with
  | clrfreq => exact runClrfreq_midCommand h
  | count => exact runCount_midCommand h
  | build => exact runBuild_midCommand h
  | gencode => exact runGencode_midCommand h
  | wrmagic => exact runWrmagic_midCommand h
  | wrhdr => exact runWrhdr_midCommand h
  | rewind => exact runRewind_midCommand h
  | encode => exact runEncode_midCommand h
  | flush => exact runFlush_midCommand h
  | rdmagic => exact runRdmagic_midCommand h
  | rdhdr => exact runRdhdr_midCommand h
  | decode => exact runDecode_midCommand h
  | compress => exact runCompress_midCommand h
  | decompress => exact runDecompress_midCommand h
  | magicWord | hdrInternal | hdrLeaf _ => exact h

/-! ### The host's moves keep the status -/

theorem statusInv_writeCmd {w : Word} {s t : State} (hs : StatusInv s) (h : writeCmd w s = .next t) :
    StatusInv t := by
  rcases writeCmd_cases w s with ⟨i, _, hi⟩ | hr
  · exact statusInv_issue hs (fun _ hu => commandRun_midCommand i hu) (hi ▸ h)
  · rw [hr] at h
    cases h
    unfold rejectWord
    split
    · exact hs
    · exact statusInv_raiseErr hs.phaseRange hs.inWithin

/-- Everything a write to a register other than `CMD` can write (10_state.md R46 to R50). -/
theorem writeReg_frame (n : Nat) (w : Word) (s : State) : ∃ fa na ca f,
    writeReg n w s = { s with freqAddr := fa, nodeAddr := na, codeAddr := ca, freq := f } := by
  unfold writeReg
  split
  case h_2 =>
    unfold writeFreqData
    split
    · split <;> exact ⟨_, _, _, _, rfl⟩
    · exact ⟨_, _, _, _, rfl⟩
  all_goals exact ⟨_, _, _, _, rfl⟩

/-- Everything a host read can write: the model's own fields for the word returned (R50 d). -/
theorem hostRead_frame (n : Nat) (s : State) : ∃ b d, hostRead n s = { s with busData := b, draws := d } := by
  unfold hostRead
  split <;> exact ⟨_, _, rfl⟩

/-- The status invariant reads the flags, the codes and IN only. -/
theorem StatusInv.congr {s t : State} (h : StatusInv s) (hbusy : t.busy = s.busy) (hdone : t.done = s.done)
    (herr : t.err = s.err) (hcode : t.errcode = s.errcode) (hphase : t.phase = s.phase) (hin : InWithin t) :
    StatusInv t :=
  ⟨hbusy ▸ h.idle, by rw [herr, hcode]; exact h.errCode, hcode ▸ h.errRange, by rw [hdone, herr]; exact h.notBoth,
    hphase ▸ h.phaseRange, hin⟩

theorem statusInv_hostMove {m : HostMove} {s t : State} (hs : StatusInv s) (h : hostMove m s = .next t) :
    StatusInv t := by
  cases m with
  | rst =>
    cases h
    exact ⟨rfl, Iff.intro (fun _ => rfl) fun _ => rfl, Nat.zero_le _, fun hd => Bool.noConfusion hd.1, Nat.zero_le _,
      hs.inWithin⟩
  | attachIn bits pos =>
    simp only [hostMove] at h
    split at h
    next hp => cases h; exact hs.congr rfl rfl rfl rfl rfl hp
    next => cases h
  | attachOut bits => cases h; exact hs.congr rfl rfl rfl rfl rfl hs.inWithin
  | write reg w =>
    simp only [hostMove] at h
    split at h
    · exact statusInv_writeCmd hs h
    · obtain ⟨_, _, _, _, he⟩ := writeReg_frame reg w s
      rw [he] at h
      cases h
      exact hs.congr rfl rfl rfl rfl rfl hs.inWithin
  | read reg =>
    obtain ⟨_, _, he⟩ := hostRead_frame reg s
    simp only [hostMove] at h
    rw [he] at h
    cases h
    exact hs.congr rfl rfl rfl rfl rfl hs.inWithin
  | collect => cases h; exact hs.congr rfl rfl rfl rfl rfl hs.inWithin

/-- Settles O55: between steps the machine is idle, so a step is a move of the host; what it starts keeps the status
of a machine in the middle of a command until it ends or raises. -/
theorem statusInvKept : Obligations.StatusInvKept := by
  unfold Obligations.StatusInvKept
  intro s t hs h
  rw [step_idle hs.idle] at h
  unfold hostTurn at h
  split at h
  next => cases h; exact hs
  next m rest _ =>
    have hs' : StatusInv { s with host := rest } := hs.congr rfl rfl rfl rfl rfl hs.inWithin
    exact statusInv_hostMove hs' h

end Sys2Proof.Machine

namespace Sys2Proof.Machine

/-! ### A running reader fetches the stream item ahead -/

/-- The node bit 0 is read as an internal node's record (43_header_codec.md R161). -/
theorem readRecord_internal {s : State} {q : Bits} (h : ahead s = false :: q) :
    readRecord s = (.ok .internal, { s with inp := { s.inp with pos := s.inp.pos + 1 } }) := by
  have hb := inRead_field (n := 1) (v := 0) (by decide) (by decide) h
  simp [readRecord, hb]

/-- The node bit 1 with nine bits behind it is read as a leaf's record, as far as the field names a Symbol. -/
theorem readRecord_leaf {s : State} {q : Bits} {r : HdrRecord} (h : ahead s = true :: q) (hq : 9 ≤ q.length)
    (hr : decodeSymbol (BitVec.ofNat 9 (valOf (q.take 9))) = .ok r) :
    readRecord s = (.ok r, { s with inp := { s.inp with pos := s.inp.pos + 10 } }) := by
  have hb := inRead_field (n := 1) (v := 1) (by decide) (by decide) h
  have ht : ahead { s with inp := { s.inp with pos := s.inp.pos + 1 } } = q :=
    ahead_advance (p := [true]) rfl h
  have hlen := ahead_length s
  rw [h, List.length_cons] at hlen
  have hf := inRead_enough (n := 9) (s := { s with inp := { s.inp with pos := s.inp.pos + 1 } })
    (by dsimp only; omega)
  rw [ht] at hf
  simp [readRecord, hb, hf, hr]

/-- What the record decoder makes of the bits ahead is what RDHDR reads, with IN moved behind it (R161). -/
theorem readRecord_of_decodeRecord {s : State} {r : HdrRecord} {rest : Bits} (hin : InWithin s)
    (h : decodeRecord (ahead s) = .ok (r, rest)) :
    readRecord s = (.ok r, { s with inp := { s.inp with pos := s.inp.bits.length - rest.length } }) := by
  have hlen := ahead_length s
  unfold InWithin at hin
  match ha : ahead s with
  | [] => simp [ha, decodeRecord] at h
  | false :: q =>
    rw [ha] at h hlen
    cases h
    rw [List.length_cons] at hlen
    rw [readRecord_internal ha, show s.inp.bits.length - rest.length = s.inp.pos + 1 by omega]
  | true :: q =>
    rw [ha] at h hlen
    rw [List.length_cons] at hlen
    simp only [decodeRecord] at h
    split at h
    next hq =>
      split at h
      next hr =>
        cases h
        rw [readRecord_leaf ha hq hr, List.length_drop,
          show s.inp.bits.length - (q.length - 9) = s.inp.pos + 10 by omega]
      next => cases h
    next => cases h

/-- While RDHDR runs with room in the arena, a step fetches the record ahead and executes it (R161, R164). -/
theorem step_header {s t : State} {r : HdrRecord} (hbusy : s.busy = true) (hphase : s.phase = opcodeOf .rdhdr)
    (hroom : s.nnodes.val < 513) (hr : readRecord s = (.ok r, t)) : step s = exec r.instr t := by
  simp [step, hbusy, engineTurn, hphase, headerTurn, hroom.ne, hr]

/-- While RDMAGIC runs, a step fetches the marker ahead and executes it (R160). -/
theorem step_marker {s t : State} (hbusy : s.busy = true) (hphase : s.phase = opcodeOf .rdmagic)
    (hr : inRead 32 s = (some t.magic, t)) : step s = exec .magicWord t := by
  have hne : opcodeOf .rdmagic ≠ opcodeOf .rdhdr := by decide
  simp [step, hbusy, engineTurn, hphase, hne, markerTurn, hr, decodeMarker]

/-- Settles O7: each clause is the reader's fetch, whose read of IN is what the decoder makes of the bits ahead. -/
theorem stepRunsRecord : Obligations.StepRunsRecord := by
  unfold Obligations.StepRunsRecord
  refine ⟨fun s r rest hbusy hphase hroom hin h => ?_, fun s rest hbusy hphase h => ?_⟩
  · exact step_header hbusy hphase hroom (readRecord_of_decodeRecord hin h)
  · have hm := inRead_field (by decide) s.magic.isLt h
    rw [BitVec.ofNat_toNat, BitVec.setWidth_eq] at hm
    exact step_marker hbusy hphase hm

end Sys2Proof.Machine

namespace Sys2Proof.Machine

/-! ### Runs that never get stuck -/

/-- A run that does not get stuck and, when it ends well, ends in a state with P. -/
def Run.Completes (P : State → Prop) : Run → Prop
  | .ok t => P t
  | .raised _ _ => True
  | .stuck _ => False

@[simp] theorem completes_ok (P : State → Prop) (t : State) : (Run.ok t).Completes P ↔ P t := Iff.rfl
@[simp] theorem completes_raised (P : State → Prop) (e : Err) (t : State) : (Run.raised e t).Completes P ↔ True :=
  Iff.rfl
@[simp] theorem completes_stuck (P : State → Prop) (x : Fault) : (Run.stuck x).Completes P ↔ False := Iff.rfl

/-- A sequence completes if its first part does and its second does from there. -/
theorem completes_bind {P Q : State → Prop} {r : Run} {f : State → Run} (h : r.Completes P)
    (k : ∀ t, P t → (f t).Completes Q) : (r.bind f).Completes Q := by
  cases r with
  | ok t => exact k t h
  | raised e t => trivial
  | stuck x => exact h

theorem completes_mono {P Q : State → Prop} {r : Run} (h : r.Completes P) (k : ∀ t, P t → Q t) : r.Completes Q := by
  cases r with
  | ok t => exact k t h
  | raised e t => trivial
  | stuck x => exact h

/-- A run that completes does so in a state its frame allows. -/
theorem completes_of_ends {P Q : State → Prop} {r : Run} (h : r.Completes Q) (k : r.Ends P) : r.Completes P := by
  cases r with
  | ok t => exact k
  | raised e t => trivial
  | stuck x => exact h

/-- A member completes if its body does whenever the precondition holds (30_encoding.md R94). -/
theorem primitive_completes {P : State → Prop} {i : Instr} {body : State → Run} {s : State}
    (h : precondition i s = true → (body (setPhase i s)).Completes P) : (primitive i body s).Completes P := by
  unfold primitive
  split
  next hp => exact h hp
  next => trivial

/-- A command whose run completes has a next state. -/
theorem issue_has_next {P : State → Prop} {run : State → Run} {s : State} (h : (run (accept s)).Completes P) :
    ∃ t, issue run s = .next t := by
  unfold issue
  split
  · exact ⟨s, rfl⟩
  · cases hr : run (accept s) with
    | ok t => exact ⟨_, rfl⟩
    | raised e t => exact ⟨_, rfl⟩
    | stuck x => rw [hr] at h; exact h.elim

/-! ### Loops that read IN: each iteration that goes on takes bits off what lies ahead -/

theorem ahead_le_bits (s : State) : (ahead s).length ≤ s.inp.bits.length := by
  rw [ahead_length]
  exact Nat.sub_le _ _

/-- COUNT's scan ends within its bound (40_frequency_table.md R122). -/
theorem countLoop_completes {fuel : Nat} {s : State} (h : (ahead s).length < fuel) :
    (countLoop fuel s).Completes fun _ => True := by
  induction fuel generalizing s with
  | zero => omega
  | succ fuel ih =>
    unfold countLoop
    split
    next => trivial
    next x t ht =>
      have hless : (ahead t).length + 8 = (ahead s).length := (inRead_some_length (by decide) ht).1
      split
      · trivial
      · exact ih (by simp only [ahead] at *; omega)

theorem emitCode_completes (sym : Symbol) (s : State) : (emitCode sym s).Completes fun t => ahead t = ahead s := by
  unfold emitCode
  split
  · exact rfl
  · trivial

/-- ENCODE's data loop ends within its bound (44_stream_transcoder.md R178). -/
theorem encodeLoop_completes {fuel : Nat} {s : State} (h : (ahead s).length < fuel) :
    (encodeLoop fuel s).Completes fun _ => True := by
  induction fuel generalizing s with
  | zero => omega
  | succ fuel ih =>
    unfold encodeLoop
    split
    next t _ => exact completes_mono (emitCode_completes _ t) fun _ _ => trivial
    next x t ht =>
      have hless := (inRead_some_length (by decide) ht).1
      exact completes_bind (emitCode_completes _ t) fun u hu => ih (by rw [hu]; omega)

/-- DECODE's walk ends within its bound on any arena, since each iteration takes a bit (R185). -/
theorem decodeLoop_completes {fuel : Nat} {s : State} (h : (ahead s).length < fuel) :
    (decodeLoop fuel s).Completes fun _ => True := by
  induction fuel generalizing s with
  | zero => omega
  | succ fuel ih =>
    unfold decodeLoop
    split
    next => trivial
    next b t ht =>
      have hless : (ahead t).length + 1 = (ahead s).length := (inRead_some_length (by decide) ht).1
      dsimp only
      split
      · split
        · trivial
        · exact ih (show (ahead t).length < fuel by omega)
      · exact ih (show (ahead t).length < fuel by omega)

/-! ### RDHDR: each record takes an arena entry, and no more nodes wait than are stored -/

theorem hangNode_stack_le (i : NodeIx) (s : State) : (hangNode i s).stack.length ≤ s.stack.length := by
  unfold hangNode
  split
  · exact le_refl _
  next e rest h => split <;> simp [h]

theorem hangNode_nnodes (i : NodeIx) (s : State) : (hangNode i s).nnodes = s.nnodes := by
  obtain ⟨_, _, h⟩ := hangNode_frame i s
  rw [h]

/-- Taking a record with room in the arena stores one node and lets at most one more wait (43_header_codec.md R161). -/
theorem takeRecord_completes {r : HdrRecord} {s : State} (hroom : s.nnodes.val < 513)
    (hstack : s.stack.length ≤ s.nnodes.val) :
    (takeRecord r s).Completes fun t => t.nnodes.val = s.nnodes.val + 1 ∧ t.stack.length ≤ t.nnodes.val := by
  have hn := nextCount_val hroom
  have hle := (hangNode_stack_le ⟨s.nnodes.val, hroom⟩
    { s with node := s.node.set s.nnodes.val (nodeOfRecord r), nnodes := nextCount s.nnodes }).trans hstack
  simp only [takeRecord, allocNode_room hroom]
  cases r with
  | internal =>
    rw [pushRun_room (hle.trans_lt hroom)]
    simp only [completes_ok, hangNode_nnodes, hn, List.length_cons, true_and]
    exact Nat.succ_le_succ hle
  | leaf sym =>
    simp only [completes_ok, hangNode_nnodes, hn, true_and]
    exact Nat.le_succ_of_le hle

/-- RDHDR's loop ends within its bound (R166). -/
theorem rdhdrLoop_completes {fuel : Nat} {s : State} (hfuel : 514 ≤ s.nnodes.val + fuel)
    (hstack : s.stack.length ≤ s.nnodes.val) : (rdhdrLoop fuel s).Completes fun _ => True := by
  induction fuel generalizing s with
  | zero => omega
  | succ fuel ih =>
    unfold rdhdrLoop
    split
    next => trivial
    next hfull =>
      obtain ⟨p, hp⟩ := readRecord_frame s
      split
      next => trivial
      next r t ht =>
        rw [ht] at hp
        dsimp only at hp
        have hn : t.nnodes.val = s.nnodes.val := by rw [hp]
        have hst : t.stack.length = s.stack.length := by rw [hp]
        refine completes_bind (takeRecord_completes (by omega) (by omega)) ?_
        rintro u ⟨hun, hus⟩
        split
        · trivial
        · exact ih (by omega) hus

/-! ### Forests: tries that stand in the arena side by side -/

theorem nodes_pos (t : Trie) : 0 < t.nodes := by cases t <;> simp [Trie.nodes]

/-- At each of the roots a trie with Symbols on its leaves stands in the arena; `ids` are the indices met. -/
inductive Forest (node : Vector Node 513) : List NodeIx → List NodeIx → Prop
  | nil : Forest node [] []
  | cons {i : NodeIx} {t : Trie} {is roots ids : List NodeIx} (h : TreeAt node i t is)
      (hsym : ∀ x ∈ t.symbols, x ≤ 256) (hrest : Forest node roots ids) : Forest node (i :: roots) (is ++ ids)

/-- A well-formed arena is a forest of one trie (10_state.md R40). -/
theorem ArenaWf.forest {s : State} (h : ArenaWf s) : ∃ ids, Forest s.node [s.root] ids ∧ ids.Nodup := by
  obtain ⟨t, ids, ht, hnodup, _, hsym⟩ := h
  exact ⟨ids ++ [], .cons ht hsym .nil, by rwa [List.append_nil]⟩

/-- A forest of one trie that covers the allocated entries is a well-formed arena (R40). -/
theorem Forest.arenaWf {s : State} {ids : List NodeIx} (h : Forest s.node [s.root] ids) (hnodup : ids.Nodup)
    (hmem : ∀ j : NodeIx, j ∈ ids ↔ j.val < s.nnodes.val) : ArenaWf s := by
  cases h with
  | cons ht hsym hrest =>
    cases hrest
    rw [List.append_nil] at hnodup hmem
    exact ⟨_, _, ht, hnodup, hmem, hsym⟩

theorem Forest.roots_le {node : Vector Node 513} {roots ids : List NodeIx} (h : Forest node roots ids) :
    roots.length ≤ ids.length := by
  induction h with
  | nil => exact le_refl _
  | @cons i t is roots ids ht _ _ ih =>
    have := nodes_pos t
    rw [List.length_cons, List.length_append, ht.length]
    omega

theorem Forest.congr {node node' : Vector Node 513} {roots ids : List NodeIx} (h : Forest node roots ids)
    (hn : ∀ j ∈ ids, node'[j] = node[j]) : Forest node' roots ids := by
  induction h with
  | nil => exact .nil
  | cons ht hsym _ ih =>
    exact .cons (ht.congr fun j hj => hn j (List.mem_append_left _ hj)) hsym
      (ih fun j hj => hn j (List.mem_append_right _ hj))

/-- The order of the roots does not matter. -/
theorem Forest.perm {node : Vector Node 513} {roots roots' ids : List NodeIx} (h : Forest node roots ids)
    (hp : roots.Perm roots') : ∃ ids', Forest node roots' ids' ∧ ids.Perm ids' := by
  induction hp generalizing ids with
  | nil => exact ⟨ids, h, .refl _⟩
  | cons i _ ih =>
    cases h with
    | cons ht hsym hrest =>
      obtain ⟨ids', hf, hids⟩ := ih hrest
      exact ⟨_, .cons ht hsym hf, hids.append_left _⟩
  | swap i j l =>
    cases h with
    | cons ht hsym hrest =>
      cases hrest with
      | cons ht' hsym' hrest =>
        refine ⟨_, .cons ht' hsym' (.cons ht hsym hrest), ?_⟩
        rw [← List.append_assoc, ← List.append_assoc]
        exact List.perm_append_comm.append_right _
  | trans _ _ ih ih' =>
    obtain ⟨_, hf, hids⟩ := ih h
    obtain ⟨ids', hf', hids'⟩ := ih' hf
    exact ⟨ids', hf', hids.trans hids'⟩

/-- A leaf in front of a forest: one index, and a Symbol. -/
theorem forest_leaf {node : Vector Node 513} {i : NodeIx} {roots ids : List NodeIx} (hk : (node[i]).kind = true) :
    Forest node (i :: roots) ids ↔
      (node[i]).value.toNat ≤ 256 ∧ ∃ js, ids = i :: js ∧ Forest node roots js := by
  constructor
  · intro h
    cases h with
    | cons ht hsym hrest =>
      cases ht with
      | leaf => exact ⟨hsym _ (by simp [Trie.symbols]), _, rfl, hrest⟩
      | node _ _ _ _ _ hn => rw [hk] at hn; cases hn
  · rintro ⟨hv, js, rfl, hf⟩
    exact .cons (.leaf i hk) (by simpa [Trie.symbols] using hv) hf

/-- An internal node in front of a forest: one index, and its children in front of the rest. -/
theorem forest_internal {node : Vector Node 513} {i : NodeIx} {roots ids : List NodeIx}
    (hk : (node[i]).kind = false) :
    Forest node (i :: roots) ids ↔
      ∃ js, ids = i :: js ∧ Forest node ((node[i]).left :: (node[i]).right :: roots) js := by
  constructor
  · intro h
    cases h with
    | @cons _ _ _ _ ids ht hsym hrest =>
      cases ht with
      | leaf _ hn => rw [hk] at hn; cases hn
      | node _ l r is js _ hl hr =>
        simp only [Trie.symbols, List.mem_append] at hsym
        refine ⟨is ++ (js ++ ids), by simp, .cons hl (fun x hx => hsym x (.inl hx)) ?_⟩
        exact .cons hr (fun x hx => hsym x (.inr hx)) hrest
  · rintro ⟨js, rfl, hf⟩
    cases hf with
    | @cons _ l is _ _ hl hsyml hf =>
      cases hf with
      | @cons _ r is' _ ids hr hsymr hrest =>
        have hsym : ∀ x ∈ l.symbols ++ r.symbols, x ≤ 256 := fun x hx =>
          (List.mem_append.mp hx).elim (hsyml x) (hsymr x)
        have := Forest.cons (.node i l r is is' hk hl hr) hsym hrest
        rwa [List.cons_append, List.append_assoc] at this

/-! ### The walks of GENCODE and WRHDR: the tries still to visit are a forest on the stack -/

/-- Two pushes, the second on top (10_state.md R37). -/
theorem pushRun_twice {a b : StackEntry} {s : State} (h : s.stack.length + 2 ≤ 513) :
    (pushRun a s).bind (pushRun b) = .ok { s with stack := b :: a :: s.stack } := by
  rw [pushRun_room (by omega), bind_ok, pushRun_room (by simp only [List.length_cons]; omega)]

/-- The nodes on the stack root tries of at most `n` nodes together. -/
def WalkWithin (n : Nat) (s : State) : Prop :=
  ∃ ids, Forest s.node (s.stack.map StackEntry.node) ids ∧ ids.length ≤ n

theorem WalkWithin.stack_le {n : Nat} {s : State} (h : WalkWithin n s) : s.stack.length ≤ n := by
  obtain ⟨ids, hf, hn⟩ := h
  have := hf.roots_le
  rw [List.length_map] at this
  omega

/-- After a leaf, the rest is to be visited. -/
theorem WalkWithin.leaf {n : Nat} {s : State} {e : StackEntry} {rest : List StackEntry} (h : WalkWithin (n + 1) s)
    (hs : s.stack = e :: rest) (hk : (s.node[e.node]).kind = true) :
    (s.node[e.node]).value.toNat ≤ 256 ∧ WalkWithin n { s with stack := rest } := by
  obtain ⟨ids, hf, hn⟩ := h
  rw [hs, List.map_cons, forest_leaf hk] at hf
  obtain ⟨hv, js, rfl, hf⟩ := hf
  exact ⟨hv, js, hf, Nat.le_of_succ_le_succ hn⟩

/-- After an internal node, its children and the rest are to be visited, the left child first, and the stack has room
for both. -/
theorem WalkWithin.internal {n : Nat} {s : State} {e : StackEntry} {rest : List StackEntry}
    (h : WalkWithin (n + 1) s) (hs : s.stack = e :: rest) (hk : (s.node[e.node]).kind = false) :
    rest.length + 2 ≤ n ∧ ∀ l r : StackEntry, l.node = (s.node[e.node]).left → r.node = (s.node[e.node]).right →
      WalkWithin n { s with stack := l :: r :: rest } := by
  obtain ⟨ids, hf, hn⟩ := h
  rw [hs, List.map_cons, forest_internal hk] at hf
  obtain ⟨js, rfl, hf⟩ := hf
  rw [List.length_cons] at hn
  refine ⟨?_, fun l r hl hr => ⟨js, ?_, Nat.le_of_succ_le_succ hn⟩⟩
  · have hroots := hf.roots_le
    simp only [List.length_cons, List.length_map] at hroots
    omega
  · rw [List.map_cons, List.map_cons, hl, hr]
    exact hf

/-- A walk starts at the root of a well-formed arena, which has at most 513 nodes (R40). -/
theorem ArenaWf.walk {s t : State} {e : StackEntry} (h : ArenaWf s) (hnode : t.node = s.node)
    (hstack : t.stack = [e]) (he : e.node = s.root) : WalkWithin 513 t := by
  obtain ⟨ids, hf, hnodup⟩ := h.forest
  refine ⟨ids, ?_, by simpa using hnodup.length_le_card⟩
  rw [hnode, hstack, List.map_cons, he]
  exact hf

/-- GENCODE's walk visits each node once, finds every Symbol an entry and the stack room (42_code_table.md R146). -/
theorem gencodeLoop_completes {fuel : Nat} {s : State} (h : WalkWithin fuel s) (hfuel : fuel ≤ 513) :
    (gencodeLoop fuel s).Completes fun _ => True := by
  induction fuel generalizing s with
  | zero =>
    unfold gencodeLoop
    split
    next => trivial
    next hs => have := h.stack_le; simp [hs] at this
  | succ fuel ih =>
    unfold gencodeLoop
    split
    next => trivial
    next e rest hs =>
      split
      next hk =>
        obtain ⟨hv, hw⟩ := h.leaf hs hk
        rw [dif_pos (Nat.lt_succ_of_le hv)]
        exact ih hw (by omega)
      next hk =>
        obtain ⟨hroom, hw⟩ := h.internal hs (by simpa using hk)
        rw [pushRun_twice (by dsimp only; omega), bind_ok]
        exact ih (hw _ _ rfl rfl) (by omega)

/-- WRHDR's walk visits each node once and finds the stack room (43_header_codec.md R157). -/
theorem wrhdrLoop_completes {fuel : Nat} {s : State} (h : WalkWithin fuel s) (hfuel : fuel ≤ 513) :
    (wrhdrLoop fuel s).Completes fun _ => True := by
  induction fuel generalizing s with
  | zero =>
    unfold wrhdrLoop
    split
    next => trivial
    next hs => have := h.stack_le; simp [hs] at this
  | succ fuel ih =>
    unfold wrhdrLoop
    split
    next => trivial
    next e rest hs =>
      split
      next hk => exact ih (h.leaf hs hk).2 (by omega)
      next hk =>
        obtain ⟨hroom, hw⟩ := h.internal hs (by simpa using hk)
        rw [pushRun_twice (by simp only [outAppend_stack]; omega), bind_ok]
        exact ih (hw _ _ rfl rfl) (by omega)

/-! ### BUILD: the queue's tries cover the allocated entries -/

/-- The queue's entries root tries that share no node and together are the allocated entries (41_trie_builder.md R131). -/
def QueueForest (s : State) : Prop :=
  ∃ ids, Forest s.node (s.pq.map PqEntry.node) ids ∧ ids.Nodup ∧ ∀ j : NodeIx, j ∈ ids ↔ j.val < s.nnodes.val

/-- A new node at `NNODES` that roots a trie beside the queue's, over the entries allocated before, goes into the
queue. -/
theorem addToQueue_completes {nd : Node} {s : State} {ids : List NodeIx} (hroom : s.nnodes.val < 513)
    (hf : Forest (s.node.set s.nnodes.val nd) (⟨s.nnodes.val, hroom⟩ :: s.pq.map PqEntry.node)
      (⟨s.nnodes.val, hroom⟩ :: ids))
    (hnodup : ids.Nodup) (hmem : ∀ j : NodeIx, j ∈ ids ↔ j.val < s.nnodes.val) :
    (addToQueue nd s).Completes fun t => QueueForest t ∧ t.pq.length = s.pq.length + 1
      ∧ t.nnodes.val = s.nnodes.val + 1 ∧ t.freq = s.freq := by
  have hn := nextCount_val hroom
  simp only [addToQueue, allocNode_room hroom, completes_ok, enqueue, pqInsert_length, hn, and_true]
  have hperm := (pqInsert_perm ⟨nd.weight, s.seq, ⟨s.nnodes.val, hroom⟩⟩ s.pq).symm.map PqEntry.node
  obtain ⟨ids', hf', hids⟩ := hf.perm hperm
  refine ⟨ids', hf', hids.nodup_iff.mp (List.nodup_cons.mpr ⟨?_, hnodup⟩), fun j => ?_⟩
  · rw [hmem]
    exact lt_irrefl _
  · rw [← hids.mem_iff, List.mem_cons, hmem, hn, Fin.ext_iff]
    dsimp only
    omega

/-- An entry allocated at `NNODES` leaves a forest below `NNODES` as it is. -/
theorem Forest.alloc {s : State} {nd : Node} {roots ids : List NodeIx} (hroom : s.nnodes.val < 513)
    (h : Forest s.node roots ids) (hmem : ∀ j : NodeIx, j ∈ ids ↔ j.val < s.nnodes.val) :
    Forest (s.node.set s.nnodes.val nd) roots ids := by
  refine h.congr fun j hj => ?_
  have := (hmem j).mp hj
  exact Vector.getElem_set_ne _ _ (by omega)

/-- Phase 1 of BUILD: a leaf for each symbol of the list with a frequency (R131). -/
theorem leafLoop_completes {l : List Symbol} {s : State} (hq : QueueForest s) (hn : s.nnodes.val = s.pq.length)
    (hl : s.pq.length + l.length ≤ 257) :
    (leafLoop l s).Completes fun t => QueueForest t ∧ t.nnodes.val = t.pq.length
      ∧ t.pq.length = s.pq.length + l.countP fun v => s.freq[v] ≠ 0#32 := by
  induction l generalizing s with
  | nil => exact ⟨hq, hn, rfl⟩
  | cons sym rest ih =>
    rw [List.length_cons] at hl
    unfold leafLoop
    split
    next h0 =>
      rw [List.countP_cons_of_neg (by simpa using h0)]
      exact ih hq hn (by omega)
    next h0 =>
      obtain ⟨ids, hf, hnodup, hmem⟩ := hq
      have hroom : s.nnodes.val < 513 := by omega
      have hsym : (BitVec.ofNat 16 sym.val).toNat ≤ 256 := by
        rw [BitVec.toNat_ofNat]
        omega
      have hleaf : Forest (s.node.set s.nnodes.val (leafNode sym s.freq[sym]))
          (⟨s.nnodes.val, hroom⟩ :: s.pq.map PqEntry.node) (⟨s.nnodes.val, hroom⟩ :: ids) :=
        (forest_leaf (by simp [leafNode])).mpr ⟨by simpa [leafNode] using hsym, ids, rfl, hf.alloc hroom hmem⟩
      refine completes_bind (addToQueue_completes hroom hleaf hnodup hmem) ?_
      rintro t ⟨htq, htl, htn, htf⟩
      refine completes_mono (ih htq (by omega) (by omega)) fun u ⟨huq, hun, hul⟩ => ⟨huq, hun, ?_⟩
      rw [htf] at hul
      rw [List.countP_cons_of_pos (by simpa using h0)]
      omega

/-- Phases 2 and 3 of BUILD: each round takes one trie off the queue and one entry of the arena; the last trie is the
arena's (R131, R133, R136). -/
theorem combineLoop_completes {fuel : Nat} {s : State} (hq : QueueForest s) (hpos : 0 < s.pq.length)
    (hfuel : s.pq.length ≤ fuel) (hcap : s.nnodes.val + s.pq.length ≤ 514) :
    (combineLoop fuel s).Completes ArenaWf := by
  induction fuel generalizing s with
  | zero => omega
  | succ fuel ih =>
    obtain ⟨ids, hf, hnodup, hmem⟩ := hq
    unfold combineLoop
    split
    next hs => simp [hs] at hpos
    next r hs =>
      rw [hs] at hf
      exact Forest.arenaWf (s := endTrie r.node { s with pq := [] }) hf hnodup hmem
    next a b rest hs =>
      simp only [hs, List.length_cons] at hfuel hcap
      split
      next =>
        have hroom : s.nnodes.val < 513 := by omega
        rw [hs] at hf
        have hnode : Forest (s.node.set s.nnodes.val (combinedNode s a b (a.weight + b.weight)))
            (⟨s.nnodes.val, hroom⟩ :: rest.map PqEntry.node) (⟨s.nnodes.val, hroom⟩ :: ids) :=
          (forest_internal (by simp [combinedNode])).mpr
            ⟨ids, rfl, by simpa [combinedNode] using hf.alloc hroom hmem⟩
        refine completes_bind (addToQueue_completes (s := { s with pq := rest }) hroom hnode hnodup hmem) ?_
        rintro t ⟨htq, htl, htn, _⟩
        dsimp only at htl htn
        exact ih htq (by omega) (by omega) (by omega)
      next => trivial

/-! ### Every member completes -/

/-- What the commands need of the tables: a valid Frequency Table counts the pseudo-symbol once, and a valid trie is
a well-formed arena (10_state.md R31, R40). -/
def TablesUsable (s : State) : Prop :=
  (s.freqValid = true → s.freq[eosSymbol] = 1#32) ∧ (s.trieValid = true → ArenaWf s)

theorem runClrfreq_completes (s : State) : (runClrfreq s).Completes fun _ => True :=
  primitive_completes fun _ => trivial

/-- COUNT ends with the pseudo-symbol counted once (40_frequency_table.md R122). -/
theorem runCount_completes (s : State) : (runCount s).Completes fun t => t.freq[eosSymbol] = 1#32 :=
  primitive_completes fun _ =>
    completes_bind (countLoop_completes (Nat.lt_succ_of_le (ahead_le_bits _))) fun t _ => by
      simp [eosSymbol]

/-- BUILD ends with a well-formed arena, whatever the counts but the pseudo-symbol's (41_trie_builder.md R133, R138). -/
theorem runBuild_completes {s : State} (h : s.freqValid = true → s.freq[eosSymbol] = 1#32) :
    (runBuild s).Completes ArenaWf :=
  primitive_completes fun hvalid => by
    have heos : s.freq[eosSymbol] = 1#32 := h hvalid
    have hstart : QueueForest { startTrie (setPhase .build s) with seq := 0, pq := [] } :=
      ⟨[], .nil, .nil, fun j => by simp⟩
    refine completes_bind (leafLoop_completes hstart rfl (by simp)) ?_
    rintro t ⟨htq, htn, htl⟩
    have hlen : t.pq.length = (List.finRange 257).countP fun v => decide (s.freq[v] ≠ 0#32) :=
      htl.trans (Nat.zero_add _)
    have hle : t.pq.length ≤ (List.finRange 257).length := hlen ▸ List.countP_le_length
    rw [List.length_finRange] at hle
    have hpos : 0 < t.pq.length := by
      rw [hlen]
      exact List.countP_pos_iff.mpr ⟨eosSymbol, List.mem_finRange _, by simp [heos]⟩
    exact combineLoop_completes htq hpos (Nat.le_succ _) (by omega)

theorem runGencode_completes {s : State} (h : s.trieValid = true → ArenaWf s) :
    (runGencode s).Completes fun _ => True :=
  primitive_completes fun hvalid =>
    completes_bind (gencodeLoop_completes ((h hvalid).walk rfl rfl rfl) (le_refl _)) fun _ _ => trivial

/-- GENCODE leaves the arena as it is (10_state.md R32). -/
theorem runGencode_arena {s : State} (h : ArenaWf s) : (runGencode s).Completes ArenaWf := by
  refine completes_of_ends (runGencode_completes fun _ => h) ?_
  unfold runGencode primitive
  split
  · exact ends_bind (ends_mono (gencodeLoop_frame _ _) fun _ ⟨_, _, e⟩ => e ▸ h) fun _ hu => hu
  · exact h

/-- WRMAGIC completes and leaves the arena as it is (43_header_codec.md R156). -/
theorem runWrmagic_completes {s : State} : (runWrmagic s).Completes fun t => ArenaWf s → ArenaWf t :=
  primitive_completes fun _ h => h

theorem runWrhdr_completes {s : State} (h : s.trieValid = true → ArenaWf s) :
    (runWrhdr s).Completes fun _ => True :=
  primitive_completes fun hvalid => wrhdrLoop_completes ((h hvalid).walk rfl rfl rfl) (le_refl _)

theorem runRewind_completes (s : State) : (runRewind s).Completes fun _ => True :=
  primitive_completes fun _ => trivial

theorem runEncode_completes (s : State) : (runEncode s).Completes fun _ => True :=
  primitive_completes fun _ => encodeLoop_completes (Nat.lt_succ_of_le (ahead_le_bits _))

theorem runFlush_completes (s : State) : (runFlush s).Completes fun _ => True :=
  primitive_completes fun _ => trivial

theorem runRdmagic_completes (s : State) : (runRdmagic s).Completes fun _ => True :=
  primitive_completes fun _ => by
    unfold rdmagicBody
    split
    next => trivial
    next => split <;> trivial

theorem runRdhdr_completes (s : State) : (runRdhdr s).Completes fun _ => True :=
  primitive_completes fun _ => rdhdrLoop_completes (le_refl _) (le_refl _)

theorem runDecode_completes (s : State) : (runDecode s).Completes fun _ => True :=
  primitive_completes fun _ => by
    unfold decodeBody
    split
    · split <;> trivial
    · exact decodeLoop_completes (Nat.lt_succ_of_le (ahead_le_bits _))

/-- COMPRESS completes: its GENCODE and WRHDR walk the arena its own BUILD left (45_composite.md R196). -/
theorem runCompress_completes (s : State) : (runCompress s).Completes fun _ => True :=
  completes_bind (runCount_completes s) fun _ h1 =>
  completes_bind (runBuild_completes fun _ => h1) fun _ h2 =>
  completes_bind (runGencode_arena h2) fun _ h3 =>
  completes_bind runWrmagic_completes fun _ h4 =>
  completes_bind (runWrhdr_completes fun _ => h4 h3) fun s5 _ =>
  completes_bind (runRewind_completes s5) fun s6 _ =>
  completes_bind (runEncode_completes s6) fun s7 _ =>
  runFlush_completes s7

theorem runDecompress_completes (s : State) : (runDecompress s).Completes fun _ => True :=
  completes_bind (runRdmagic_completes s) fun s1 _ =>
  completes_bind (runRdhdr_completes s1) fun s2 _ =>
  runDecode_completes s2

theorem commandRun_completes (i : Instr) {s : State} (h : TablesUsable s) :
    (commandRun i s).Completes fun _ => True := by
  obtain ⟨hfreq, harena⟩ := h
  cases i with
  | clrfreq => exact runClrfreq_completes s
  | count => exact completes_mono (runCount_completes s) fun _ _ => trivial
  | build => exact completes_mono (runBuild_completes hfreq) fun _ _ => trivial
  | gencode => exact runGencode_completes harena
  | wrmagic => exact completes_mono runWrmagic_completes fun _ _ => trivial
  | wrhdr => exact runWrhdr_completes harena
  | rewind => exact runRewind_completes s
  | encode => exact runEncode_completes s
  | flush => exact runFlush_completes s
  | rdmagic => exact runRdmagic_completes s
  | rdhdr => exact runRdhdr_completes s
  | decode => exact runDecode_completes s
  | compress => exact runCompress_completes s
  | decompress => exact runDecompress_completes s
  | magicWord | hdrInternal | hdrLeaf _ => trivial

/-! ### Every move of the host but one has a next state -/

theorem writeCmd_has_next (w : Word) {s : State} (h : TablesUsable s) : ∃ t, writeCmd w s = .next t := by
  rcases writeCmd_cases w s with ⟨i, _, hi⟩ | hr
  · rw [hi]
    exact issue_has_next (commandRun_completes i (s := accept s) h)
  · exact ⟨_, hr⟩

theorem hostMove_has_next (m : HostMove) {s : State} (h : TablesUsable s) :
    (∃ t, hostMove m s = .next t) ∨ ∃ bits pos, m = .attachIn bits pos ∧ bits.length < pos := by
  cases m with
  | rst => exact .inl ⟨_, rfl⟩
  | attachIn bits pos =>
    rcases Nat.lt_or_ge bits.length pos with hlt | hle
    · exact .inr ⟨bits, pos, rfl, hlt⟩
    · exact .inl ⟨_, if_pos hle⟩
  | attachOut bits => exact .inl ⟨_, rfl⟩
  | write reg w =>
    simp only [hostMove]
    split
    · exact .inl (writeCmd_has_next w h)
    · exact .inl ⟨_, rfl⟩
  | read reg => exact .inl ⟨_, rfl⟩
  | collect => exact .inl ⟨_, rfl⟩

/-- Settles O57: an idle machine makes the host's next move, and a command it starts completes, each of its loops
within its bound, because the tables its precondition asks for are as the invariant says. -/
theorem stepsAlwaysComplete : Obligations.StepsAlwaysComplete := by
  unfold Obligations.StepsAlwaysComplete
  intro s hs ht
  rw [step_idle hs.idle]
  unfold hostTurn
  split
  next => exact .inl ⟨s, rfl⟩
  next m rest hm =>
    have hu : TablesUsable { s with host := rest } := ⟨ht.freqEos, ht.arena⟩
    rcases hostMove_has_next m hu with hnext | ⟨bits, pos, rfl, hlt⟩
    · exact .inl hnext
    · exact .inr ⟨bits, pos, rest, hm, hlt⟩

end Sys2Proof.Machine

namespace Sys2Proof.Machine

/-! ### Runs with one promise for a good end and another for a raise -/

/-- A run that ends well does so in a state with P, and one that raises does so in a state with Q. -/
def Run.EndsIn (P Q : State → Prop) : Run → Prop
  | .ok t => P t
  | .raised _ t => Q t
  | .stuck _ => True

/-- A sequence raises in its first part, or goes on from where that ends. -/
theorem endsIn_bind {P P' Q : State → Prop} {r : Run} {f : State → Run} (h : r.EndsIn P' Q)
    (k : ∀ t, P' t → (f t).EndsIn P Q) : (r.bind f).EndsIn P Q := by
  cases r with
  | ok t => exact k t h
  | raised e t => exact h
  | stuck x => trivial

theorem endsIn_mono {P P' Q Q' : State → Prop} {r : Run} (h : r.EndsIn P Q) (hp : ∀ t, P t → P' t)
    (hq : ∀ t, Q t → Q' t) : r.EndsIn P' Q' := by
  cases r with
  | ok t => exact hp t h
  | raised e t => exact hq t h
  | stuck x => trivial

/-- What holds at every end holds at both kinds. -/
theorem endsIn_of_ends {P Q : State → Prop} {r : Run} (h : r.Ends P) (k : ∀ t, P t → Q t) : r.EndsIn P Q := by
  cases r with
  | ok t => exact h
  | raised e t => exact k t h
  | stuck x => trivial

theorem Run.Ends.endsIn {P : State → Prop} {r : Run} (h : r.Ends P) : r.EndsIn P P := endsIn_of_ends h fun _ ht => ht

/-- Two promises at once. -/
theorem Run.EndsIn.and {P Q P' Q' : State → Prop} {r : Run} (h : r.EndsIn P Q) (k : r.EndsIn P' Q') :
    r.EndsIn (fun t => P t ∧ P' t) (fun t => Q t ∧ Q' t) := by
  cases r with
  | ok t => exact ⟨h, k⟩
  | raised e t => exact ⟨h, k⟩
  | stuck x => trivial

/-- A promise of nothing. -/
theorem endsIn_trivial (r : Run) : r.EndsIn (fun _ => True) fun _ => True := by cases r <;> trivial

/-- A run that completes promises its good end, and nothing of a raise. -/
theorem endsIn_of_completes {P : State → Prop} {r : Run} (h : r.Completes P) : r.EndsIn P fun _ => True := by
  cases r with
  | ok t => exact h
  | raised e t => trivial
  | stuck x => trivial

/-! ### What the valid flags say, in the middle of a command -/

/-- The part of the table invariant that holds at every point of a command where it can raise (10_state.md R31, R40,
R44): all of it but that the queue and the stack are empty. -/
def TablesSound (s : State) : Prop :=
  TablesUsable s
    ∧ (s.codesValid = true → s.trieValid = true ∧ ∃ t ids, TreeAt s.node s.root t ids ∧ s.code = codeTable t)
    ∧ (s.trieStarted = false → s.root = 0 ∧ s.nnodes = 0 ∧ s.trieValid = false)

/-- What holds between the members of a command: the queue and the stack are empty as well (R38). -/
def Tidy (s : State) : Prop := TablesSound s ∧ s.pq = [] ∧ s.stack = []

theorem TableInv.sound {s : State} (h : TableInv s) : TablesSound s := ⟨⟨h.freqEos, h.arena⟩, h.codes, h.fresh⟩

theorem TableInv.tidy {s : State} (h : TableInv s) (he : s.err = false) : Tidy s := ⟨h.sound, h.hidden he⟩

theorem tableInv_iff {s : State} : TableInv s ↔ TablesSound s ∧ (s.err = false → s.pq = [] ∧ s.stack = []) := by
  constructor
  · exact fun h => ⟨h.sound, h.hidden⟩
  · rintro ⟨⟨⟨hfreq, harena⟩, hcodes, hfresh⟩, hidden⟩
    exact ⟨hfreq, harena, hcodes, hfresh, hidden⟩

theorem Tidy.tableInv {s : State} (h : Tidy s) : TableInv s := tableInv_iff.mpr ⟨h.1, fun _ => h.2⟩

/-- In an error state nothing is said of the queue and the stack (R38). -/
theorem tableInv_raiseErr {e : Err} {s : State} (h : TablesSound s) : TableInv (raiseErr e s) :=
  tableInv_iff.mpr ⟨h, fun he => Bool.noConfusion he⟩

/-- A command whose run keeps the tables keeps the table invariant. -/
theorem tableInv_issue {run : State → Run} {s t : State} (hs : TableInv s)
    (hrun : ∀ u, Tidy u → (run u).EndsIn Tidy TablesSound) (h : issue run s = .next t) : TableInv t := by
  rcases issue_next h with ⟨_, rfl⟩ | ⟨⟨_, he⟩, hend⟩
  · exact hs
  · have ha : Tidy (accept s) := hs.tidy he
    have hm := hrun _ ha
    rcases hend with ⟨u, hu, rfl⟩ | ⟨e, u, hu, rfl⟩ <;> rw [hu] at hm
    · exact Tidy.tableInv (s := finish u) hm
    · exact tableInv_raiseErr hm

/-- A member keeps the tables if its body does whenever the precondition holds; E_SEQUENCE writes no table. -/
theorem primitive_tidy {i : Instr} {body : State → Run} {s : State} (hs : Tidy s)
    (hbody : Tidy (setPhase i s) → precondition i s = true → (body (setPhase i s)).EndsIn Tidy TablesSound) :
    (primitive i body s).EndsIn Tidy TablesSound := by
  unfold primitive
  split
  next hp => exact hbody hs hp
  next => exact hs.1

/-- A body that ends in tidy states only, whichever way it ends. -/
theorem endsIn_tidy {r : Run} (h : r.Ends Tidy) : r.EndsIn Tidy TablesSound := endsIn_of_ends h fun _ ht => ht.1

/-! ### Members that write no table -/

theorem runWrmagic_tidy {s : State} (h : Tidy s) : (runWrmagic s).EndsIn Tidy TablesSound :=
  primitive_tidy h fun ht _ => ht

theorem runRewind_tidy {s : State} (h : Tidy s) : (runRewind s).EndsIn Tidy TablesSound :=
  primitive_tidy h fun ht _ => ht

theorem runFlush_tidy {s : State} (h : Tidy s) : (runFlush s).EndsIn Tidy TablesSound :=
  primitive_tidy h fun ht _ => ht

theorem runEncode_tidy {s : State} (h : Tidy s) : (runEncode s).EndsIn Tidy TablesSound :=
  primitive_tidy h fun ht _ => endsIn_tidy (ends_mono (encodeLoop_frame _ _) fun _ ⟨_, _, e⟩ => e ▸ ht)

/-- Everything RDMAGIC's check can write: the read position (43_header_codec.md R160). -/
theorem rdmagicBody_frame (s : State) :
    (rdmagicBody s).Ends fun t => ∃ p, t = { s with inp := { s.inp with pos := p } } := by
  have hp := inRead_frame 32 s
  unfold rdmagicBody
  split
  next u hu => rwa [hu] at hp
  next m u hu =>
    rw [hu] at hp
    split <;> exact hp

theorem runRdmagic_tidy {s : State} (h : Tidy s) : (runRdmagic s).EndsIn Tidy TablesSound :=
  primitive_tidy h fun ht _ => endsIn_tidy (ends_mono (rdmagicBody_frame _) fun _ ⟨_, e⟩ => e ▸ ht)

/-- Everything DECODE can write, the one-leaf trie included (44_stream_transcoder.md R185, R186). -/
theorem decodeBody_frame (s : State) : (decodeBody s).Ends fun t => ∃ c p q,
    t = { s with cur := c, inp := { s.inp with pos := p }, out := s.out ++ q } := by
  unfold decodeBody
  split
  · split <;> exact ⟨s.cur, s.inp.pos, [], by simp⟩
  · exact ends_mono (decodeLoop_frame _ _) fun _ h => h

theorem runDecode_tidy {s : State} (h : Tidy s) : (runDecode s).EndsIn Tidy TablesSound :=
  primitive_tidy h fun ht _ => endsIn_tidy (ends_mono (decodeBody_frame _) fun _ ⟨_, _, _, e⟩ => e ▸ ht)

/-! ### CLRFREQ and COUNT: a valid Frequency Table counts the pseudo-symbol once -/

/-- The tables stay sound under another Frequency Table that is not valid or counts the pseudo-symbol once (R31). -/
theorem Tidy.withFreq {s : State} {f : Vector Word 257} {v : Bool} (h : Tidy s)
    (hf : v = true → f[eosSymbol] = 1#32) : Tidy { s with freq := f, freqValid := v } := by
  obtain ⟨⟨⟨_, harena⟩, hsound⟩, hhidden⟩ := h
  exact ⟨⟨⟨hf, harena⟩, hsound⟩, hhidden⟩

theorem emptyFreq_eos : emptyFreq[eosSymbol] = 1#32 := by simp [emptyFreq, eosSymbol]

theorem runClrfreq_tidy {s : State} (h : Tidy s) : (runClrfreq s).EndsIn Tidy TablesSound :=
  primitive_tidy h fun ht _ => ht.withFreq fun _ => emptyFreq_eos

theorem runCount_tidy {s : State} (h : Tidy s) : (runCount s).EndsIn Tidy TablesSound :=
  primitive_tidy h fun ht _ => by
    have hloop : (countLoop (s.inp.bits.length + 1)
        { setPhase .count s with freqValid := false, freq := Vector.replicate 257 0#32 }).Ends Tidy :=
      ends_mono (countLoop_frame _ _) fun _ ⟨f, _, e⟩ =>
        e ▸ (ht.withFreq (f := f) (v := false) fun hv => Bool.noConfusion hv)
    exact endsIn_bind (endsIn_tidy hloop) fun u hu => hu.withFreq fun _ => by simp [eosSymbol]

/-! ### WRHDR and GENCODE: the walk of a trie ends with an empty stack -/

/-- A push that finds room puts its entry on top (10_state.md R37). -/
theorem pushRun_ends (e : StackEntry) (s : State) :
    (pushRun e s).Ends fun t => t = { s with stack := e :: s.stack } := by
  rcases Nat.lt_or_ge s.stack.length 513 with h | h
  · rw [pushRun_room h]
    exact rfl
  · simp [pushRun, push, Nat.not_lt.mpr h]

theorem wrhdrLoop_stack (fuel : Nat) (s : State) :
    (wrhdrLoop fuel s).EndsIn (fun t => t.stack = []) fun _ => True := by
  induction fuel generalizing s with
  | zero =>
    unfold wrhdrLoop
    split
    next hs => exact hs
    next => trivial
  | succ fuel ih =>
    unfold wrhdrLoop
    split
    next hs => exact hs
    next e rest _ =>
      split
      · exact ih _
      · exact endsIn_bind (endsIn_trivial _) fun t _ => ih t

theorem runWrhdr_tidy {s : State} (h : Tidy s) : (runWrhdr s).EndsIn Tidy TablesSound :=
  primitive_tidy h fun ⟨hsound, hpq, _⟩ _ => by
    have hframe : (wrhdrBody (setPhase .wrhdr s)).Ends fun u => TablesSound u ∧ u.pq = [] :=
      ends_mono (wrhdrLoop_frame _ _) fun _ ⟨_, _, e⟩ => e ▸ ⟨hsound, hpq⟩
    exact endsIn_mono ((wrhdrLoop_stack _ _).and hframe.endsIn) (fun _ ⟨hst, hu, hq⟩ => ⟨hu, hq, hst⟩)
      fun _ ⟨_, hu, _⟩ => hu

/-- Two pushes that find room, the second on top (10_state.md R37). -/
theorem pushRun_pair (a b : StackEntry) (s : State) :
    ((pushRun a s).bind (pushRun b)).EndsIn (fun t => t = { s with stack := b :: a :: s.stack }) fun _ => True := by
  refine endsIn_bind (endsIn_of_ends (pushRun_ends a s) fun _ _ => trivial) ?_
  rintro _ rfl
  exact endsIn_of_ends (pushRun_ends b _) fun _ _ => trivial

/-- One step of R146: a leaf's path becomes its Symbol's code. -/
def storeCode (c : Vector CodeEntry 257) (e : Nat × Bits) : Vector CodeEntry 257 :=
  if h : e.1 < 257 then
    c.set e.1 { valid := true, len := BitVec.ofNat 9 e.2.length, val := BitVec.ofNat 256 (valOf e.2) } h
  else c

theorem codeTable_eq (t : Trie) :
    codeTable t = (t.paths []).foldl storeCode (Vector.replicate 257 CodeEntry.blank) := rfl

/-- A stack entry of GENCODE stands for a trie of the arena and the path that leads to it (10_state.md R37). -/
def Visits (node : Vector Node 513) (e : StackEntry) (x : Trie × Bits) : Prop :=
  (∃ ids, TreeAt node e.node x.1 ids) ∧ e.len = BitVec.ofNat 9 x.2.length ∧ e.path = BitVec.ofNat 256 (valOf x.2)

/-- A path's length and value under one more edge (00_scope.md R15). -/
theorem visits_child {node : Vector Node 513} {e : StackEntry} {t u : Trie} {p : Bits} {i : NodeIx}
    {ids : List NodeIx} (b : Bool) (h : Visits node e (t, p)) (hu : TreeAt node i u ids) :
    Visits node (pathEntry i (e.len + 1#9) (extendPath e.path b)) (u, p ++ [b]) := by
  obtain ⟨_, hlen, hpath⟩ := h
  refine ⟨⟨ids, hu⟩, ?_, ?_⟩
  · simp [pathEntry, hlen, BitVec.ofNat_add]
  · simp only [pathEntry, extendPath, hpath, valOf_concat]
    apply BitVec.eq_of_toNat_eq
    cases b <;> simp <;> omega

/-- The codes of the tries still to visit, in the order of the walk. -/
def codesOf (l : List (Trie × Bits)) : List (Nat × Bits) := l.flatMap fun x => x.1.paths x.2

theorem codesOf_leaf (sym w : Nat) (p : Bits) (l : List (Trie × Bits)) :
    codesOf ((.leaf sym w, p) :: l) = (sym, p) :: codesOf l := rfl

theorem codesOf_node (v w : Nat) (l r : Trie) (p : Bits) (rest : List (Trie × Bits)) :
    codesOf ((.node v w l r, p) :: rest) = codesOf ((l, p ++ [false]) :: (r, p ++ [true]) :: rest) := by
  simp [codesOf, Trie.paths]

/-- GENCODE's walk stores the codes of the tries on the stack, in pre-order (42_code_table.md R146). -/
theorem gencodeLoop_codes {fuel : Nat} {s : State} {l : List (Trie × Bits)}
    (h : List.Forall₂ (Visits s.node) s.stack l) :
    (gencodeLoop fuel s).EndsIn (fun t => t.stack = [] ∧ t.code = (codesOf l).foldl storeCode s.code)
      fun _ => True := by
  induction fuel generalizing s l with
  | zero =>
    unfold gencodeLoop
    split
    next hs =>
      rw [hs, List.forall₂_nil_left_iff] at h
      exact ⟨hs, by rw [h]; rfl⟩
    next => trivial
  | succ fuel ih =>
    unfold gencodeLoop
    split
    next hs =>
      rw [hs, List.forall₂_nil_left_iff] at h
      exact ⟨hs, by rw [h]; rfl⟩
    next e rest hs =>
      rw [hs] at h
      obtain ⟨⟨t, p⟩, l, hv, hl, rfl⟩ := List.forall₂_cons_left_iff.mp h
      obtain ⟨⟨ids, ht⟩, hlen, hpath⟩ := id hv
      dsimp only at ht hlen hpath
      split
      next hk =>
        split
        next hsym =>
          cases ht with
          | node _ _ _ _ _ hn => rw [hk] at hn; cases hn
          | leaf =>
            refine endsIn_mono (ih hl) (fun u ⟨hst, hc⟩ => ⟨hst, ?_⟩) fun _ _ => trivial
            rw [hc, codesOf_leaf, List.foldl_cons, storeCode, dif_pos hsym, hlen, hpath]
        next => trivial
      next hk =>
        cases ht with
        | leaf _ hn => exact absurd hn hk
        | node _ tl tr is js _ htl htr =>
          rw [codesOf_node]
          refine endsIn_bind (pushRun_pair _ _ _) ?_
          rintro _ rfl
          exact ih (.cons (visits_child false hv htl) (.cons (visits_child true hv htr) hl))

/-- From the root alone on the stack and a cleared table, the walk leaves the trie's Code Table (R146). -/
theorem gencodeLoop_codeTable {fuel : Nat} {s : State} {t : Trie} {ids : List NodeIx}
    (ht : TreeAt s.node s.root t ids) (hstack : s.stack = [pathEntry s.root 0#9 0#256])
    (hcode : s.code = Vector.replicate 257 CodeEntry.blank) :
    (gencodeLoop fuel s).EndsIn (fun u => u.stack = [] ∧ u.code = codeTable t) fun _ => True := by
  have hroot : Visits s.node (pathEntry s.root 0#9 0#256) (t, []) := ⟨⟨ids, ht⟩, rfl, rfl⟩
  have hwalk : List.Forall₂ (Visits s.node) s.stack [(t, [])] := by
    rw [hstack]
    exact .cons hroot .nil
  have hloop := gencodeLoop_codes (fuel := fuel) hwalk
  rwa [hcode, codesOf, List.flatMap_singleton, ← codeTable_eq] at hloop

/-- A Code Table of the trie that stands in the arena may be declared valid (R34, R53). -/
theorem TablesSound.withCode {s : State} {t : Trie} {ids : List NodeIx} {c : Vector CodeEntry 257}
    (h : TablesSound s) (hv : s.trieValid = true) (ht : TreeAt s.node s.root t ids) (hc : c = codeTable t) :
    TablesSound { s with code := c, codesValid := true } := by
  obtain ⟨husable, _, hfresh⟩ := h
  exact ⟨husable, fun _ => ⟨hv, t, ids, ht, hc⟩, hfresh⟩

theorem runGencode_tidy {s : State} (h : Tidy s) : (runGencode s).EndsIn Tidy TablesSound :=
  primitive_tidy h fun ⟨hsound, hpq, _⟩ hp => by
    have hv : (setPhase .gencode s).trieValid = true := hp
    obtain ⟨t, ids, ht, -⟩ := hsound.1.2 hv
    have hloop := (gencodeLoop_codeTable (fuel := 513) (s := { setPhase .gencode s with
        codesValid := false
        code := Vector.replicate 257 CodeEntry.blank
        stack := [pathEntry s.root 0#9 0#256] }) ht rfl rfl).and
      ((gencodeLoop_frame _ _).endsIn)
    refine endsIn_bind (endsIn_mono hloop (fun _ h => h) ?_) ?_
    · rintro _ ⟨_, c, st, rfl⟩
      exact ⟨hsound.1, fun hc => Bool.noConfusion hc, hsound.2.2⟩
    · rintro _ ⟨⟨hst, hc⟩, c, st, rfl⟩
      exact ⟨hsound.withCode hv ht hc, hpq, hst⟩

/-! ### BUILD and RDHDR: what they start they finish, or leave the trie invalid -/

/-- Between the start of BUILD or RDHDR and its end (10_state.md R28): no codes are valid, and the reset values of
`ROOT` and `NNODES` are given up. -/
def Rebuilding (s : State) : Prop :=
  (s.freqValid = true → s.freq[eosSymbol] = 1#32) ∧ s.codesValid = false ∧ s.trieStarted = true

theorem TablesSound.startTrie {s : State} (h : TablesSound s) : Rebuilding (startTrie s) := ⟨h.1.1, rfl, rfl⟩

/-- While a trie is rebuilt the tables are sound as soon as the trie, if valid, is well formed. -/
theorem Rebuilding.sound {s : State} (h : Rebuilding s) (ha : s.trieValid = true → ArenaWf s) : TablesSound s := by
  obtain ⟨hfreq, hcodes, hstarted⟩ := h
  exact ⟨⟨hfreq, ha⟩, fun hc => by simp [hcodes] at hc, fun hs => by simp [hstarted] at hs⟩

/-- BUILD's second and third phase end well with an empty queue, or raise with the trie still invalid. -/
theorem combineLoop_queue {fuel : Nat} {s : State} (h : s.trieValid = false) :
    (combineLoop fuel s).EndsIn (fun t => t.pq = []) fun t => t.trieValid = false := by
  induction fuel generalizing s with
  | zero => trivial
  | succ fuel ih =>
    unfold combineLoop
    split
    next => trivial
    next => exact rfl
    next a b rest _ =>
      split
      next =>
        refine endsIn_bind (P' := fun t => t.trieValid = false) ?_ fun _ ht => ih ht
        exact (ends_mono (addToQueue_frame _ _) fun _ ⟨_, _, _, _, e⟩ => e ▸ h).endsIn
      next => exact h

theorem runBuild_tidy {s : State} (h : Tidy s) : (runBuild s).EndsIn Tidy TablesSound :=
  primitive_tidy h fun ⟨hsound, _, hstack⟩ hp => by
    have harena := runBuild_completes h.1.1.1
    rw [runBuild, primitive_allowed hp] at harena
    have hend : (buildBody (setPhase .build s)).EndsIn (fun t => (Rebuilding t ∧ t.stack = []) ∧ t.pq = [])
        fun t => (Rebuilding t ∧ t.stack = []) ∧ t.trieValid = false := by
      have hstart : Rebuilding (startTrie (setPhase .build s)) := hsound.startTrie
      have hleaf : (leafLoop (List.finRange 257)
          { startTrie (setPhase .build s) with seq := 0, pq := [] }).Ends
            fun t => (Rebuilding t ∧ t.stack = []) ∧ t.trieValid = false :=
        ends_mono (leafLoop_frame _ _) fun _ ⟨_, _, _, _, e⟩ => e ▸ ⟨⟨hstart, hstack⟩, rfl⟩
      refine endsIn_bind hleaf.endsIn fun t ⟨ht, hv⟩ => ?_
      have hframe : (combineLoop (t.pq.length + 1) t).Ends fun u => Rebuilding u ∧ u.stack = [] :=
        ends_mono (combineLoop_frame _ _) fun _ ⟨_, _, _, _, _, _, e⟩ => e ▸ ht
      exact hframe.endsIn.and (combineLoop_queue hv)
    refine endsIn_mono (hend.and (endsIn_of_completes harena)) ?_ ?_
    · rintro t ⟨⟨⟨ht, hst⟩, hq⟩, ha⟩
      exact ⟨ht.sound fun _ => ha, hq, hst⟩
    · rintro t ⟨⟨⟨ht, _⟩, hv⟩, _⟩
      exact ht.sound fun hv' => by simp [hv] at hv'

/-! ### RDHDR: the arena is a trie in the making, whose open ends are on the stack -/

/-- A waiting node whose left child is there (43_header_codec.md R161). -/
def rightEntry (i : NodeIx) : StackEntry := { waitEntry i with slot := .right }

/-- What stands in the arena at an index while a header is read: a trie of whose internal nodes some still wait for a
child, with the indices met in pre-order and the waiting nodes, the innermost first (10_state.md R37). -/
inductive PartialAt (node : Vector Node 513) : NodeIx → List NodeIx → List StackEntry → Prop
  | leaf (i : NodeIx) (hk : (node[i]).kind = true) (hv : (node[i]).value.toNat ≤ 256) : PartialAt node i [i] []
  | fresh (i : NodeIx) (hk : (node[i]).kind = false) : PartialAt node i [i] [waitEntry i]
  | half (i : NodeIx) (is : List NodeIx) (ws : List StackEntry) (hk : (node[i]).kind = false)
      (hl : PartialAt node (node[i]).left is ws) : PartialAt node i (i :: is) (ws ++ [rightEntry i])
  | full (i : NodeIx) (is js : List NodeIx) (ws : List StackEntry) (hk : (node[i]).kind = false)
      (hl : PartialAt node (node[i]).left is []) (hr : PartialAt node (node[i]).right js ws) :
      PartialAt node i (i :: (is ++ js)) ws

theorem PartialAt.waiting_mem {node : Vector Node 513} {i : NodeIx} {ids : List NodeIx} {ws : List StackEntry}
    (h : PartialAt node i ids ws) : ∀ w ∈ ws, w.node ∈ ids := by
  induction h with
  | leaf => simp
  | fresh i => simp [waitEntry]
  | half i is ws _ _ ih =>
    intro w hw
    rcases List.mem_append.mp hw with hw | hw
    · exact List.mem_cons_of_mem _ (ih w hw)
    · simp [List.mem_singleton.mp hw, rightEntry, waitEntry]
  | full i is js ws _ _ _ _ ih =>
    exact fun w hw => List.mem_cons_of_mem _ (List.mem_append_right _ (ih w hw))

/-- Like a trie, it is read off the entries it reaches only. -/
theorem PartialAt.congr {node node' : Vector Node 513} {i : NodeIx} {ids : List NodeIx} {ws : List StackEntry}
    (h : PartialAt node i ids ws) (hn : ∀ j ∈ ids, node'[j] = node[j]) : PartialAt node' i ids ws := by
  induction h with
  | leaf i hk hv =>
    have e := hn i (by simp)
    exact .leaf i (e ▸ hk) (e ▸ hv)
  | fresh i hk => exact .fresh i (hn i (by simp) ▸ hk)
  | half i is ws hk _ ih =>
    have e := hn i (by simp)
    have kl := ih fun j hj => hn j (by simp [hj])
    exact .half i is ws (e ▸ hk) (e ▸ kl)
  | full i is js ws hk _ _ ihl ihr =>
    have e := hn i (by simp)
    have kl := ihl fun j hj => hn j (by simp [hj])
    have kr := ihr fun j hj => hn j (by simp [hj])
    exact .full i is js ws (e ▸ hk) (e ▸ kl) (e ▸ kr)

/-- When no node waits any more it is a trie, with Symbols on its leaves. -/
theorem PartialAt.trie {node : Vector Node 513} {i : NodeIx} {ids : List NodeIx} (h : PartialAt node i ids []) :
    ∃ t, TreeAt node i t ids ∧ ∀ x ∈ t.symbols, x ≤ 256 := by
  generalize hws : ([] : List StackEntry) = ws at h
  induction h with
  | leaf i hk hv => exact ⟨_, .leaf i hk, by simpa [Trie.symbols] using hv⟩
  | fresh => cases hws
  | half => simp at hws
  | full i is js ws hk _ _ ihl ihr =>
    obtain ⟨l, hl, hsl⟩ := ihl rfl
    obtain ⟨r, hr, hsr⟩ := ihr hws
    refine ⟨_, .node i l r is js hk hl hr, fun x hx => ?_⟩
    exact (List.mem_append.mp hx).elim (hsl x) (hsr x)

/-- The link a waiting node gets (43_header_codec.md R161). -/
def linked (nd : Node) (slot : Slot) (j : NodeIx) : Node :=
  match slot with
  | .left => { nd with left := j }
  | .right => { nd with right := j }

/-- What is left of a stack entry once its node has got a child: a node with a left child waits for the right one. -/
def stillWaiting (w : StackEntry) : List StackEntry :=
  match w.slot with
  | .left => [{ w with slot := .right }]
  | .right => []

theorem hangNode_cons {j : NodeIx} {s : State} {w : StackEntry} {ws : List StackEntry} (h : s.stack = w :: ws) :
    hangNode j s = { s with
      node := s.node.set w.node.val (linked s.node[w.node] w.slot j) w.node.isLt
      stack := stillWaiting w ++ ws } := by
  unfold hangNode linked stillWaiting
  rw [h]
  dsimp only
  cases w.slot <;> rfl

/-- Hanging a part under the innermost waiting node puts its indices and its waiting nodes behind and in front. -/
theorem PartialAt.hang {node node' : Vector Node 513} {i j : NodeIx} {ids js : List NodeIx} {w : StackEntry}
    {ws vs : List StackEntry} (h : PartialAt node i ids (w :: ws)) (hnodup : ids.Nodup)
    (hw : node'[w.node] = linked node[w.node] w.slot j) (hn : ∀ k ∈ ids, k ≠ w.node → node'[k] = node[k])
    (hj : PartialAt node' j js vs) : PartialAt node' i (ids ++ js) (vs ++ (stillWaiting w ++ ws)) := by
  generalize hwws : w :: ws = wws at h
  induction h generalizing ws with
  | leaf => cases hwws
  | fresh i hk =>
    cases hwws
    have hl : (node'[i]).left = j := by rw [show node'[i] = _ from hw]; rfl
    have hk' : (node'[i]).kind = false := by rw [show node'[i] = _ from hw]; exact hk
    exact .half i js vs hk' (hl ▸ hj)
  | half i is us hk hl ih =>
    obtain ⟨hi, his⟩ := List.nodup_cons.mp hnodup
    cases us with
    | nil =>
      cases hwws
      have hr : (node'[i]).right = j := by rw [show node'[i] = _ from hw]; rfl
      have hk' : (node'[i]).kind = false := by rw [show node'[i] = _ from hw]; exact hk
      have hleft : (node'[i]).left = (node[i]).left := by rw [show node'[i] = _ from hw]; rfl
      have hl' : PartialAt node' (node'[i]).left is [] := by
        rw [hleft]
        exact hl.congr fun k hk => hn k (List.mem_cons_of_mem _ hk) fun (e : k = i) => hi (e ▸ hk)
      have := PartialAt.full i is js vs hk' hl' (hr ▸ hj)
      simpa [stillWaiting, rightEntry] using this
    | cons u us =>
      cases hwws
      have hwi : i ≠ w.node := fun e => hi (e ▸ hl.waiting_mem w List.mem_cons_self)
      have e : node'[i] = node[i] := hn i List.mem_cons_self hwi
      have := ih his (fun k hk => hn k (List.mem_cons_of_mem _ hk)) rfl
      rw [← e] at hk this
      simpa using PartialAt.half i _ _ hk this
  | full i is ks us hk hl hr ihl ihr =>
    subst hwws
    obtain ⟨hi, hnodup⟩ := List.nodup_cons.mp hnodup
    obtain ⟨_, hks, hdisj⟩ := List.nodup_append.mp hnodup
    have hwks : w.node ∈ ks := hr.waiting_mem w List.mem_cons_self
    have e : node'[i] = node[i] :=
      hn i List.mem_cons_self fun e => hi (e ▸ List.mem_append_right _ hwks)
    have kl : PartialAt node' (node[i]).left is [] := hl.congr fun k hk =>
      hn k (List.mem_cons_of_mem _ (List.mem_append_left _ hk)) (hdisj k hk _ hwks)
    have kr := ihr hks (fun k hk => hn k (List.mem_cons_of_mem _ (List.mem_append_right _ hk))) rfl
    rw [← e] at hk kl kr
    simpa using PartialAt.full i _ _ _ hk kl kr

/-- The waiting node a record brings: an internal node waits for its left child (43_header_codec.md R161). -/
def newWaiting (r : HdrRecord) (i : NodeIx) : List StackEntry :=
  match r with
  | .internal => [waitEntry i]
  | .leaf _ => []

/-- The part of a trie that a record alone is. -/
theorem partialAt_record {node : Vector Node 513} {r : HdrRecord} {i : NodeIx} (hwf : r.instr.wf = true)
    (h : node[i] = nodeOfRecord r) : PartialAt node i [i] (newWaiting r i) := by
  cases r with
  | internal => exact .fresh i (by rw [h]; rfl)
  | leaf sym =>
    have hv : sym.toNat ≤ 256 := by simpa [HdrRecord.instr, Instr.wf] using hwf
    refine .leaf i (by rw [h]; rfl) ?_
    rw [h]
    simp only [nodeOfRecord, BitVec.toNat_setWidth]
    omega

/-- Taking a record with room in the arena: store it, hang it, and let an internal node wait (R161). -/
theorem takeRecord_ends {r : HdrRecord} {s : State} (hroom : s.nnodes.val < 513) :
    (takeRecord r s).Ends fun t => ∃ u, u = hangNode ⟨s.nnodes.val, hroom⟩
        { s with node := s.node.set s.nnodes.val (nodeOfRecord r), nnodes := nextCount s.nnodes }
      ∧ t = { u with stack := newWaiting r ⟨s.nnodes.val, hroom⟩ ++ u.stack } := by
  rw [takeRecord, allocNode_room hroom]
  cases r with
  | internal => exact ends_mono (pushRun_ends _ _) fun _ e => ⟨_, rfl, e⟩
  | leaf sym => exact ⟨_, rfl, rfl⟩

/-- While a header is read, what stands at index 0 covers the allocated entries, and the stack holds its waiting
nodes (R161, R163). -/
def PartialHeader (s : State) : Prop :=
  ∃ ids, PartialAt s.node 0 ids s.stack ∧ ids.Nodup ∧ ∀ j : NodeIx, j ∈ ids ↔ j.val < s.nnodes.val

/-- The first record stands at index 0. -/
theorem takeRecord_first {r : HdrRecord} {s : State} (hwf : r.instr.wf = true) (hn : s.nnodes = 0)
    (hstack : s.stack = []) : (takeRecord r s).Ends PartialHeader := by
  have hroom : s.nnodes.val < 513 := by simp [hn]
  have hzero : (⟨s.nnodes.val, hroom⟩ : NodeIx) = 0 := Fin.ext (by simp [hn])
  have hcount := nextCount_val hroom
  refine ends_mono (takeRecord_ends hroom) ?_
  rintro _ ⟨u, hu, rfl⟩
  rw [hangNode, hstack] at hu
  subst hu
  refine ⟨[0], ?_, by simp, fun j => ?_⟩
  · have := partialAt_record (node := s.node.set s.nnodes.val (nodeOfRecord r)) (i := ⟨s.nnodes.val, hroom⟩) hwf
      (by simp)
    rw [hzero] at this ⊢
    simpa using this
  · rw [hcount, hn, List.mem_singleton, Fin.ext_iff]
    simp

/-- A later record is hung under the innermost waiting node. -/
theorem takeRecord_next {r : HdrRecord} {s : State} (hwf : r.instr.wf = true) (hroom : s.nnodes.val < 513)
    (h : PartialHeader s) (hstack : s.stack ≠ []) : (takeRecord r s).Ends PartialHeader := by
  obtain ⟨ids, hp, hnodup, hmem⟩ := h
  obtain ⟨w, ws, hs⟩ := List.exists_cons_of_ne_nil hstack
  have hcount := nextCount_val hroom
  rw [hs] at hp
  have hw : w.node.val < s.nnodes.val := (hmem _).mp (hp.waiting_mem w List.mem_cons_self)
  refine ends_mono (takeRecord_ends hroom) ?_
  rintro _ ⟨u, hu, rfl⟩
  replace hu := hu.trans (hangNode_cons hs)
  subst hu
  have hnew : (⟨s.nnodes.val, hroom⟩ : NodeIx) ∉ ids := fun hi => lt_irrefl _ ((hmem _).mp hi)
  refine ⟨ids ++ [⟨s.nnodes.val, hroom⟩], ?_, ?_, fun j => ?_⟩
  · refine hp.hang hnodup (j := ⟨s.nnodes.val, hroom⟩) ?_ (fun k hk hkw => ?_) (partialAt_record hwf ?_)
    · simp [hw.ne']
    · have hk' := (hmem k).mp hk
      have hne : w.node.val ≠ k.val := fun e => hkw (Fin.ext e.symm)
      simp [Vector.getElem_set, hk'.ne', hne]
    · simp [Vector.getElem_set, hw.ne]
  · rw [List.nodup_append]
    refine ⟨hnodup, List.nodup_singleton _, fun k hk l hl e => ?_⟩
    rw [List.mem_singleton] at hl
    exact hnew (hl ▸ e ▸ hk)
  · rw [List.mem_append, hmem, List.mem_singleton, Fin.ext_iff, hcount]
    dsimp only
    omega

/-- A record that RDHDR reads is well formed (30_encoding.md R100). -/
theorem readRecord_wf {s t : State} {r : HdrRecord} (h : readRecord s = (.ok r, t)) : r.instr.wf = true := by
  unfold readRecord at h
  split at h
  next => cases h
  next =>
    split at h
    · split at h
      next => cases h
      next f _ _ =>
        unfold decodeSymbol at h
        by_cases hf : f.toNat ≤ 256
        · rw [if_pos hf] at h
          cases h
          simpa [HdrRecord.instr, Instr.wf] using hf
        · rw [if_neg hf] at h
          cases h
    · cases h
      rfl

/-- A header whose nodes all have their children is a well-formed arena (10_state.md R40). -/
theorem PartialHeader.arenaWf {s : State} (h : PartialHeader s) (hstack : s.stack = []) : ArenaWf (endHeader s) := by
  obtain ⟨ids, hp, hnodup, hmem⟩ := h
  rw [hstack] at hp
  obtain ⟨t, ht, hsym⟩ := hp.trie
  exact ⟨t, ids, ht, hnodup, hmem, hsym⟩

/-- Before the first record, or in the middle of a header. -/
def HeaderOpen (s : State) : Prop := (s.nnodes = 0 ∧ s.stack = []) ∨ (PartialHeader s ∧ s.stack ≠ [])

/-- A record taken leaves a part of a header, whose trie is no more valid than before. -/
theorem takeRecord_header {r : HdrRecord} {s : State} (hwf : r.instr.wf = true) (hroom : s.nnodes.val < 513)
    (h : HeaderOpen s) (hv : s.trieValid = false) :
    (takeRecord r s).EndsIn (fun t => PartialHeader t ∧ t.trieValid = false) fun t => t.trieValid = false := by
  have hvalid : (takeRecord r s).Ends fun t => t.trieValid = false :=
    ends_mono (takeRecord_frame r s) fun _ ⟨_, _, _, e⟩ => e ▸ hv
  have hpart : (takeRecord r s).Ends PartialHeader := by
    rcases h with ⟨hn, hstack⟩ | ⟨hp, hstack⟩
    · exact takeRecord_first hwf hn hstack
    · exact takeRecord_next hwf hroom hp hstack
  exact endsIn_mono (hpart.endsIn.and hvalid.endsIn) (fun _ ht => ht) fun _ ⟨_, ht⟩ => ht

/-- RDHDR's loop ends well with a well-formed arena and an empty stack, or raises with the trie still invalid (R161). -/
theorem rdhdrLoop_header {fuel : Nat} {s : State} (h : HeaderOpen s) (hv : s.trieValid = false) :
    (rdhdrLoop fuel s).EndsIn (fun t => ArenaWf t ∧ t.stack = []) fun t => t.trieValid = false := by
  induction fuel generalizing s with
  | zero => trivial
  | succ fuel ih =>
    unfold rdhdrLoop
    split
    next => exact hv
    next hfull =>
      obtain ⟨p, hp⟩ := readRecord_frame s
      split
      next e t ht =>
        rw [ht] at hp
        dsimp only at hp
        exact show t.trieValid = false from hp ▸ hv
      next r t ht =>
        rw [ht] at hp
        dsimp only at hp
        have hopen : HeaderOpen t := hp ▸ h
        have hvt : t.trieValid = false := hp ▸ hv
        have hroom : t.nnodes.val < 513 := by
          have hn : t.nnodes = s.nnodes := hp ▸ rfl
          rw [hn]
          omega
        refine endsIn_bind (takeRecord_header (readRecord_wf ht) hroom hopen hvt) ?_
        rintro u ⟨hu, hvu⟩
        split
        next hst => exact ⟨hu.arenaWf (List.isEmpty_iff.mp hst), List.isEmpty_iff.mp hst⟩
        next hst => exact ih (.inr ⟨hu, fun e => hst (List.isEmpty_iff.mpr e)⟩) hvu

theorem runRdhdr_tidy {s : State} (h : Tidy s) : (runRdhdr s).EndsIn Tidy TablesSound :=
  primitive_tidy h fun ⟨hsound, hpq, _⟩ _ => by
    have hstart : Rebuilding (startTrie (setPhase .rdhdr s)) := hsound.startTrie
    have hframe : (rdhdrBody (setPhase .rdhdr s)).Ends fun t => Rebuilding t ∧ t.pq = [] :=
      ends_mono (rdhdrLoop_frame _ _) fun _ ⟨_, _, _, _, _, _, e⟩ => e ▸ ⟨hstart, hpq⟩
    have hend : (rdhdrBody (setPhase .rdhdr s)).EndsIn _ _ := rdhdrLoop_header (.inl ⟨rfl, rfl⟩) rfl
    refine endsIn_mono (hend.and hframe.endsIn) ?_ ?_
    · rintro t ⟨⟨ha, hst⟩, ht, hq⟩
      exact ⟨ht.sound fun _ => ha, hq, hst⟩
    · rintro t ⟨hv, ht, _⟩
      exact ht.sound fun hv' => by simp [hv] at hv'

/-! ### Every command keeps the tables -/

theorem runCompress_tidy {s : State} (h : Tidy s) : (runCompress s).EndsIn Tidy TablesSound :=
  endsIn_bind (runCount_tidy h) fun _ h1 =>
  endsIn_bind (runBuild_tidy h1) fun _ h2 =>
  endsIn_bind (runGencode_tidy h2) fun _ h3 =>
  endsIn_bind (runWrmagic_tidy h3) fun _ h4 =>
  endsIn_bind (runWrhdr_tidy h4) fun _ h5 =>
  endsIn_bind (runRewind_tidy h5) fun _ h6 =>
  endsIn_bind (runEncode_tidy h6) fun _ h7 =>
  runFlush_tidy h7

theorem runDecompress_tidy {s : State} (h : Tidy s) : (runDecompress s).EndsIn Tidy TablesSound :=
  endsIn_bind (runRdmagic_tidy h) fun _ h1 =>
  endsIn_bind (runRdhdr_tidy h1) fun _ h2 =>
  runDecode_tidy h2

theorem commandRun_tidy (i : Instr) {s : State} (h : Tidy s) : (commandRun i s).EndsIn Tidy TablesSound := by
  cases i with
  | clrfreq => exact runClrfreq_tidy h
  | count => exact runCount_tidy h
  | build => exact runBuild_tidy h
  | gencode => exact runGencode_tidy h
  | wrmagic => exact runWrmagic_tidy h
  | wrhdr => exact runWrhdr_tidy h
  | rewind => exact runRewind_tidy h
  | encode => exact runEncode_tidy h
  | flush => exact runFlush_tidy h
  | rdmagic => exact runRdmagic_tidy h
  | rdhdr => exact runRdhdr_tidy h
  | decode => exact runDecode_tidy h
  | compress => exact runCompress_tidy h
  | decompress => exact runDecompress_tidy h
  | magicWord | hdrInternal | hdrLeaf _ => exact h

/-! ### The host's moves keep the tables -/

theorem tableInv_writeCmd {w : Word} {s t : State} (hs : TableInv s) (h : writeCmd w s = .next t) : TableInv t := by
  rcases writeCmd_cases w s with ⟨i, _, hi⟩ | hr
  · exact tableInv_issue hs (fun _ hu => commandRun_tidy i hu) (hi ▸ h)
  · rw [hr] at h
    cases h
    unfold rejectWord
    split
    · exact hs
    · exact tableInv_raiseErr hs.sound

/-- A write to `FREQ_DATA` writes the Frequency Table only, and never the pseudo-symbol's count (10_state.md R31,
R46). -/
theorem writeFreqData_frame (w : Word) (s : State) :
    ∃ f, writeFreqData w s = { s with freq := f } ∧ f[eosSymbol] = s.freq[eosSymbol] := by
  unfold writeFreqData
  split
  next hle =>
    split
    · exact ⟨_, rfl, Vector.getElem_set_ne _ _ (show s.freqAddr.toNat ≠ 256 by omega)⟩
    · exact ⟨s.freq, rfl, rfl⟩
  next => exact ⟨s.freq, rfl, rfl⟩

theorem tableInv_writeReg (n : Nat) (w : Word) {s : State} (hs : TableInv s) : TableInv (writeReg n w s) := by
  have hparts := tableInv_iff.mp hs
  unfold writeReg
  split
  case h_2 =>
    obtain ⟨f, hf, heos⟩ := writeFreqData_frame w s
    obtain ⟨⟨⟨hfreq, harena⟩, hrest⟩, hidden⟩ := hparts
    rw [hf]
    exact tableInv_iff.mpr ⟨⟨⟨fun hv => heos.trans (hfreq hv), harena⟩, hrest⟩, hidden⟩
  all_goals exact tableInv_iff.mpr hparts

theorem tableInv_applyReset (s : State) : TableInv (applyReset s) := by
  exact ⟨fun h => Bool.noConfusion h, fun h => Bool.noConfusion h, fun h => Bool.noConfusion h,
    fun _ => ⟨rfl, rfl, rfl⟩, fun _ => ⟨rfl, rfl⟩⟩

/-- The table invariant reads neither the streams, nor the index registers, nor the model's fields of the host. -/
theorem tableInv_hostMove {m : HostMove} {s t : State} (hs : TableInv s) (h : hostMove m s = .next t) :
    TableInv t := by
  have hparts := tableInv_iff.mp hs
  cases m with
  | rst => cases h; exact tableInv_applyReset s
  | attachIn bits pos =>
    simp only [hostMove] at h
    split at h
    next hp => cases h; exact tableInv_iff.mpr hparts
    next => cases h
  | attachOut bits => cases h; exact tableInv_iff.mpr hparts
  | write reg w =>
    simp only [hostMove] at h
    split at h
    · exact tableInv_writeCmd hs h
    · cases h; exact tableInv_writeReg reg w hs
  | read reg =>
    obtain ⟨_, _, he⟩ := hostRead_frame reg s
    simp only [hostMove] at h
    rw [he] at h
    cases h
    exact tableInv_iff.mpr hparts
  | collect => cases h; exact tableInv_iff.mpr hparts

/-- Settles O56: between steps the machine is idle, so a step is a move of the host; a command it starts keeps the
tables at its good end, and all but the queue and the stack where it raises. -/
theorem tableInvKept : Obligations.TableInvKept := by
  unfold Obligations.TableInvKept
  intro s t hs ht h
  refine ⟨statusInvKept s t hs h, ?_⟩
  rw [step_idle hs.idle] at h
  unfold hostTurn at h
  split at h
  next => cases h; exact ht
  next m rest _ =>
    have hparts := tableInv_iff.mp ht
    have ht' : TableInv { s with host := rest } := tableInv_iff.mpr hparts
    exact tableInv_hostMove ht' h

end Sys2Proof.Machine

namespace Sys2Proof.Machine

/-! ### Reset and ignored commands -/

/-- Settles O9: a command is its run in the envelope of R94, which is not opened while `BUSY = 1` or `ERR = 1`. -/
theorem commandIgnored : Obligations.CommandIgnored := by
  unfold Obligations.CommandIgnored
  intro i s hi h
  rw [exec_command hi]
  exact issue_ignored h

/-- The next move of the host, on an idle machine. -/
theorem step_move {s : State} {m : HostMove} {rest : List HostMove} (hbusy : s.busy = false)
    (hhost : s.host = m :: rest) : step s = hostMove m { s with host := rest } := by
  rw [step_idle hbusy, hostTurn, hhost]

/-- Settles O5: the reset move is `applyReset`, whose fields are read off one by one. -/
theorem resetMove : Obligations.ResetMove := by
  unfold Obligations.ResetMove
  intro s rest hbusy hhost
  refine ⟨applyReset { s with host := rest }, step_move hbusy hhost, ?_⟩
  simp [State.reset, State.sp]

/-- Settles O58: every flag is 0 right after reset, so the invariants say little, and that holds of zeros. -/
theorem invariantsAtReset : Obligations.InvariantsAtReset := by
  unfold Obligations.InvariantsAtReset
  refine ⟨⟨rfl, by simp [State.reset], by decide, by simp [State.reset], by decide, Nat.zero_le _⟩, ?_⟩
  exact tableInv_applyReset State.reset

/-! ### Register reads -/

theorem readsAs_of_readReg {s : State} {n : Nat} {w : Word}
    (h : ∀ rest, readReg n { s with host := rest } = some w) : ReadsAs s n w := by
  intro rest hbusy hhost
  rw [step_move hbusy hhost, hostMove, hostRead, h]

theorem readsUnspecified_of_readReg {s : State} {n : Nat} (h : ∀ rest, readReg n { s with host := rest } = none) :
    ReadsUnspecified s n := by
  intro rest hbusy hhost
  rw [step_move hbusy hhost, hostMove, hostRead, h]

/-- A field of k bits with a field above it (10_state.md R41). -/
theorem ofNat_or_shifted {k x y : Nat} (h : x < 2 ^ k) :
    BitVec.ofNat 32 x ||| BitVec.ofNat 32 (2 ^ k * y) = BitVec.ofNat 32 (x + 2 ^ k * y) := by
  rw [← BitVec.ofNat_or, Nat.or_comm, ← Nat.two_pow_add_eq_or_of_lt h, Nat.add_comm]

theorem flagBit_eq (b : Bool) (k : Nat) : flagBit b k = BitVec.ofNat 32 (2 ^ k * b.toNat) := by
  cases b <;> simp [flagBit]

/-- `STATUS` as a sum of its bits (10_state.md R43), while the host can read it. -/
theorem statusWord_idle {s : State} (h : s.busy = false) :
    statusWord s = BitVec.ofNat 32 (2 * s.done.toNat + 4 * s.err.toNat + 8 * s.freqValid.toNat
      + 16 * s.trieValid.toNat + 32 * s.codesValid.toNat) := by
  have hdone := Bool.toNat_le s.done
  have herr := Bool.toNat_le s.err
  have hfreq := Bool.toNat_le s.freqValid
  have htrie := Bool.toNat_le s.trieValid
  simp only [statusWord, flagBit_eq]
  rw [ofNat_or_shifted (by simp [h]), ofNat_or_shifted (by simp [h]; omega), ofNat_or_shifted (by simp [h]; omega),
    ofNat_or_shifted (by simp [h]; omega), ofNat_or_shifted (by simp [h]; omega)]
  simp [h]

/-- A number of 23 or more names no register (R50 c). -/
theorem readReg_unmapped {n : Nat} (s : State) (h : 23 ≤ n) : readReg n s = none := by
  unfold readReg
  split
  case h_24 => rfl
  all_goals omega

theorem readReg_trieRegs_known {s : State} (h : trieRegsKnown s = true) :
    readReg 3 s = some (BitVec.ofNat 32 s.root.val) ∧ readReg 4 s = some (BitVec.ofNat 32 s.nnodes.val) := by
  simp [readReg, h]

theorem readReg_trieRegs_unknown {s : State} (h : trieRegsKnown s = false) :
    readReg 3 s = none ∧ readReg 4 s = none := by
  simp [readReg, h]

/-- Settles O51: each clause is the register's line of `readReg`. -/
theorem registerReads : Obligations.RegisterReads := by
  unfold Obligations.RegisterReads
  intro s hbusy
  refine ⟨readsAs_of_readReg fun _ => rfl, readsAs_of_readReg fun _ => congrArg some (statusWord_idle hbusy),
    readsAs_of_readReg fun _ => ?_, readsAs_of_readReg fun _ => ?_, readsAs_of_readReg fun _ => ?_,
    readsAs_of_readReg fun _ => ?_, readsAs_of_readReg fun _ => rfl, readsAs_of_readReg fun _ => ?_,
    fun h => ?known, fun hv h => ?unknown, fun n hn => readsUnspecified_of_readReg fun _ => readReg_unmapped _ hn⟩
  case known =>
    have hk rest : trieRegsKnown { s with host := rest } = true := (trieRegsKnown_iff _).mpr h
    exact ⟨readsAs_of_readReg fun rest => (readReg_trieRegs_known (hk rest)).1,
      readsAs_of_readReg fun rest => (readReg_trieRegs_known (hk rest)).2⟩
  case unknown =>
    have hk rest : trieRegsKnown { s with host := rest } = false := by
      rw [← Bool.not_eq_true, trieRegsKnown_iff]
      simp only [hv]
      rintro (hv' | ⟨hp, he, hs⟩)
      · cases hv'
      · simp [hp, he, hs] at h
    exact ⟨readsUnspecified_of_readReg fun rest => (readReg_trieRegs_unknown (hk rest)).1,
      readsUnspecified_of_readReg fun rest => (readReg_trieRegs_unknown (hk rest)).2⟩
  all_goals simp [readReg, BitVec.ofNat_toNat]

/-! ### Register windows -/

theorem nodeInfoWord_eq (nd : Node) :
    nodeInfoWord nd = BitVec.ofNat 32 (nd.value.toNat + 65536 * nd.kind.toNat) := by
  rw [nodeInfoWord, flagBit_eq, ← BitVec.ofNat_toNat]
  exact ofNat_or_shifted (k := 16) nd.value.isLt

theorem nodeLinkWord_eq (nd : Node) :
    nodeLinkWord nd = BitVec.ofNat 32 (nd.left.val + 65536 * nd.right.val) := by
  have hshift : BitVec.ofNat 32 nd.right.val <<< 16 = BitVec.ofNat 32 (2 ^ 16 * nd.right.val) := by
    apply BitVec.eq_of_toNat_eq
    simp [Nat.shiftLeft_eq, Nat.mul_comm]
  rw [nodeLinkWord, hshift]
  exact ofNat_or_shifted (k := 16) (by omega)

theorem codeLenWord_eq (c : CodeEntry) :
    codeLenWord c = if c.valid then BitVec.ofNat 32 (2 ^ 31 + c.len.toNat) else 0#32 := by
  have hlen : c.len.toNat < 2 ^ 31 := c.len.isLt.trans (by decide)
  have h := ofNat_or_shifted (y := 1) hlen
  rw [codeLenWord, flagBit_eq, BitVec.or_comm, ← BitVec.ofNat_toNat, Bool.toNat_true, h, Nat.add_comm, Nat.mul_one]
  rfl

theorem codeBitsWord_eq (c : CodeEntry) (k : Nat) :
    codeBitsWord c k = if c.valid then BitVec.ofNat 32 (c.val.toNat / 2 ^ (32 * k)) else 0#32 := by
  rw [codeBitsWord, BitVec.extractLsb', Nat.shiftRight_eq_div_pow]
  rfl

/-- The node window shows the entry `NODE_ADDR` names, while the trie is valid and holds it (R47). -/
theorem shownNode_some {s : State} {i : NodeIx} (hv : s.trieValid = true) (ha : s.nodeAddr.toNat = i.val)
    (hi : i.val < s.nnodes.val) : shownNode s = some s.node[i] := by
  rw [shownNode, if_pos ⟨hv, ha ▸ hi⟩, ha]
  simp

theorem shownNode_none {s : State} (h : s.trieValid = false ∨ s.nnodes.val ≤ s.nodeAddr.toNat) :
    shownNode s = none := by
  refine if_neg fun ⟨hv, hlt⟩ => ?_
  rcases h with h | h
  · rw [h] at hv; cases hv
  · omega

/-- The code window shows the entry `CODE_ADDR` names, while the codes are valid (R48). -/
theorem shownCode_some {s : State} {v : Symbol} (hv : s.codesValid = true) (ha : s.codeAddr.toNat = v.val) :
    shownCode s = some s.code[v] := by
  rw [shownCode, if_pos hv, ha]
  simp

theorem shownCode_none {s : State} (h : s.codesValid = false ∨ 256 < s.codeAddr.toNat) : shownCode s = none := by
  unfold shownCode
  split
  next hv =>
    rcases h with h | h
    · rw [h] at hv; cases hv
    · simpa using Nat.succ_le_of_lt h
  next => rfl

/-- Registers 13 to 20 are the eight words of the code (R41). -/
theorem readReg_codeBits {k : Nat} (hk : k < 8) (s : State) :
    readReg (13 + k) s = (shownCode s).map (codeBitsWord · k) := by
  interval_cases k <;> rfl

/-- Settles O52: a window is its `shown` entry, and each word the sum of the fields it packs. -/
theorem tableWindows : Obligations.TableWindows := by
  unfold Obligations.TableWindows
  intro s _
  refine ⟨fun v hv ha => ?freq, fun h => ?noFreq, fun i hv ha hi => ?node, fun h => ?noNode, fun v hv ha => ?code,
    fun h => ?noCode⟩
  case freq => exact readsAs_of_readReg fun _ => by simp [readReg, hv, ha]
  case noFreq =>
    refine readsUnspecified_of_readReg fun _ => ?_
    rcases h with h | h
    · simp [readReg, h]
    · simpa [readReg] using fun _ => Nat.succ_le_of_lt h
  case node =>
    have hshown rest : shownNode { s with host := rest } = some s.node[i] := shownNode_some hv ha hi
    exact ⟨readsAs_of_readReg fun rest => by simp [readReg, hshown rest, nodeInfoWord_eq],
      readsAs_of_readReg fun rest => by simp [readReg, hshown rest, nodeLinkWord_eq],
      readsAs_of_readReg fun rest => by simp [readReg, hshown rest]⟩
  case noNode =>
    have hshown rest : shownNode { s with host := rest } = none := shownNode_none h
    exact ⟨readsUnspecified_of_readReg fun rest => by simp [readReg, hshown rest],
      readsUnspecified_of_readReg fun rest => by simp [readReg, hshown rest],
      readsUnspecified_of_readReg fun rest => by simp [readReg, hshown rest]⟩
  case code =>
    have hshown rest : shownCode { s with host := rest } = some s.code[v] := shownCode_some hv ha
    exact ⟨readsAs_of_readReg fun rest => by simp [readReg, hshown rest, codeLenWord_eq],
      fun k hk => readsAs_of_readReg fun rest => by simp [readReg_codeBits hk, hshown rest, codeBitsWord_eq]⟩
  case noCode =>
    have hshown rest : shownCode { s with host := rest } = none := shownCode_none h
    exact ⟨readsUnspecified_of_readReg fun rest => by simp [readReg, hshown rest],
      fun k hk => readsUnspecified_of_readReg fun rest => by simp [readReg_codeBits hk, hshown rest]⟩

/-! ### Register writes -/

theorem step_write {s : State} {n : Nat} {w : Word} {rest : List HostMove} (hbusy : s.busy = false)
    (hhost : s.host = .write n w :: rest) (hn : n ≠ 0) : step s = .next (writeReg n w { s with host := rest }) := by
  rw [step_move hbusy hhost, hostMove, if_neg hn]

/-- `FREQ_DATA` writes the entry it names (R46). -/
theorem writeFreqData_enabled {s : State} {v : Symbol} (w : Word) (hbusy : s.busy = false) (herr : s.err = false)
    (hv : s.freqValid = true) (ha : s.freqAddr.toNat = v.val) (hle : v.val ≤ 255) :
    writeFreqData w s = { s with freq := s.freq.set v.val w } := by
  simp [writeFreqData, ha, hle, hbusy, herr, hv]

theorem writeFreqData_disabled {s : State} (w : Word)
    (h : s.err = true ∨ s.freqValid = false ∨ 256 ≤ s.freqAddr.toNat) : writeFreqData w s = s := by
  unfold writeFreqData
  split
  next hle =>
    refine if_neg fun ⟨_, herr, hv⟩ => ?_
    rcases h with h | h | h
    · rw [h] at herr; cases herr
    · rw [h] at hv; cases hv
    · omega
  next => rfl

/-- A register that is neither `CMD` nor an index register nor `FREQ_DATA` ignores a write (R49, R50 b). -/
theorem writeReg_readOnly {n : Nat} (w : Word) (s : State) (h5 : n ≠ 5) (h6 : n ≠ 6) (h7 : n ≠ 7)
    (h11 : n ≠ 11) : writeReg n w s = s := by
  unfold writeReg
  split
  case h_5 => rfl
  all_goals contradiction

/-- Settles O53: a write to a register other than `CMD` is `writeReg`. -/
theorem registerWrites : Obligations.RegisterWrites := by
  unfold Obligations.RegisterWrites
  intro s n w rest hbusy hhost
  have hstep := step_write hbusy hhost
  refine ⟨?_, ?_, ?_, ?_, ?_, fun h0 h5 h6 h7 h11 => ?_⟩
  · rintro rfl
    simp [hstep, writeReg, BitVec.ofNat_toNat]
  · rintro rfl
    simp [hstep, writeReg, BitVec.ofNat_toNat]
  · rintro rfl
    simp [hstep, writeReg, BitVec.ofNat_toNat]
  · rintro rfl v ha hne herr hv
    have hle : v.val ≤ 255 := by
      have hval : v.val ≠ 256 := fun e => hne (Fin.ext e)
      omega
    rw [hstep (by decide)]
    exact congrArg _ (writeFreqData_enabled (s := { s with host := rest }) w hbusy herr hv ha hle)
  · rintro rfl h
    rw [hstep (by decide)]
    exact congrArg _ (writeFreqData_disabled w h)
  · rw [hstep h0, writeReg_readOnly w _ h5 h6 h7 h11]

end Sys2Proof.Machine

namespace Sys2Proof.Machine

/-! ### Frames: who may write each piece of state -/

/-- The pieces of state that instructions share out among themselves (10_state.md R21, R28 to R37; 20_memory.md R62). -/
inductive Piece where
  /-- FREQ and its valid flag. -/
  | freq
  /-- The arena with `ROOT`, `NNODES` and its valid flag. -/
  | arena
  /-- `PQ` and `SEQ`. -/
  | queue
  | code
  | codesValid
  | cur
  | stack
  | inPos
  | out
  | trieStarted

/-- The piece is the same in both states. -/
def Piece.Kept (s t : State) : Piece → Prop
  | .freq => t.freq = s.freq ∧ t.freqValid = s.freqValid
  | .arena => t.node = s.node ∧ t.root = s.root ∧ t.nnodes = s.nnodes ∧ t.trieValid = s.trieValid
  | .queue => t.seq = s.seq ∧ t.pq = s.pq
  | .code => t.code = s.code
  | .codesValid => t.codesValid = s.codesValid
  | .cur => t.cur = s.cur
  | .stack => t.stack = s.stack
  | .inPos => t.inp.pos = s.inp.pos
  | .out => t.out = s.out
  | .trieStarted => t.trieStarted = s.trieStarted

/-- The pieces each instruction may write (10_state.md R53). -/
def writes : Instr → List Piece
  | .clrfreq => [.freq]
  | .count => [.freq, .inPos]
  | .build => [.arena, .queue, .codesValid, .trieStarted]
  | .gencode => [.code, .codesValid, .stack]
  | .wrmagic => [.out]
  | .wrhdr => [.stack, .out]
  | .rewind => [.inPos]
  | .encode => [.inPos, .out]
  | .flush => [.out]
  | .rdmagic => [.inPos]
  | .rdhdr => [.arena, .codesValid, .stack, .inPos, .trieStarted]
  | .decode => [.cur, .inPos, .out]
  | .compress => [.freq, .arena, .queue, .code, .codesValid, .stack, .inPos, .out, .trieStarted]
  | .decompress => [.arena, .codesValid, .cur, .stack, .inPos, .out, .trieStarted]
  | .magicWord => []
  | .hdrInternal => [.arena, .stack]
  | .hdrLeaf _ => [.arena, .stack]

/-- What no instruction writes: the constant `MAGIC`, the host's registers and moves, and the bits of IN; OUT is only
appended to (R39, R46 to R49; 20_memory.md R73). -/
def HostSideKept (s t : State) : Prop :=
  t.magic = s.magic ∧ t.freqAddr = s.freqAddr ∧ t.nodeAddr = s.nodeAddr ∧ t.codeAddr = s.codeAddr
    ∧ t.host = s.host ∧ t.busData = s.busData ∧ t.collected = s.collected ∧ t.draws = s.draws
    ∧ t.inp.bits = s.inp.bits ∧ s.out.IsPrefix t.out

/-- From s to t nothing is written but the pieces listed, the flags `BUSY`, `DONE` and `ERR` with `ERRCODE`, and
`PHASE`. -/
def WritesOnly (ps : List Piece) (s t : State) : Prop := HostSideKept s t ∧ ∀ p, p ∉ ps → p.Kept s t

/-- For a t that is written out as an update of s, both parts are read off its fields. -/
theorem writesOnly_of_update {ps : List Piece} {s t : State} (hhost : HostSideKept s t := by simp [HostSideKept])
    (hkept : ∀ p, p ∉ ps → p.Kept s t := by rintro (_ | _) hp <;> simp_all [Piece.Kept, writes]) :
    WritesOnly ps s t :=
  ⟨hhost, hkept⟩

theorem Piece.Kept.trans {p : Piece} {s t u : State} (h : p.Kept s t) (k : p.Kept t u) : p.Kept s u := by
  cases p <;> simp_all [Piece.Kept]

theorem HostSideKept.trans {s t u : State} (h : HostSideKept s t) (k : HostSideKept t u) : HostSideKept s u := by
  obtain ⟨hmagic, hfa, hna, hca, hhost, hbus, hcol, hdraws, hbits, hout⟩ := h
  obtain ⟨kmagic, kfa, kna, kca, khost, kbus, kcol, kdraws, kbits, kout⟩ := k
  exact ⟨kmagic.trans hmagic, kfa.trans hfa, kna.trans hna, kca.trans hca, khost.trans hhost, kbus.trans hbus,
    kcol.trans hcol, kdraws.trans hdraws, kbits.trans hbits, hout.trans kout⟩

theorem WritesOnly.trans {ps : List Piece} {s t u : State} (h : WritesOnly ps s t) (k : WritesOnly ps t u) :
    WritesOnly ps s u :=
  ⟨h.1.trans k.1, fun p hp => (h.2 p hp).trans (k.2 p hp)⟩

theorem WritesOnly.mono {ps qs : List Piece} {s t : State} (h : WritesOnly qs s t) (hsub : qs ⊆ ps) :
    WritesOnly ps s t :=
  ⟨h.1, fun p hp => h.2 p fun hq => hp (hsub hq)⟩

/-- A member writes what its body does. -/
theorem primitive_writes {ps : List Piece} {i : Instr} {body : State → Run} {s : State}
    (h : ∀ t, (body t).Ends (WritesOnly ps t)) : (primitive i body s).Ends (WritesOnly ps s) := by
  have hphase : WritesOnly ps s (setPhase i s) := writesOnly_of_update
  unfold primitive
  split
  · exact ends_mono (h _) fun _ ht => hphase.trans ht
  · exact hphase

/-- A composite writes what its members do. -/
theorem writes_bind {ps qs : List Piece} {r : Run} {f : State → Run} {s : State} (hsub : qs ⊆ ps)
    (h : r.Ends (WritesOnly qs s)) (k : ∀ t, (f t).Ends (WritesOnly ps t)) : (r.bind f).Ends (WritesOnly ps s) :=
  ends_bind (ends_mono h fun _ ht => ht.mono hsub) fun t ht => ends_mono (k t) fun _ hu => ht.trans hu

/-- A command writes what its run does. -/
theorem issue_writes {ps : List Piece} {run : State → Run} {s t : State}
    (hrun : ∀ u, (run u).Ends (WritesOnly ps u)) (h : issue run s = .next t) : WritesOnly ps s t := by
  have haccept : WritesOnly ps s (accept s) := writesOnly_of_update
  have hend := hrun (accept s)
  rcases issue_next h with ⟨_, rfl⟩ | ⟨_, ⟨u, hu, rfl⟩ | ⟨e, u, hu, rfl⟩⟩
  · exact writesOnly_of_update
  · rw [hu] at hend
    exact (haccept.trans hend).trans (writesOnly_of_update (t := finish u))
  · rw [hu] at hend
    exact (haccept.trans hend).trans (writesOnly_of_update (t := raiseErr e u))

/-! One line per member: what its body's frame lemma says it may write. -/

theorem runClrfreq_writes (s : State) : (runClrfreq s).Ends (WritesOnly (writes .clrfreq) s) :=
  primitive_writes fun _ => writesOnly_of_update

theorem runCount_writes (s : State) : (runCount s).Ends (WritesOnly (writes .count) s) :=
  primitive_writes fun _ =>
    ends_bind (ends_mono (countLoop_frame _ _) fun _ ⟨_, _, e⟩ => e ▸ writesOnly_of_update)
      fun _ hu => hu.trans writesOnly_of_update

theorem runBuild_writes (s : State) : (runBuild s).Ends (WritesOnly (writes .build) s) :=
  primitive_writes fun _ =>
    ends_bind (ends_mono (leafLoop_frame _ _) fun _ ⟨_, _, _, _, e⟩ => e ▸ writesOnly_of_update)
      fun _ hu => ends_mono (combineLoop_frame _ _) fun _ ⟨_, _, _, _, _, _, e⟩ =>
        hu.trans (e ▸ writesOnly_of_update)

theorem runGencode_writes (s : State) : (runGencode s).Ends (WritesOnly (writes .gencode) s) :=
  primitive_writes fun _ =>
    ends_bind (ends_mono (gencodeLoop_frame _ _) fun _ ⟨_, _, e⟩ => e ▸ writesOnly_of_update)
      fun _ hu => hu.trans writesOnly_of_update

theorem outAppend_writes (q : Bits) (s : State) : WritesOnly [.out] s (outAppend q s) := writesOnly_of_update

theorem runWrmagic_writes (s : State) : (runWrmagic s).Ends (WritesOnly (writes .wrmagic) s) :=
  primitive_writes fun _ => outAppend_writes _ _

theorem runWrhdr_writes (s : State) : (runWrhdr s).Ends (WritesOnly (writes .wrhdr) s) :=
  primitive_writes fun _ => ends_mono (wrhdrLoop_frame _ _) fun _ ⟨_, _, e⟩ => e ▸ writesOnly_of_update

theorem runRewind_writes (s : State) : (runRewind s).Ends (WritesOnly (writes .rewind) s) :=
  primitive_writes fun _ => writesOnly_of_update

theorem runEncode_writes (s : State) : (runEncode s).Ends (WritesOnly (writes .encode) s) :=
  primitive_writes fun _ => ends_mono (encodeLoop_frame _ _) fun _ ⟨_, _, e⟩ => e ▸ writesOnly_of_update

theorem runFlush_writes (s : State) : (runFlush s).Ends (WritesOnly (writes .flush) s) :=
  primitive_writes fun _ => outAppend_writes _ _

theorem runRdmagic_writes (s : State) : (runRdmagic s).Ends (WritesOnly (writes .rdmagic) s) :=
  primitive_writes fun _ => ends_mono (rdmagicBody_frame _) fun _ ⟨_, e⟩ => e ▸ writesOnly_of_update

theorem runRdhdr_writes (s : State) : (runRdhdr s).Ends (WritesOnly (writes .rdhdr) s) :=
  primitive_writes fun _ =>
    ends_mono (rdhdrLoop_frame _ _) fun _ ⟨_, _, _, _, _, _, e⟩ => e ▸ writesOnly_of_update

theorem runDecode_writes (s : State) : (runDecode s).Ends (WritesOnly (writes .decode) s) :=
  primitive_writes fun _ => ends_mono (decodeBody_frame _) fun _ ⟨_, _, _, e⟩ => e ▸ writesOnly_of_update

theorem runCompress_writes (s : State) : (runCompress s).Ends (WritesOnly (writes .compress) s) :=
  writes_bind (by simp [writes]) (runCount_writes s) fun s1 =>
  writes_bind (by simp [writes]) (runBuild_writes s1) fun s2 =>
  writes_bind (by simp [writes]) (runGencode_writes s2) fun s3 =>
  writes_bind (by simp [writes]) (runWrmagic_writes s3) fun s4 =>
  writes_bind (by simp [writes]) (runWrhdr_writes s4) fun s5 =>
  writes_bind (by simp [writes]) (runRewind_writes s5) fun s6 =>
  writes_bind (by simp [writes]) (runEncode_writes s6) fun s7 =>
  ends_mono (runFlush_writes s7) fun _ h => h.mono (by simp [writes])

theorem runDecompress_writes (s : State) : (runDecompress s).Ends (WritesOnly (writes .decompress) s) :=
  writes_bind (by simp [writes]) (runRdmagic_writes s) fun s1 =>
  writes_bind (by simp [writes]) (runRdhdr_writes s1) fun s2 =>
  ends_mono (runDecode_writes s2) fun _ h => h.mono (by simp [writes])

/-! Stream items executed by a running reader (log 7). -/

/-- Everything a step of the reader RDHDR can do with a next state (43_header_codec.md R161). -/
theorem readerTakes_next {r : HdrRecord} {s t : State} (h : readerTakes r s = .next t) :
    (∃ u, takeRecord r s = .ok u ∧ t = if u.stack.isEmpty then finish (endHeader u) else u)
      ∨ ∃ e u, takeRecord r s = .raised e u ∧ t = raiseErr e u := by
  unfold readerTakes at h
  split at h
  next u hu => cases h; exact .inl ⟨u, hu, rfl⟩
  next e u hu => cases h; exact .inr ⟨e, u, hu, rfl⟩
  next => cases h

/-- Taking a record writes the arena and the stack, and leaves `PHASE` to the command that reads. -/
theorem readerTakes_writes {r : HdrRecord} {s t : State} (h : readerTakes r s = .next t) :
    WritesOnly [.arena, .stack] s t ∧ t.phase = s.phase := by
  have hend := takeRecord_frame r s
  rcases readerTakes_next h with ⟨u, hu, rfl⟩ | ⟨e, u, hu, rfl⟩ <;> rw [hu] at hend
  · obtain ⟨n, c, st, rfl⟩ := hend
    split
    · exact ⟨writesOnly_of_update (t := finish (endTrie 0 _)), rfl⟩
    · exact ⟨writesOnly_of_update, rfl⟩
  · obtain ⟨n, c, st, rfl⟩ := hend
    exact ⟨writesOnly_of_update, rfl⟩

theorem execHdrLeaf_writes {sym : BitVec 9} {s t : State} (h : execHdrLeaf sym s = .next t) :
    WritesOnly [.arena, .stack] s t ∧ t.phase = s.phase := by
  unfold execHdrLeaf at h
  split at h
  · exact readerTakes_writes h
  · cases h
    exact ⟨writesOnly_of_update, rfl⟩

theorem execMagicWord_writes {s t : State} (h : execMagicWord s = .next t) :
    WritesOnly [] s t ∧ t.phase = s.phase := by
  cases h
  exact ⟨writesOnly_of_update, rfl⟩

/-! Every instruction. -/

theorem exec_writes {i : Instr} {s t : State} (h : exec i s = .next t) : WritesOnly (writes i) s t := by
  cases i with
  | clrfreq => exact issue_writes runClrfreq_writes h
  | count => exact issue_writes runCount_writes h
  | build => exact issue_writes runBuild_writes h
  | gencode => exact issue_writes runGencode_writes h
  | wrmagic => exact issue_writes runWrmagic_writes h
  | wrhdr => exact issue_writes runWrhdr_writes h
  | rewind => exact issue_writes runRewind_writes h
  | encode => exact issue_writes runEncode_writes h
  | flush => exact issue_writes runFlush_writes h
  | rdmagic => exact issue_writes runRdmagic_writes h
  | rdhdr => exact issue_writes runRdhdr_writes h
  | decode => exact issue_writes runDecode_writes h
  | compress => exact issue_writes runCompress_writes h
  | decompress => exact issue_writes runDecompress_writes h
  | magicWord => exact (execMagicWord_writes h).1
  | hdrInternal => exact (readerTakes_writes h).1
  | hdrLeaf sym => exact (execHdrLeaf_writes h).1

/-- Only commands write `PHASE` (10_state.md R27). -/
theorem exec_phase {i : Instr} {s t : State} (h : exec i s = .next t) : isCommand i = true ∨ t.phase = s.phase := by
  cases i with
  | magicWord => exact .inr (execMagicWord_writes h).2
  | hdrInternal => exact .inr (readerTakes_writes h).2
  | hdrLeaf sym => exact .inr (execHdrLeaf_writes h).2
  | _ => exact .inl rfl

/-- A command whose run ends well with `ERR` and `ERRCODE` as they were leaves them so. -/
theorem issue_errors {run : State → Run} {s t u : State} (h : issue run s = .next t) (hu : run (accept s) = .ok u)
    (herr : u.err = s.err) (hcode : u.errcode = s.errcode) : t.err = s.err ∧ t.errcode = s.errcode := by
  rcases issue_next h with ⟨_, rfl⟩ | ⟨_, ⟨v, hv, rfl⟩ | ⟨e, v, hv, _⟩⟩
  · exact ⟨rfl, rfl⟩
  · cases hu.symm.trans hv
    exact ⟨herr, hcode⟩
  · cases hu.symm.trans hv

/-- What follows for each way a piece can fare follows from the frame. -/
theorem WritesOnly.clause {i : Instr} {s t : State} {G : Prop} (h : WritesOnly (writes i) s t) (p : Piece)
    (hwrites : p ∈ writes i → G) (hkept : p.Kept s t → G) : G := by
  by_cases hp : p ∈ writes i
  · exact hwrites hp
  · exact hkept (h.2 p hp)

/-- Settles O60: each piece of state is among those the instruction writes, or kept. -/
theorem instructionFrame : Obligations.InstructionFrame := by
  unfold Obligations.InstructionFrame
  intro i s t h
  have hframe := exec_writes h
  refine ⟨hframe.1, ?_, ?_, ?_, ?_, ?_, ?_, ?_, ?_, ?_, ?_, exec_phase h, ?_⟩
  · exact hframe.clause .freq (by cases i <;> simp [writes]) fun ⟨hf, hv⟩ => by simp [hf, hv]
  · exact hframe.clause .arena (by cases i <;> simp [writes]) fun ⟨hn, hr, hc, hv⟩ => by simp [hn, hr, hc, hv]
  · exact hframe.clause .queue (by cases i <;> simp [writes]) fun ⟨hs, hq⟩ => by simp [hs, hq]
  · exact hframe.clause .code (by cases i <;> simp [writes]) fun (hk : t.code = s.code) => by simp [hk]
  · exact hframe.clause .codesValid (by cases i <;> simp [writes])
      fun (hk : t.codesValid = s.codesValid) => by simp [hk]
  · exact hframe.clause .cur (by cases i <;> simp [writes]) fun (hk : t.cur = s.cur) => by simp [hk]
  · exact hframe.clause .stack (by cases i <;> simp [writes]) fun (hk : t.stack = s.stack) => by simp [hk]
  · exact hframe.clause .inPos (by cases i <;> simp [writes]) fun (hk : t.inp.pos = s.inp.pos) => by simp [hk]
  · exact hframe.clause .out (by cases i <;> simp [writes]) fun (hk : t.out = s.out) => by simp [hk]
  · exact hframe.clause .trieStarted (by cases i <;> simp [writes])
      fun (hk : t.trieStarted = s.trieStarted) => by simp [hk]
  · rintro (rfl | rfl | rfl | rfl | rfl)
    · exact issue_errors h rfl rfl rfl
    · exact issue_errors h rfl rfl rfl
    · exact issue_errors h rfl rfl rfl
    · exact issue_errors h rfl rfl rfl
    · cases h
      exact ⟨rfl, rfl⟩

end Sys2Proof.Machine

namespace Sys2Proof.Machine

/-! ### Commands that complete -/

/-- A primitive issued to a ready machine that meets its precondition ends as its body does (30_encoding.md R94). -/
theorem issue_primitive {i : Instr} {body : State → Run} {s : State} (h : Ready s) (hpre : precondition i s = true) :
    issue (primitive i body) s = settle (body (setPhase i (accept s))) := by
  rw [issue_ready h, primitive_allowed (by rwa [precondition_accept])]

/-- Settles O37: no precondition stands before FLUSH, and its body appends the padding of R68. -/
theorem flushResult : Obligations.FlushResult := by
  unfold Obligations.FlushResult
  refine ⟨rfl, fun s hs => ?_⟩
  obtain ⟨haligned, hle⟩ := padLength_spec s.out.length
  refine ⟨padLength s.out.length, rfl, hle, haligned, padLength_aligned, ?_⟩
  have hrun : exec .flush s = .next (finish (outFlush (setPhase .flush (accept s)))) := issue_primitive hs rfl
  have hstate : finish (outFlush (setPhase .flush (accept s))) =
      { s with phase := 9#4, done := true, out := s.out ++ List.replicate (padLength s.out.length) false } := by
    rw [State.mk.injEq]
    simp [outFlush, opcodeOf, hs.1]
  rw [hrun, hstate]

/-! ### The host's moves on the streams -/

/-- Settles O54: each move is `hostMove` on an idle machine, which refuses a position outside the new IN (R81). -/
theorem streamMoves : Obligations.StreamMoves := by
  unfold Obligations.StreamMoves
  intro s rest hbusy
  refine ⟨fun bits pos hhost hin => ?_, fun bits pos hhost hout => ?_, fun bits hhost => ?_, fun hhost => ?_⟩
  · rw [step_move hbusy hhost, hostMove, if_pos hin]
  · rw [step_move hbusy hhost, hostMove, if_neg (by omega)]
  · rw [step_move hbusy hhost, hostMove]
  · rw [step_move hbusy hhost, hostMove]

end Sys2Proof.Machine

namespace Sys2Proof

/-! ### The command decoder -/

/-- The opcode map sends an opcode to the one command that has it (30_encoding.md R92). -/
theorem instrOfOp_eq_ok {op : BitVec 4} {i : Instr} :
    instrOfOp op = .ok i ↔ Machine.isCommand i = true ∧ op = opcodeOf i := by
  constructor
  · intro h
    unfold instrOfOp at h
    split at h <;> cases h <;> exact ⟨rfl, BitVec.eq_of_toNat_eq ‹_›⟩
  · rintro ⟨hi, rfl⟩
    cases i with
    | magicWord | hdrInternal | hdrLeaf _ => cases hi
    | _ => rfl

/-- The opcode map has no command for 0 and 15 (R93). -/
theorem instrOfOp_eq_error {op : BitVec 4} :
    (∃ e, instrOfOp op = .error e) ↔ op.toNat = 0 ∨ op.toNat = 15 := by
  have hop := op.isLt
  constructor
  · rintro ⟨e, h⟩
    unfold instrOfOp at h
    split at h
    case h_15 =>
      simp only [imp_false] at *
      omega
    all_goals cases h
  · rintro (h | h)
    · exact ⟨_, by rw [BitVec.eq_of_toNat_eq (y := 0#4) h]; rfl⟩
    · exact ⟨_, by rw [BitVec.eq_of_toNat_eq (y := 15#4) h]; rfl⟩

/-- A word below 16 is looked up by its low four bits, and every other word has an upper bit set (R92). -/
theorem decodeCmd_eq (w : Word) :
    decodeCmd w = if w.toNat < 16 then instrOfOp (w.setWidth 4) else .error .upperBitsSet := by
  have hlow : w.extractLsb' 0 4 = w.setWidth 4 := by
    rw [BitVec.setWidth_eq_extractLsb' (by decide)]
  have hupper : w.extractLsb' 4 28 = 0#28 ↔ w.toNat < 16 := by
    have hw := w.isLt
    rw [← BitVec.toNat_inj, BitVec.extractLsb'_toNat, BitVec.toNat_ofNat, Nat.shiftRight_eq_div_pow]
    omega
  rw [decodeCmd, hlow]
  simp only [hupper]

/-- A word decodes to a command exactly when it is the command's word (R90, R92). -/
theorem decodeCmd_eq_ok {w : Word} {i : Instr} :
    decodeCmd w = .ok i ↔ Machine.isCommand i = true ∧ w = commandWord i := by
  rw [decodeCmd_eq, commandWord]
  constructor
  · intro h
    split at h
    next hw =>
      obtain ⟨hi, hop⟩ := instrOfOp_eq_ok.mp h
      exact ⟨hi, by rw [← hop]; bv_omega⟩
    next => cases h
  · rintro ⟨hi, rfl⟩
    have hop := (opcodeOf i).isLt
    rw [if_pos (by rw [BitVec.toNat_setWidth]; omega), instrOfOp_eq_ok]
    exact ⟨hi, by simp⟩

theorem decodeCmd_commandWord {i : Instr} (h : Machine.isCommand i = true) : decodeCmd (commandWord i) = .ok i :=
  decodeCmd_eq_ok.mpr ⟨h, rfl⟩

/-- The words the command decoder rejects are those outside 1 to 14 (R93). -/
theorem decodeCmd_eq_error {w : Word} : (∃ e, decodeCmd w = .error e) ↔ w.toNat = 0 ∨ 15 ≤ w.toNat := by
  rw [decodeCmd_eq]
  split
  next hw =>
    rw [instrOfOp_eq_error, BitVec.toNat_setWidth]
    omega
  next hw => exact iff_of_true ⟨_, rfl⟩ (by omega)

/-- Settles O2: a word decodes to the one command it is the word of, and is rejected outside 1 to 14. -/
theorem commandDecoderExact : Obligations.CommandDecoderExact := by
  unfold Obligations.CommandDecoderExact
  exact fun w => ⟨fun i => decodeCmd_eq_ok, decodeCmd_eq_error.symm⟩

/-! ### The record decoder -/

theorem decodeSymbol_legal {field : BitVec 9} (h : field.toNat ≤ 256) : decodeSymbol field = .ok (.leaf field) :=
  if_pos h

theorem decodeSymbol_reserved {field : BitVec 9} (h : 256 < field.toNat) :
    decodeSymbol field = .error (.reservedSymbol field) :=
  if_neg (by omega)

/-- A well-formed record is read off the front of any bits that follow it (30_encoding.md R97, R98). -/
theorem decodeRecord_encodeRecord {r : HdrRecord} (rest : Bits) (hwf : r.instr.wf = true) :
    decodeRecord (encodeRecord r ++ rest) = .ok (r, rest) := by
  cases r with
  | internal => rfl
  | leaf sym =>
    have hsym : sym.toNat ≤ 256 := by simpa [HdrRecord.instr, Instr.wf] using hwf
    have hfield : BitVec.ofNat 9 (valOf (bitsOf 9 sym.toNat)) = sym := by simp [valOf_bitsOf sym.isLt]
    simp [encodeRecord, decodeRecord, hfield, decodeSymbol_legal hsym]

/-- A well-formed record alone is decoded with no bits left over. -/
theorem decodeRecord_encodeRecord_alone {r : HdrRecord} (hwf : r.instr.wf = true) :
    decodeRecord (encodeRecord r) = .ok (r, []) := by
  simpa using decodeRecord_encodeRecord [] hwf

theorem decode_encode_record (magic : Word) {r : HdrRecord} (hwf : r.instr.wf = true) :
    decode magic (.record (encodeRecord r)) = .ok r.instr := by
  rw [decode, decodeRecord_encodeRecord_alone hwf]

/-- A command is encoded as its command word (R90). -/
theorem encode_command (magic : Word) {i : Instr} (h : Machine.isCommand i = true) :
    encode magic i = .cmd (commandWord i) := by
  cases i with
  | magicWord | hdrInternal | hdrLeaf _ => cases h
  | _ => rfl

/-- The decoder is a left inverse of the encoder: of the command decoder on command words, of the comparison with
the marker constant, and of the record decoder. -/
theorem decode_encode (magic : Word) {i : Instr} (hwf : i.wf = true) : decode magic (encode magic i) = .ok i := by
  by_cases hi : Machine.isCommand i = true
  · rw [encode_command magic hi]
    exact decodeCmd_commandWord hi
  · cases i with
    | magicWord => exact if_pos rfl
    | hdrInternal => exact decode_encode_record magic (r := .internal) hwf
    | hdrLeaf sym => exact decode_encode_record magic (r := .leaf sym) hwf
    | _ => exact absurd rfl hi

/-- Settles O3: `decode_encode` for whole instructions, `decodeRecord_encodeRecord` for a record in a stream. -/
theorem decodeEncodeAgree : Obligations.DecodeEncodeAgree := by
  unfold Obligations.DecodeEncodeAgree
  exact ⟨fun magic i => decode_encode magic, fun r rest => decodeRecord_encodeRecord rest⟩

/-- Settles O1: each word is a command's word, and each list of bits a record's encoding. -/
theorem commandWordsSample : Obligations.CommandWordsSample := by
  unfold Obligations.CommandWordsSample
  exact ⟨decodeCmd_commandWord (i := .clrfreq) rfl, decodeCmd_commandWord (i := .build) rfl,
    decodeCmd_commandWord (i := .gencode) rfl, decodeCmd_commandWord (i := .wrhdr) rfl,
    decodeCmd_commandWord (i := .encode) rfl, decodeCmd_commandWord (i := .rdhdr) rfl,
    decodeCmd_commandWord (i := .decode) rfl, decodeCmd_commandWord (i := .decompress) rfl,
    decodeRecord_encodeRecord_alone (r := .internal) rfl, decodeRecord_encodeRecord_alone (r := .leaf 256#9) rfl,
    decodeRecord_encodeRecord_alone (r := .leaf 0x41#9) rfl⟩

/-- Every way the record decoder rejects: the bits end inside the record, or the field names no Symbol (R97, R100). -/
theorem decodeRecord_error {q : Bits} {e : Reject} (h : decodeRecord q = .error e) :
    (e = .truncated ∧ (q = [] ∨ ∃ p, q = true :: p ∧ p.length < 9)) ∨
    ∃ p, q = true :: p ∧ 9 ≤ p.length ∧ 256 < (BitVec.ofNat 9 (valOf (p.take 9))).toNat
      ∧ e = .reservedSymbol (BitVec.ofNat 9 (valOf (p.take 9))) := by
  match q with
  | [] => cases h; exact .inl ⟨rfl, .inl rfl⟩
  | false :: p => cases h
  | true :: p =>
    rw [decodeRecord] at h
    by_cases hp : 9 ≤ p.length
    · rw [if_pos hp] at h
      by_cases hf : (BitVec.ofNat 9 (valOf (p.take 9))).toNat ≤ 256
      · rw [decodeSymbol_legal hf] at h
        cases h
      · rw [decodeSymbol_reserved (by omega)] at h
        cases h
        exact .inr ⟨p, rfl, hp, by omega, rfl⟩
    · rw [if_neg hp] at h
      cases h
      exact .inl ⟨rfl, .inr ⟨p, rfl, by omega⟩⟩

end Sys2Proof

namespace Sys2Proof.Machine

/-! ### The record reader on bits that are no record -/

/-- Reading a leaf's node bit leaves the field ahead (43_header_codec.md R161). -/
theorem inRead_leafBit {s : State} {q : Bits} (h : ahead s = true :: q) :
    ∃ t, inRead 1 s = (some 1#1, t) ∧ t = { s with inp := { s.inp with pos := s.inp.pos + 1 } } ∧ ahead t = q :=
  ⟨_, inRead_field (v := 1) (by decide) (by decide) h, rfl, ahead_advance (p := [true]) rfl h⟩

/-- The bits end before the node bit or inside the field (R161, R164). -/
theorem readRecord_truncated {s : State} (h : ahead s = [] ∨ ∃ q, ahead s = true :: q ∧ q.length < 9) :
    readRecord s = (.error .truncated, { s with inp := { s.inp with pos := s.inp.bits.length } }) := by
  rcases h with h | ⟨q, h, hq⟩
  · simp [readRecord, inRead_short (n := 1) (s := s) (by simp [h])]
  · obtain ⟨t, hbit, rfl, ht⟩ := inRead_leafBit h
    simp [readRecord, hbit, inRead_short (ht ▸ hq)]

/-- The field names no Symbol (30_encoding.md R100, 60_exceptions.md R224). -/
theorem readRecord_reserved {s : State} {q : Bits} (h : ahead s = true :: q) (hq : 9 ≤ q.length)
    (hf : 256 < (BitVec.ofNat 9 (valOf (q.take 9))).toNat) :
    readRecord s = (.error .badSymbol, { s with inp := { s.inp with pos := s.inp.pos + 10 } }) := by
  obtain ⟨t, hbit, hpos, ht⟩ := inRead_leafBit h
  have hlen : t.inp.pos + 9 ≤ t.inp.bits.length := by
    have := ahead_length t
    rw [ht] at this
    omega
  have hfield := inRead_enough hlen
  rw [ht] at hfield
  subst hpos
  simp [readRecord, hbit, hfield, decodeSymbol_reserved hf]

/-- Settles O4: the reader on a record, on bits that end too soon, and on a reserved field, which are all the answers
of the record decoder. -/
theorem recordReaderMatchesDecoder : Obligations.RecordReaderMatchesDecoder := by
  unfold Obligations.RecordReaderMatchesDecoder
  intro s hin
  match h : decodeRecord (ahead s) with
  | .ok (r, rest) => exact readRecord_of_decodeRecord hin h
  | .error e =>
    rcases decodeRecord_error h with ⟨rfl, hshort⟩ | ⟨q, ha, hq, hf, rfl⟩
    · exact readRecord_truncated hshort
    · exact readRecord_reserved ha hq hf

/-! ### Steps and stream items -/

/-- Settles O6: a write to register 0 is the host's move that hands its word to the command decoder. -/
theorem stepRunsCommand : Obligations.StepRunsCommand := by
  unfold Obligations.StepRunsCommand
  intro s w i rest hbusy hhost hw
  rw [step_move hbusy hhost, hostMove, if_pos rfl, writeCmd, hw]

/-- Settles O34: the meaning of the marker is the successful end of a command (30_encoding.md R94). -/
theorem magicWordResult : Obligations.MagicWordResult := by
  unfold Obligations.MagicWordResult
  exact fun _ => rfl

/-- A header record stored at `NNODES`, not yet hung under a waiting node (R161). -/
def storeRecord (r : HdrRecord) (s : State) (h : s.nnodes.val < 513) : State :=
  { s with node := s.node.set s.nnodes.val (nodeOfRecord r) h, nnodes := nextCount s.nnodes }

theorem hangNode_nil {i : NodeIx} {s : State} (h : s.stack = []) : hangNode i s = s := by
  rw [hangNode, h]

/-- Taking a leaf record with room in the arena (R161). -/
theorem takeRecord_leaf (sym : BitVec 9) {s : State} (h : s.nnodes.val < 513) :
    takeRecord (.leaf sym) s = .ok (hangNode ⟨s.nnodes.val, h⟩ (storeRecord (.leaf sym) s h)) := by
  rw [takeRecord, allocNode_room h]
  rfl

/-- Taking an internal node's record with room in the arena and on the stack (R161). -/
theorem takeRecord_internal {s : State} (h : s.nnodes.val < 513) (hsp : s.stack.length < 513) :
    ∃ t, t = hangNode ⟨s.nnodes.val, h⟩ (storeRecord .internal s h)
      ∧ takeRecord .internal s = .ok { t with stack := waitEntry ⟨s.nnodes.val, h⟩ :: t.stack } := by
  have hle := hangNode_stack_le ⟨s.nnodes.val, h⟩ (storeRecord .internal s h)
  refine ⟨_, rfl, ?_⟩
  rw [takeRecord, allocNode_room h]
  exact pushRun_room (hle.trans_lt hsp)

/-- The reader goes on while a node waits for a child (R161; log 7). -/
theorem readerTakes_waiting {r : HdrRecord} {s t : State} (h : takeRecord r s = .ok t) (hstack : t.stack ≠ []) :
    readerTakes r s = .next t := by
  simp [readerTakes, h, hstack]

/-- The header is complete when no node waits for a child (R161, R94; log 7). -/
theorem readerTakes_complete {r : HdrRecord} {s t : State} (h : takeRecord r s = .ok t) (hstack : t.stack = []) :
    readerTakes r s = .next (finish (endHeader t)) := by
  simp [readerTakes, h, hstack]

/-- A leaf's record with a legal field is taken as it stands (30_encoding.md R100). -/
theorem exec_hdrLeaf {sym : BitVec 9} (s : State) (h : sym.toNat ≤ 256) :
    exec (.hdrLeaf sym) s = readerTakes (.leaf sym) s := by
  show execHdrLeaf sym s = _
  rw [execHdrLeaf, decodeSymbol_legal h]

/-- Settles O32: the leaf is stored and hung; the stack left behind tells whether the header goes on. -/
theorem hdrLeafResult : Obligations.HdrLeafResult := by
  unfold Obligations.HdrLeafResult
  intro s sym h hsym
  refine ⟨nextCount s.nnodes, nextCount_val h, ?_⟩
  have htake := takeRecord_leaf sym h
  rw [exec_hdrLeaf s hsym]
  split
  next hs =>
    rw [hangNode_nil (s := storeRecord _ s h) hs] at htake
    exact readerTakes_complete htake hs
  next e rest hs =>
    rw [hangNode_cons (s := storeRecord _ s h) hs] at htake
    split
    next hslot =>
      rw [readerTakes_waiting htake (by simp [stillWaiting, hslot])]
      simp [storeRecord, nodeOfRecord, linked, stillWaiting, hslot]
    next hslot =>
      refine ⟨fun hrest => ?_, fun hrest => ?_⟩
      · rw [readerTakes_waiting htake (by simpa [stillWaiting, hslot])]
        simp [storeRecord, nodeOfRecord, linked, stillWaiting, hslot]
      · rw [readerTakes_complete htake (by simpa [stillWaiting, hslot])]
        simp [storeRecord, nodeOfRecord, linked, stillWaiting, hslot, hrest, finish, endHeader, endTrie]

/-- Settles O33: the node is stored and hung, and then waits itself, so the header goes on. -/
theorem hdrInternalResult : Obligations.HdrInternalResult := by
  unfold Obligations.HdrInternalResult
  intro s h hsp
  refine ⟨nextCount s.nnodes, nextCount_val h, ?_⟩
  obtain ⟨t, ht, htake⟩ := takeRecord_internal h hsp
  have hexec : exec .hdrInternal s = .next { t with stack := waitEntry ⟨s.nnodes.val, h⟩ :: t.stack } :=
    readerTakes_waiting htake (by simp)
  rw [hexec]
  split
  next hs =>
    rw [hangNode_nil (s := storeRecord _ s h) hs] at ht
    simp [ht, storeRecord, nodeOfRecord, waitEntry, hs]
  next e rest hs =>
    rw [hangNode_cons (s := storeRecord _ s h) hs] at ht
    split
    all_goals
      next hslot => simp [ht, storeRecord, nodeOfRecord, waitEntry, linked, stillWaiting, hslot]

end Sys2Proof.Machine

namespace Sys2Proof.Machine

/-! ### The counts of a byte sequence -/

/-- The byte counts of 40_frequency_table.md R124 alone: what COUNT's scan has in `FREQ` behind these bytes, with the
pseudo-symbol not yet counted (R122). -/
def byteCounts (bytes : List (BitVec 8)) : Vector Word 257 :=
  Vector.ofFn fun v => BitVec.ofNat 32 (occurrences bytes v.val)

theorem occurrences_concat (bytes : List (BitVec 8)) (x : BitVec 8) (v : Nat) :
    occurrences (bytes ++ [x]) v = occurrences bytes v + if x.toNat = v then 1 else 0 := by
  simp [occurrences, List.countP_append, List.countP_singleton]

/-- No byte is the pseudo-symbol. -/
theorem occurrences_eos (bytes : List (BitVec 8)) : occurrences bytes 256 = 0 :=
  List.countP_eq_zero.mpr fun b _ => by simpa using b.isLt.ne

/-- Each byte has one of the 256 byte values, so the byte counts sum to the number of bytes. -/
theorem sum_occurrences (bytes : List (BitVec 8)) : ∑ v : Fin 256, occurrences bytes v.val = bytes.length := by
  induction bytes using List.reverseRecOn with
  | nil => simp [occurrences]
  | append_singleton bytes x ih =>
    have hone : ∑ v : Fin 256, (if x.toNat = v.val then 1 else 0) = 1 := by
      simp [← BitVec.val_toFin, Fin.val_inj]
    simp only [occurrences_concat, Finset.sum_add_distrib, ih, hone, List.length_append, List.length_singleton]

theorem byteCounts_nil : byteCounts [] = Vector.replicate 257 0#32 := by
  ext v hv : 1
  simp [byteCounts, occurrences]

/-- R122: counting one more byte. -/
theorem byteCounts_concat (bytes : List (BitVec 8)) (x : BitVec 8) :
    (byteCounts bytes).set (byteSymbol x).val ((byteCounts bytes)[byteSymbol x] + 1#32) (byteSymbol x).isLt =
      byteCounts (bytes ++ [x]) := by
  ext v hv : 1
  by_cases h : x.toNat = v
  · subst h
    simp [byteCounts, byteSymbol, occurrences_concat, BitVec.ofNat_add]
  · simp [byteCounts, byteSymbol, occurrences_concat, Vector.getElem_set_ne, h]

/-- R122: counting the pseudo-symbol at the end of the scan. -/
theorem byteCounts_set_eos (bytes : List (BitVec 8)) : (byteCounts bytes).set 256 1#32 = freqOf bytes := by
  ext v hv : 1
  by_cases h : v = 256
  · subst h
    simp [freqOf]
  · simp [byteCounts, freqOf, h, Ne.symm h]

/-- R123: an entry holds all ones exactly when its byte occurred `2^32 - 1` times. -/
theorem byteCounts_full_iff {bytes : List (BitVec 8)} {x : BitVec 8} (h : occurrences bytes x.toNat < 2 ^ 32) :
    (byteCounts bytes)[byteSymbol x] = BitVec.allOnes 32 ↔ occurrences bytes x.toNat = 2 ^ 32 - 1 := by
  have hcount : ((byteCounts bytes)[byteSymbol x]).toNat = occurrences bytes x.toNat := by
    simpa [byteCounts, byteSymbol] using h
  rw [← BitVec.toNat_inj, hcount, BitVec.toNat_allOnes]

/-- R124: the counts of the bytes, and 1 for the pseudo-symbol. -/
theorem freqSum_freqOf {bytes : List (BitVec 8)} (h : ∀ v, occurrences bytes v < 2 ^ 32) :
    freqSum (freqOf bytes) = bytes.length + 1 := by
  have hbyte : ∀ v : Fin 256, ((freqOf bytes)[v.castSucc]).toNat = occurrences bytes v.val := fun v => by
    simpa [freqOf, v.isLt.ne] using h v.val
  have heos : ((freqOf bytes)[Fin.last 256]).toNat = 1 := by simp [freqOf]
  rw [freqSum, ← List.ofFn_eq_map, List.sum_ofFn, Fin.sum_univ_castSucc, heos, Finset.sum_congr rfl fun v _ => hbyte v,
    sum_occurrences]

/-! ### COUNT's scan -/

theorem bytesBits_concat (bytes : List (BitVec 8)) (x : BitVec 8) :
    bytesBits (bytes ++ [x]) = bytesBits bytes ++ bitsOf 8 x.toNat := by
  simp [bytesBits]

@[simp] theorem bytesBits_length (bytes : List (BitVec 8)) : (bytesBits bytes).length = 8 * bytes.length := by
  simp [bytesBits, List.length_flatMap, Nat.mul_comm]

/-- The scan begun in s, after these bytes: their counts in `FREQ`, and IN just behind them (R122). -/
def scanned (bytes : List (BitVec 8)) (s : State) : State :=
  { s with freq := byteCounts bytes, inp := { s.inp with pos := s.inp.pos + 8 * bytes.length } }

theorem ahead_scanned {bytes : List (BitVec 8)} {s : State} {rest : Bits} (h : ahead s = bytesBits bytes ++ rest) :
    ahead (scanned bytes s) = rest := by
  have hdrop : ahead (scanned bytes s) = (ahead s).drop (bytesBits bytes).length := by
    simp [ahead, scanned, List.drop_drop]
  rw [hdrop, h, List.drop_left]

/-- R122: the scan ends where fewer than 8 bits are left. -/
theorem countLoop_exhausted {fuel : Nat} {s : State} (h : (ahead s).length < 8) :
    countLoop (fuel + 1) s = .ok { s with inp := { s.inp with pos := s.inp.bits.length } } := by
  rw [countLoop, inRead_short h]

/-- The iteration of the scan on the byte x behind the bytes counted so far, with the check of R123. -/
theorem countLoop_byte {fuel : Nat} {bytes : List (BitVec 8)} {x : BitVec 8} {s : State} {rest : Bits}
    (h : ahead (scanned bytes s) = bitsOf 8 x.toNat ++ rest) (hlt : occurrences bytes x.toNat < 2 ^ 32) :
    countLoop (fuel + 1) (scanned bytes s) =
      if occurrences bytes x.toNat = 2 ^ 32 - 1 then
        .raised .overflow { scanned (bytes ++ [x]) s with freq := byteCounts bytes }
      else countLoop fuel (scanned (bytes ++ [x]) s) := by
  have hread := inRead_field (by decide) x.isLt h
  rw [BitVec.ofNat_toNat, BitVec.setWidth_eq] at hread
  rw [countLoop, hread]
  simp only [scanned, byteCounts_full_iff hlt, byteCounts_concat, List.length_append, List.length_singleton,
    Nat.mul_add_one, Nat.add_assoc]

/-- R122: the scan passes over bytes whose counts stay below 2^32, one iteration each. -/
theorem countLoop_scanned {bytes : List (BitVec 8)} {fuel : Nat} {s : State} {rest : Bits}
    (h : ahead s = bytesBits bytes ++ rest) (hlt : ∀ v, occurrences bytes v < 2 ^ 32) :
    countLoop (fuel + bytes.length) (scanned [] s) = countLoop fuel (scanned bytes s) := by
  induction bytes using List.reverseRecOn generalizing fuel rest with
  | nil => rfl
  | append_singleton bytes x ih =>
    rw [bytesBits_concat, List.append_assoc] at h
    have hlt' : ∀ v, occurrences bytes v < 2 ^ 32 := fun v =>
      Nat.lt_of_le_of_lt (by simp [occurrences_concat]) (hlt v)
    have hroom : occurrences bytes x.toNat ≠ 2 ^ 32 - 1 := by
      have := hlt x.toNat
      rw [occurrences_concat, if_pos rfl] at this
      omega
    calc countLoop (fuel + (bytes ++ [x]).length) (scanned [] s)
      _ = countLoop (fuel + 1 + bytes.length) (scanned [] s) := by
        rw [List.length_append, List.length_singleton, Nat.add_comm bytes.length, Nat.add_assoc]
      _ = countLoop (fuel + 1) (scanned bytes s) := ih h hlt'
      _ = countLoop fuel (scanned (bytes ++ [x]) s) := by
        rw [countLoop_byte (ahead_scanned h) (hlt' _), if_neg hroom]

/-- COUNT's scan on a whole IN: its bound leaves an iteration for what follows the bytes (R122). -/
theorem countLoop_start {bytes : List (BitVec 8)} {s : State} {rest : Bits} (h : ahead s = bytesBits bytes ++ rest)
    (hlt : ∀ v, occurrences bytes v < 2 ^ 32) :
    ∃ fuel, countLoop (s.inp.bits.length + 1) (scanned [] s) = countLoop (fuel + 1) (scanned bytes s) := by
  have hle := ahead_le_bits s
  rw [h, List.length_append, bytesBits_length] at hle
  obtain ⟨fuel, hfuel⟩ : ∃ fuel, s.inp.bits.length + 1 = fuel + 1 + bytes.length :=
    ⟨s.inp.bits.length - bytes.length, by omega⟩
  exact ⟨fuel, hfuel ▸ countLoop_scanned h hlt⟩

/-- COUNT's body is its scan, from no bytes on, and the count of the pseudo-symbol (R122). -/
theorem countBody_eq (s : State) : countBody s =
    (countLoop (s.inp.bits.length + 1) (scanned [] { s with freqValid := false })).bind fun t =>
      .ok { t with freq := t.freq.set 256 1#32, freqValid := true } := by
  rw [countBody, scanned, byteCounts_nil]
  rfl

/-- R124: COUNT's body on bytes whose counts stay below 2^32. -/
theorem countBody_counts {bytes : List (BitVec 8)} {s : State} {rest : Bits} (h : ahead s = bytesBits bytes ++ rest)
    (hrest : rest.length < 8) (hlt : ∀ v, occurrences bytes v < 2 ^ 32) :
    countBody s = .ok { s with
      freqValid := true, freq := freqOf bytes, inp := { s.inp with pos := s.inp.bits.length } } := by
  obtain ⟨fuel, hscan⟩ := countLoop_start (s := { s with freqValid := false }) h hlt
  have hahead : ahead (scanned bytes { s with freqValid := false }) = rest := ahead_scanned h
  rw [countBody_eq, hscan, countLoop_exhausted (hahead ▸ hrest), bind_ok]
  simp only [scanned, byteCounts_set_eos]

/-- R123: COUNT's body on a byte whose count would become 2^32. -/
theorem countBody_overflows {bytes : List (BitVec 8)} {x : BitVec 8} {s : State} {rest : Bits}
    (h : ahead s = bytesBits (bytes ++ [x]) ++ rest) (hlt : ∀ v, occurrences bytes v < 2 ^ 32)
    (hfull : occurrences bytes x.toNat = 2 ^ 32 - 1) :
    countBody s = .raised .overflow { s with
      freqValid := false, freq := byteCounts bytes
      inp := { s.inp with pos := s.inp.pos + 8 * (bytes.length + 1) } } := by
  rw [bytesBits_concat, List.append_assoc] at h
  obtain ⟨fuel, hscan⟩ := countLoop_start (s := { s with freqValid := false }) h hlt
  have hahead : ahead (scanned bytes { s with freqValid := false }) = bitsOf 8 x.toNat ++ rest := ahead_scanned h
  rw [countBody_eq, hscan, countLoop_byte hahead (hlt _), if_pos hfull, bind_raised]
  simp only [scanned, List.length_append, List.length_singleton]

/-! ### The Frequency Table commands -/

theorem exec_count {s : State} (h : Ready s) : exec .count s = settle (countBody (setPhase .count (accept s))) :=
  issue_primitive h rfl

/-- Settles O13: the body counts every byte, and the counts of the 256 byte values sum to the number of bytes. -/
theorem countResult : Obligations.CountResult := by
  unfold Obligations.CountResult
  intro s bytes rest hs h hrest hlt
  refine ⟨?_, freqSum_freqOf hlt⟩
  rw [exec_count hs, countBody_counts (s := setPhase .count (accept s)) h hrest hlt, settle, Host.Outcome.next.injEq,
    State.mk.injEq]
  simp [opcodeOf, hs.1]

/-- Settles O14: the scan reaches the byte with all counts below 2^32, and its check raises on that byte. -/
theorem countOverflowRaises : Obligations.CountOverflowRaises := by
  unfold Obligations.CountOverflowRaises
  intro s bytes x rest hs h hlt hfull
  rw [exec_count hs, countBody_overflows (s := setPhase .count (accept s)) h hlt hfull, settle,
    Host.Outcome.next.injEq, State.mk.injEq]
  simp [byteCounts, opcodeOf, Err.code, hs.1]

/-- The table CLRFREQ writes is the one of no bytes (R121). -/
theorem emptyFreq_eq : emptyFreq = freqOf [] := by
  rw [emptyFreq, ← byteCounts_nil, byteCounts_set_eos]

/-- R121's example: the host's two writes to the table of an empty input. -/
theorem freqOf_example : ((freqOf []).set 65 2#32).set 66 1#32 = freqOf [0x41, 0x41, 0x42] := by
  ext v hv : 1
  by_cases ha : v = 65
  · subst ha
    simp [freqOf, occurrences]
  by_cases hb : v = 66
  · subst hb
    simp [freqOf, occurrences]
  · simp [freqOf, occurrences, Ne.symm ha, Ne.symm hb]

/-- Settles O12: CLRFREQ's body writes one table, which is the one of no bytes. -/
theorem clrfreqResult : Obligations.ClrfreqResult := by
  unfold Obligations.ClrfreqResult
  refine ⟨by decide, fun s hs => ?_, freqOf_example⟩
  have hrun : exec .clrfreq s = settle (clrfreqBody (setPhase .clrfreq (accept s))) := issue_primitive hs rfl
  rw [hrun, clrfreqBody, settle, Host.Outcome.next.injEq, State.mk.injEq]
  simp [emptyFreq_eq, opcodeOf, hs.1]

end Sys2Proof.Machine

namespace Sys2Proof.Machine

/-! ### `huff`'s set: what its rounds keep -/

/-- The entry that `huff` puts in for its two least entries, under the sequence number n (41_trie_builder.md R137). -/
def merged (a b : Trie × Nat) (n : Nat) : Trie × Nat :=
  (.node (a.1.value + b.1.value) (a.1.weight + b.1.weight) a.1 b.1, n)

theorem huff_round (fuel : Nat) (a b : Trie × Nat) (rest : List (Trie × Nat)) (n : Nat) :
    huff (fuel + 1) (a :: b :: rest) n = huff fuel (huffInsert (merged a b n) rest) (n + 1) := rfl

theorem huffInsert_perm (x : Trie × Nat) (Q : List (Trie × Nat)) : (huffInsert x Q).Perm (x :: Q) := by
  induction Q with
  | nil => exact .refl _
  | cons y Q ih =>
    unfold huffInsert
    split
    · exact .refl _
    · exact (ih.cons y).trans (.swap x y Q)

theorem huffInsert_length (x : Trie × Nat) (Q : List (Trie × Nat)) : (huffInsert x Q).length = Q.length + 1 :=
  (huffInsert_perm x Q).length_eq

/-- The sum of f over the tries of `huff`'s set. -/
def total {M : Type} [AddCommMonoid M] (f : Trie → M) (Q : List (Trie × Nat)) : M := (Q.map fun x => f x.1).sum

/-- A combined trie has the sum of what its two parts have. -/
def SumsUp {M : Type} [AddCommMonoid M] (f : Trie → M) : Prop := ∀ a b n, f (merged a b n).1 = f a.1 + f b.1

theorem sumsUp_weight : SumsUp Trie.weight := fun _ _ _ => rfl

theorem sumsUp_value : SumsUp Trie.value := fun _ _ _ => rfl

theorem sumsUp_leafWeights : SumsUp fun t => (t.leafWeights : Multiset (Nat × Nat)) :=
  fun _ _ _ => (Multiset.coe_add _ _).symm

section
variable {M : Type} [AddCommMonoid M] {f : Trie → M}

theorem total_cons (x : Trie × Nat) (Q : List (Trie × Nat)) : total f (x :: Q) = f x.1 + total f Q := List.sum_cons

theorem total_huffInsert (x : Trie × Nat) (Q : List (Trie × Nat)) : total f (huffInsert x Q) = f x.1 + total f Q :=
  ((huffInsert_perm x Q).map _).sum_eq.trans (total_cons x Q)

/-- A round of `huff` keeps the sum over its set (R138 c, R139). -/
theorem total_round (hf : SumsUp f) (a b : Trie × Nat) (rest : List (Trie × Nat)) (n : Nat) :
    total f (huffInsert (merged a b n) rest) = total f (a :: b :: rest) := by
  rw [total_huffInsert, hf, total_cons, total_cons, add_assoc]

/-- The trie `huff` answers has the sum over the set it starts from. -/
theorem huff_total (hf : SumsUp f) {fuel : Nat} {Q : List (Trie × Nat)} {n : Nat} {t : Trie}
    (h : huff fuel Q n = some t) : f t = total f Q := by
  induction fuel generalizing Q n with
  | zero => cases h
  | succ fuel ih =>
    match Q with
    | [] => cases h
    | [x] => cases h; simp [total]
    | a :: b :: rest => exact (ih h).trans (total_round hf a b rest n)

end

/-- `huff` keeps exact sums at every internal node (R138 c, R139). -/
theorem huff_summed {fuel : Nat} {Q : List (Trie × Nat)} {n : Nat} {t : Trie} (hQ : ∀ x ∈ Q, x.1.summed)
    (h : huff fuel Q n = some t) : t.summed := by
  induction fuel generalizing Q n with
  | zero => cases h
  | succ fuel ih =>
    match Q with
    | [] => cases h
    | [x] => cases h; exact hQ _ List.mem_cons_self
    | a :: b :: rest =>
      simp only [List.forall_mem_cons] at hQ
      obtain ⟨ha, hb, hrest⟩ := hQ
      refine ih (fun x hx => ?_) h
      rcases List.mem_cons.mp ((huffInsert_perm _ _).mem_iff.mp hx) with rfl | hx
      · exact ⟨rfl, rfl, ha, hb⟩
      · exact hrest x hx

/-! ### `Q_0`: the leaves of the symbols with a frequency -/

/-- The leaves of a list of symbols in `huff`'s set, the k-th under sequence number k (R137). -/
def leafQueue (freq : Vector Word 257) (syms : List Symbol) : List (Trie × Nat) :=
  syms.zipIdx.foldl (fun q e => huffInsert (.leaf e.1.val (freq[e.1]).toNat, e.2) q) []

theorem huffLeaves_eq (freq : Vector Word 257) : huffLeaves freq = leafQueue freq (liveSymbols freq) := rfl

theorem leafQueue_concat (freq : Vector Word 257) (syms : List Symbol) (v : Symbol) :
    leafQueue freq (syms ++ [v]) = huffInsert (.leaf v.val (freq[v]).toNat, syms.length) (leafQueue freq syms) := by
  simp [leafQueue, List.zipIdx_append]

theorem leafQueue_length (freq : Vector Word 257) (syms : List Symbol) :
    (leafQueue freq syms).length = syms.length := by
  induction syms using List.reverseRecOn with
  | nil => rfl
  | append_singleton syms v ih => simp [leafQueue_concat, huffInsert_length, ih]

theorem leafQueue_summed (freq : Vector Word 257) (syms : List Symbol) : ∀ x ∈ leafQueue freq syms, x.1.summed := by
  induction syms using List.reverseRecOn with
  | nil => simp [leafQueue]
  | append_singleton syms v ih =>
    rw [leafQueue_concat]
    intro x hx
    rcases List.mem_cons.mp ((huffInsert_perm _ _).mem_iff.mp hx) with rfl | hx
    · trivial
    · exact ih x hx

theorem total_leafQueue {M : Type} [AddCommMonoid M] (f : Trie → M) (freq : Vector Word 257) (syms : List Symbol) :
    total f (leafQueue freq syms) = (syms.map fun v => f (.leaf v.val (freq[v]).toNat)).sum := by
  induction syms using List.reverseRecOn with
  | nil => rfl
  | append_singleton syms v ih =>
    rw [leafQueue_concat, total_huffInsert, ih, List.map_append, List.sum_append, List.map_singleton,
      List.sum_singleton, add_comm]

theorem mem_liveSymbols {freq : Vector Word 257} {v : Symbol} : v ∈ liveSymbols freq ↔ freq[v] ≠ 0#32 := by
  simp [liveSymbols]

theorem liveSymbols_length_le (freq : Vector Word 257) : (liveSymbols freq).length ≤ 257 :=
  (List.length_filter_le _ _).trans_eq List.length_finRange

/-- Leaving out the symbols without a frequency leaves the sum of all counts as it is (R134). -/
theorem total_weight_huffLeaves (freq : Vector Word 257) : total Trie.weight (huffLeaves freq) = freqSum freq := by
  rw [huffLeaves_eq, total_leafQueue, liveSymbols, freqSum]
  induction List.finRange 257 with
  | nil => rfl
  | cons v l ih =>
    by_cases hv : freq[v] = 0#32
    · rw [List.filter_cons_of_neg (by simpa using hv), ih, List.map_cons, List.sum_cons, hv]
      exact (Nat.zero_add _).symm
    · rw [List.filter_cons_of_pos (by simpa using hv), List.map_cons, List.sum_cons, ih, List.map_cons, List.sum_cons]
      rfl

/-- R139: the Symbols of a trie are distinct, so its identity values stay within 16 bits. -/
theorem total_value_huffLeaves (freq : Vector Word 257) : total Trie.value (huffLeaves freq) < 2 ^ 16 := by
  rw [huffLeaves_eq, total_leafQueue]
  calc ((liveSymbols freq).map Fin.val).sum
    _ ≤ ((List.finRange 257).map Fin.val).sum := (List.filter_sublist.map _).sum_le_sum (fun _ _ => Nat.zero_le _)
    _ = 257 * (257 - 1) / 2 := by
      rw [← Fin.sum_univ_def, Fin.sum_univ_eq_sum_range (fun i => i), Finset.sum_range_id]
    _ < 2 ^ 16 := by decide

theorem total_leafWeights_huffLeaves (freq : Vector Word 257) :
    total (fun t => (t.leafWeights : Multiset (Nat × Nat))) (huffLeaves freq) =
      ((liveSymbols freq).map fun v => (v.val, (freq[v]).toNat) : List (Nat × Nat)) := by
  rw [huffLeaves_eq, total_leafQueue]
  induction liveSymbols freq with
  | nil => rfl
  | cons v l ih =>
    rw [List.map_cons, List.sum_cons, ih]
    rfl

/-- R138 a, b: the leaves are the symbols with a frequency, each once with its frequency. -/
theorem huffTrie_leafWeights {freq : Vector Word 257} {t : Trie} (h : huffTrie freq = some t) :
    t.leafWeights.Perm ((liveSymbols freq).map fun v => (v.val, (freq[v]).toNat)) :=
  Multiset.coe_eq_coe.mp ((huff_total sumsUp_leafWeights h).trans (total_leafWeights_huffLeaves freq))

/-- R138 c: the root's weight is the sum of all counts. -/
theorem huffTrie_weight {freq : Vector Word 257} {t : Trie} (h : huffTrie freq = some t) : t.weight = freqSum freq :=
  (huff_total sumsUp_weight h).trans (total_weight_huffLeaves freq)

theorem huffTrie_summed {freq : Vector Word 257} {t : Trie} (h : huffTrie freq = some t) : t.summed :=
  huff_summed (leafQueue_summed freq (liveSymbols freq)) h

/-! ### BUILD's queue and arena in terms of `huff`'s set -/

theorem TreeAt.value_eq {node : Vector Node 513} {i : NodeIx} {t : Trie} {ids : List NodeIx}
    (h : TreeAt node i t ids) : (node[i]).value.toNat = t.value := by
  cases h <;> rfl

theorem TreeAt.weight_eq {node : Vector Node 513} {i : NodeIx} {t : Trie} {ids : List NodeIx}
    (h : TreeAt node i t ids) : (node[i]).weight.toNat = t.weight := by
  cases h <;> rfl

theorem TreeAt.root_mem {node : Vector Node 513} {i : NodeIx} {t : Trie} {ids : List NodeIx}
    (h : TreeAt node i t ids) : i ∈ ids := by
  cases h <;> exact List.mem_cons_self

/-- A queue entry stands for an entry of `huff`'s set: its node roots the trie, below index n, and weight and sequence
number are the same (R137). -/
structure StandsFor (node : Vector Node 513) (n : Nat) (e : PqEntry) (x : Trie × Nat) : Prop where
  tree : ∃ ids, TreeAt node e.node x.1 ids ∧ ∀ j ∈ ids, j.val < n
  weight : e.weight.toNat = x.1.weight
  seq : e.seq.val = x.2

section
variable {node : Vector Node 513} {n : Nat}

theorem StandsFor.node_lt {e : PqEntry} {x : Trie × Nat} (h : StandsFor node n e x) : e.node.val < n := by
  obtain ⟨⟨ids, ht, hids⟩, _, _⟩ := h
  exact hids _ ht.root_mem

theorem StandsFor.before_eq {e d : PqEntry} {x y : Trie × Nat} (h : StandsFor node n e x) (k : StandsFor node n d y) :
    pqBefore e d = huffBefore x y := by
  simp only [pqBefore, huffBefore, ← BitVec.toNat_inj, h.weight, k.weight, h.seq, k.seq]

/-- `PQ` and `huff`'s set are kept in the same order, so an insertion puts both entries at the same place (10_state.md
R36, R137). -/
theorem standsFor_insert {e : PqEntry} {x : Trie × Nat} {q : List PqEntry} {Q : List (Trie × Nat)}
    (h : StandsFor node n e x) (hq : List.Forall₂ (StandsFor node n) q Q) :
    List.Forall₂ (StandsFor node n) (pqInsert e q) (huffInsert x Q) := by
  induction hq with
  | nil => exact .cons h .nil
  | cons hd hrest ih =>
    unfold pqInsert huffInsert
    rw [h.before_eq hd]
    split
    · exact .cons h (.cons hd hrest)
    · exact .cons hd ih

end

/-- The state after a node has been stored and put into the queue (R131). -/
def queued (nd : Node) (s : State) (h : s.nnodes.val < 513) : State :=
  enqueue nd.weight ⟨s.nnodes.val, h⟩ { s with node := s.node.set s.nnodes.val nd, nnodes := nextCount s.nnodes }

section
variable {nd : Node} {s : State} (h : s.nnodes.val < 513)

theorem addToQueue_room : addToQueue nd s = .ok (queued nd s h) := by simp [addToQueue, allocNode_room h, queued]

@[simp] theorem queued_nnodes : (queued nd s h).nnodes.val = s.nnodes.val + 1 := nextCount_val h
@[simp] theorem queued_seq : (queued nd s h).seq = nextCount s.seq := rfl
@[simp] theorem queued_pq : (queued nd s h).pq = pqInsert ⟨nd.weight, s.seq, ⟨s.nnodes.val, h⟩⟩ s.pq := rfl
@[simp] theorem queued_node_new : (queued nd s h).node[(⟨s.nnodes.val, h⟩ : NodeIx)] = nd := by simp [queued, enqueue]

theorem queued_node_old {j : NodeIx} (hj : j.val < s.nnodes.val) : (queued nd s h).node[j] = s.node[j] :=
  Vector.getElem_set_ne h j.isLt (by omega)

/-- Storing a node leaves what stands below it as it is. -/
theorem standsFor_queued {e : PqEntry} {x : Trie × Nat} (he : StandsFor s.node s.nnodes.val e x) :
    StandsFor (queued nd s h).node (s.nnodes.val + 1) e x := by
  obtain ⟨⟨ids, ht, hids⟩, hweight, hseq⟩ := he
  exact ⟨⟨ids, ht.congr fun j hj => queued_node_old h (hids j hj), fun j hj => Nat.lt_succ_of_lt (hids j hj)⟩,
    hweight, hseq⟩

end

/-- `PQ` holds `huff`'s set Q, the next sequence number is the next index (R133), and the node stored last is in the
queue. -/
structure Represents (Q : List (Trie × Nat)) (s : State) : Prop where
  queue : List.Forall₂ (StandsFor s.node s.nnodes.val) s.pq Q
  seq : s.seq = s.nnodes
  newest : ∀ n, s.nnodes.val = n + 1 → ∃ e ∈ s.pq, e.node.val = n

/-- Storing the root of a trie and queueing it puts that trie into `huff`'s set (R137). -/
theorem represents_queued {nd : Node} {s : State} {Q : List (Trie × Nat)} {t : Trie} {ids : List NodeIx}
    (h : s.nnodes.val < 513) (hq : List.Forall₂ (StandsFor s.node s.nnodes.val) s.pq Q) (hseq : s.seq = s.nnodes)
    (ht : TreeAt (queued nd s h).node ⟨s.nnodes.val, h⟩ t ids) (hids : ∀ j ∈ ids, j.val ≤ s.nnodes.val) :
    Represents (huffInsert (t, s.nnodes.val) Q) (queued nd s h) := by
  refine ⟨?_, by rw [queued_seq, hseq]; rfl, fun n hn => ?_⟩
  · have hweight : nd.weight.toNat = t.weight := by rw [← ht.weight_eq, queued_node_new]
    rw [queued_nnodes, queued_pq]
    exact standsFor_insert ⟨⟨ids, ht, fun j hj => Nat.lt_succ_of_le (hids j hj)⟩, hweight, congrArg Fin.val hseq⟩
      (hq.imp fun _ _ he => standsFor_queued h he)
  · rw [queued_nnodes, Nat.succ_inj] at hn
    exact ⟨_, (pqInsert_perm _ _).mem_iff.mpr List.mem_cons_self, hn⟩

/-- The arena below `NNODES`: these leaves first, then internal nodes over smaller indices (R133). -/
structure Placed (leaves : List Node) (s : State) : Prop where
  within : leaves.length ≤ s.nnodes.val
  leaf : ∀ (k : NodeIx) (h : k.val < leaves.length), s.node[k] = leaves[k.val]
  inner : ∀ i : NodeIx, leaves.length ≤ i.val → i.val < s.nnodes.val →
    (s.node[i]).kind = false ∧ (s.node[i]).left < i ∧ (s.node[i]).right < i

theorem Placed.queued_leaf {leaves : List Node} {nd : Node} {s : State} (hp : Placed leaves s)
    (hn : s.nnodes.val = leaves.length) (h : s.nnodes.val < 513) : Placed (leaves ++ [nd]) (queued nd s h) := by
  refine ⟨by simp [hn], fun k hk => ?_, fun i hi hi' => ?_⟩
  · rw [List.length_append, List.length_singleton] at hk
    rcases Nat.lt_succ_iff_lt_or_eq.mp hk with hlt | heq
    · rw [queued_node_old h (hn ▸ hlt), hp.leaf k hlt, List.getElem_append_left hlt]
    · obtain rfl : k = ⟨s.nnodes.val, h⟩ := Fin.ext (heq.trans hn.symm)
      rw [queued_node_new]
      simp [hn]
  · rw [List.length_append, List.length_singleton] at hi
    rw [queued_nnodes] at hi'
    omega

theorem Placed.queued_inner {leaves : List Node} {nd : Node} {s : State} (hp : Placed leaves s)
    (h : s.nnodes.val < 513) (hkind : nd.kind = false) (hleft : nd.left.val < s.nnodes.val)
    (hright : nd.right.val < s.nnodes.val) : Placed leaves (queued nd s h) := by
  refine ⟨by rw [queued_nnodes]; exact Nat.le_succ_of_le hp.within, fun k hk => ?_, fun i hi hi' => ?_⟩
  · rw [queued_node_old h (hk.trans_le hp.within), hp.leaf k hk]
  · rw [queued_nnodes] at hi'
    rcases Nat.lt_succ_iff_lt_or_eq.mp hi' with hlt | heq
    · rw [queued_node_old h hlt]
      exact hp.inner i hi hlt
    · obtain rfl : i = ⟨s.nnodes.val, h⟩ := Fin.ext heq
      rw [queued_node_new]
      exact ⟨hkind, hleft, hright⟩

/-! ### Phase 1 -/

/-- The leaves of a list of symbols, in order (R133). -/
def leafNodes (freq : Vector Word 257) (syms : List Symbol) : List Node := syms.map fun v => leafNode v freq[v]

@[simp] theorem leafNodes_length (freq : Vector Word 257) (syms : List Symbol) :
    (leafNodes freq syms).length = syms.length := List.length_map _

/-- Phase 1 passes over the symbols without a frequency (R131). -/
theorem leafLoop_live (l : List Symbol) (s : State) :
    leafLoop l s = leafLoop (l.filter fun v => s.freq[v] ≠ 0#32) s := by
  induction l generalizing s with
  | nil => rfl
  | cons v l ih =>
    by_cases hv : s.freq[v] = 0#32
    · rw [List.filter_cons_of_neg (by simpa using hv), leafLoop, if_pos hv, ih]
    · rw [List.filter_cons_of_pos (by simpa using hv), leafLoop, leafLoop, if_neg hv, if_neg hv]
      cases ha : addToQueue (leafNode v s.freq[v]) s with
      | ok t =>
        have hf := addToQueue_frame (leafNode v s.freq[v]) s
        rw [ha] at hf
        obtain ⟨_, _, _, _, rfl⟩ := hf
        exact ih _
      | raised | stuck => rfl

/-- The iteration of phase 1 on a symbol with a frequency (R131). -/
theorem leafLoop_cons {v : Symbol} {l : List Symbol} {s : State} (hv : s.freq[v] ≠ 0#32) (h : s.nnodes.val < 513) :
    leafLoop (v :: l) s = leafLoop l (queued (leafNode v s.freq[v]) s h) := by
  rw [leafLoop, if_neg hv, addToQueue_room h, bind_ok]

/-- The node stored for a symbol roots its leaf (R131). -/
theorem treeAt_leaf (v : Symbol) (w : Word) {s : State} (h : s.nnodes.val < 513) :
    TreeAt (queued (leafNode v w) s h).node ⟨s.nnodes.val, h⟩ (.leaf v.val w.toNat) [⟨s.nnodes.val, h⟩] := by
  have hnode := queued_node_new (nd := leafNode v w) h
  have hvalue : (BitVec.ofNat 16 v.val).toNat = v.val := by
    rw [BitVec.toNat_ofNat]
    omega
  have htree := TreeAt.leaf (node := (queued (leafNode v w) s h).node) ⟨s.nnodes.val, h⟩ (by rw [hnode]; rfl)
  rwa [hnode, leafNode, hvalue] at htree

/-- Behind these symbols of phase 1: their leaves are in the arena and in the queue (R131, R133). -/
structure LeavesBuilt (freq : Vector Word 257) (syms : List Symbol) (s : State) : Prop where
  freq_eq : s.freq = freq
  represents : Represents (leafQueue freq syms) s
  placed : Placed (leafNodes freq syms) s
  nnodes : s.nnodes.val = syms.length

theorem leavesBuilt_queued {freq : Vector Word 257} {syms : List Symbol} {s : State} (hs : LeavesBuilt freq syms s)
    (v : Symbol) (h : s.nnodes.val < 513) :
    LeavesBuilt freq (syms ++ [v]) (queued (leafNode v s.freq[v]) s h) := by
  obtain ⟨rfl, hr, hp, hn⟩ := hs
  refine ⟨rfl, ?_, ?_, by simp [hn]⟩
  · rw [leafQueue_concat, ← hn]
    exact represents_queued h hr.queue hr.seq (treeAt_leaf v s.freq[v] h) (by simp)
  · rw [leafNodes, List.map_append]
    exact hp.queued_leaf (by simp [hn]) h

/-- Phase 1 builds the leaves of a list of symbols with frequencies, behind those built before. -/
theorem leafLoop_built {freq : Vector Word 257} {l syms : List Symbol} {s : State} (hs : LeavesBuilt freq syms s)
    (hl : ∀ v ∈ l, freq[v] ≠ 0#32) (hroom : syms.length + l.length ≤ 513) :
    ∃ t, leafLoop l s = .ok t ∧ LeavesBuilt freq (syms ++ l) t := by
  induction l generalizing syms s with
  | nil => exact ⟨s, rfl, by rwa [List.append_nil]⟩
  | cons v l ih =>
    rw [List.forall_mem_cons] at hl
    obtain ⟨hv, hl⟩ := hl
    rw [List.length_cons] at hroom
    have hlt : s.nnodes.val < 513 := by rw [hs.nnodes]; omega
    rw [leafLoop_cons (by rwa [hs.freq_eq]) hlt, List.append_cons]
    exact ih (leavesBuilt_queued hs v hlt) hl (by rw [List.length_append, List.length_singleton]; omega)

/-! ### Phases 2 and 3 -/

/-- Between two rounds of phase 2 (R131): the queue is `huff`'s set Q, the arena holds the leaves and the nodes
combined so far, and there are as many entries left to combine as entries of the arena left to fill (R133, R136). -/
structure Combining (leaves : List Node) (Q : List (Trie × Nat)) (s : State) : Prop where
  represents : Represents Q s
  placed : Placed leaves s
  left : s.nnodes.val + Q.length = 2 * leaves.length

/-- R134: two least entries whose weights do not fit raise. -/
theorem combineLoop_overflows {x y : Trie × Nat} {Q : List (Trie × Nat)} {s : State} (fuel : Nat)
    (hs : Represents (x :: y :: Q) s) (hweight : 2 ^ 32 ≤ x.1.weight + y.1.weight) :
    ∃ t, combineLoop (fuel + 1) s = .raised .overflow t := by
  obtain ⟨a, _, ha, hq, hpq⟩ := List.forall₂_cons_right_iff.mp hs.queue
  obtain ⟨b, rest, hb, _, rfl⟩ := List.forall₂_cons_right_iff.mp hq
  refine ⟨{ s with pq := rest }, ?_⟩
  rw [combineLoop, hpq]
  exact if_neg (by rw [ha.weight, hb.weight]; omega)

/-- The node combined over a and b roots the trie combined of theirs, as long as weight and identity value fit (R131,
R134, R139). -/
theorem treeAt_combined {s : State} {a b : PqEntry} {x y : Trie × Nat} (h : s.nnodes.val < 513)
    (ha : StandsFor s.node s.nnodes.val a x) (hb : StandsFor s.node s.nnodes.val b y)
    (hvalue : x.1.value + y.1.value < 2 ^ 16) (hweight : x.1.weight + y.1.weight < 2 ^ 32) (n : Nat) :
    ∃ ids, TreeAt (queued (combinedNode s a b (a.weight + b.weight)) s h).node ⟨s.nnodes.val, h⟩ (merged x y n).1 ids
      ∧ ∀ j ∈ ids, j.val ≤ s.nnodes.val := by
  obtain ⟨⟨is, hta, his⟩, hwa, _⟩ := ha
  obtain ⟨⟨js, htb, hjs⟩, hwb, _⟩ := hb
  refine ⟨⟨s.nnodes.val, h⟩ :: (is ++ js), ?_, fun j hj => ?_⟩
  · have hnode := queued_node_new (nd := combinedNode s a b (a.weight + b.weight)) h
    have htree := TreeAt.node (node := (queued (combinedNode s a b (a.weight + b.weight)) s h).node)
      ⟨s.nnodes.val, h⟩ x.1 y.1 is js (by rw [hnode]; rfl)
      (by rw [hnode]; exact hta.congr fun j hj => queued_node_old h (his j hj))
      (by rw [hnode]; exact htb.congr fun j hj => queued_node_old h (hjs j hj))
    rw [← hta.value_eq, ← htb.value_eq] at hvalue
    rw [← hwa, ← hwb] at hweight
    rwa [hnode, combinedNode, BitVec.toNat_add_of_lt hvalue, BitVec.toNat_add_of_lt hweight, hta.value_eq,
      htb.value_eq, hwa, hwb] at htree
  · rcases List.mem_cons.mp hj with rfl | hj
    · exact le_refl _
    · exact ((List.mem_append.mp hj).elim (his j) (hjs j)).le

/-- A round of phase 2 is a round of `huff`, as long as weight and identity value fit (R137). -/
theorem combineLoop_round {leaves : List Node} {x y : Trie × Nat} {Q : List (Trie × Nat)} {s : State} (fuel : Nat)
    (hs : Combining leaves (x :: y :: Q) s) (hcap : leaves.length ≤ 257)
    (hvalue : x.1.value + y.1.value < 2 ^ 16) (hweight : x.1.weight + y.1.weight < 2 ^ 32) :
    ∃ t, combineLoop (fuel + 1) s = combineLoop fuel t ∧ t.nnodes.val = s.nnodes.val + 1
      ∧ Combining leaves (huffInsert (merged x y s.nnodes.val) Q) t := by
  obtain ⟨⟨hq, hseq, _⟩, hp, hleft⟩ := hs
  obtain ⟨a, _, ha, hq, hpq⟩ := List.forall₂_cons_right_iff.mp hq
  obtain ⟨b, rest, hb, hrest, rfl⟩ := List.forall₂_cons_right_iff.mp hq
  rw [List.length_cons, List.length_cons] at hleft
  have h : ({ s with pq := rest } : State).nnodes.val < 513 := by dsimp only; omega
  obtain ⟨ids, htree, hids⟩ := treeAt_combined h ha hb hvalue hweight s.nnodes.val
  refine ⟨queued (combinedNode s a b (a.weight + b.weight)) { s with pq := rest } h, ?_, queued_nnodes h,
    represents_queued h hrest hseq htree hids, ?_, ?_⟩
  · rw [combineLoop, hpq]
    dsimp only
    rw [if_pos (by rwa [ha.weight, hb.weight]), addToQueue_room h, bind_ok]
  · have hp' : Placed leaves { s with pq := rest } := ⟨hp.within, hp.leaf, hp.inner⟩
    exact hp'.queued_inner h rfl ha.node_lt hb.node_lt
  · rw [queued_nnodes, huffInsert_length]
    dsimp only
    omega

/-- What BUILD ends well with: the trie t at `ROOT`, and where the nodes stand (R133). -/
structure BuiltTrie (leaves : List Node) (t : Trie) (s : State) : Prop where
  tree : ∃ ids, TreeAt s.node s.root t ids
  placed : Placed leaves s
  nnodes : s.nnodes.val + 1 = 2 * leaves.length
  seq : s.seq = s.nnodes
  root : s.root.val + 1 = s.nnodes.val
  valid : s.trieValid = true

/-- Phase 3: the last entry's trie is the result, and its node the one stored last (R131, R133). -/
theorem combineLoop_last {leaves : List Node} {x : Trie × Nat} {s : State} (fuel : Nat)
    (hs : Combining leaves [x] s) : ∃ u, combineLoop (fuel + 1) s = .ok u ∧ BuiltTrie leaves x.1 u := by
  obtain ⟨⟨hq, hseq, hnewest⟩, hp, hleft⟩ := hs
  obtain ⟨e, _, he, hnil, hpq⟩ := List.forall₂_cons_right_iff.mp hq
  cases hnil
  refine ⟨endTrie e.node { s with pq := [] }, by rw [combineLoop, hpq], ?_⟩
  have hlt := he.node_lt
  obtain ⟨⟨ids, ht, _⟩, _, _⟩ := he
  obtain ⟨d, hd, hroot⟩ := hnewest (s.nnodes.val - 1) (by omega)
  rw [hpq, List.mem_singleton] at hd
  subst hd
  exact ⟨⟨ids, ht⟩, ⟨hp.within, hp.leaf, hp.inner⟩, hleft, hseq, by dsimp only [endTrie_root, endTrie_nnodes]; omega,
    rfl⟩

/-- Phases 2 and 3 compute `huff` when the weights of the set sum below 2^32, and raise E_OVERFLOW when they do not
(R134, R137). -/
theorem combineLoop_huff {leaves : List Node} {Q : List (Trie × Nat)} {s : State} {fuel : Nat}
    (hs : Combining leaves Q s) (hne : Q ≠ []) (hfuel : Q.length ≤ fuel) (hcap : leaves.length ≤ 257)
    (hvalue : total Trie.value Q < 2 ^ 16) :
    (total Trie.weight Q < 2 ^ 32 ∧ ∃ u t, combineLoop (fuel + 1) s = .ok u ∧ huff fuel Q s.nnodes.val = some t
        ∧ BuiltTrie leaves t u)
      ∨ (2 ^ 32 ≤ total Trie.weight Q ∧ ∃ u, combineLoop (fuel + 1) s = .raised .overflow u) := by
  induction fuel generalizing Q s with
  | zero => exact absurd (List.length_eq_zero_iff.mp (Nat.le_zero.mp hfuel)) hne
  | succ fuel ih =>
    match Q with
    | [] => exact absurd rfl hne
    | [x] =>
      obtain ⟨u, hu, hbuilt⟩ := combineLoop_last (fuel + 1) hs
      obtain ⟨e, _, he, _⟩ := List.forall₂_cons_right_iff.mp hs.represents.queue
      have hlt : total Trie.weight [x] < 2 ^ 32 := by
        simpa [total, ← he.weight] using e.weight.isLt
      exact .inl ⟨hlt, u, x.1, hu, rfl, hbuilt⟩
    | x :: y :: Q =>
      by_cases hweight : x.1.weight + y.1.weight < 2 ^ 32
      · have hvalue' : x.1.value + y.1.value < 2 ^ 16 := by
          rw [total_cons, total_cons] at hvalue
          omega
        obtain ⟨t, ht, hn, hnext⟩ := combineLoop_round (fuel + 1) hs hcap hvalue' hweight
        rw [ht, huff_round, ← hn, ← total_round sumsUp_weight x y Q s.nnodes.val]
        rw [← total_round sumsUp_value x y Q s.nnodes.val] at hvalue
        refine ih hnext ?_ ?_ hvalue
        · exact List.ne_nil_of_length_eq_add_one (huffInsert_length _ _)
        · rw [huffInsert_length]
          exact Nat.le_of_succ_le_succ hfuel
      · refine .inr ⟨?_, combineLoop_overflows (fuel + 1) hs.represents (Nat.le_of_not_lt hweight)⟩
        rw [total_cons, total_cons]
        omega

/-! ### BUILD -/

/-- Where phase 1 starts: no node, no entry, sequence number 0 (R131). -/
def buildStart (s : State) : State := { startTrie s with seq := 0, pq := [] }

@[simp] theorem buildStart_nnodes (s : State) : (buildStart s).nnodes = 0 := rfl

/-- BUILD's body on the symbols with a frequency alone. -/
theorem buildBody_eq (s : State) : buildBody s =
    (leafLoop (liveSymbols s.freq) (buildStart s)).bind fun t => combineLoop (t.pq.length + 1) t :=
  congrArg (Run.bind · _) (leafLoop_live (List.finRange 257) (buildStart s))

/-- BUILD's body on a table that counts the pseudo-symbol is `huff(Q_0, L)`, or raises when the counts sum to 2^32 or
more (R134, R137). -/
theorem buildBody_huff {s : State} (heos : s.freq[eosSymbol] = 1#32) :
    (freqSum s.freq < 2 ^ 32 ∧ ∃ u t, buildBody s = .ok u ∧ huffTrie s.freq = some t
        ∧ BuiltTrie (leafNodes s.freq (liveSymbols s.freq)) t u)
      ∨ (2 ^ 32 ≤ freqSum s.freq ∧ ∃ u, buildBody s = .raised .overflow u) := by
  have hstart : LeavesBuilt s.freq [] (buildStart s) :=
    ⟨rfl, ⟨.nil, rfl, by simp⟩, ⟨le_refl _, by simp, by simp⟩, rfl⟩
  have hlen := liveSymbols_length_le s.freq
  obtain ⟨t, hleaf, _, hr, hp, hn⟩ :=
    leafLoop_built hstart (l := liveSymbols s.freq) (fun _ hv => mem_liveSymbols.mp hv) (by simp; omega)
  rw [List.nil_append] at hr hp hn
  have hQ : (huffLeaves s.freq).length = (liveSymbols s.freq).length := leafQueue_length _ _
  have hpq : t.pq.length = (liveSymbols s.freq).length := hr.queue.length_eq.trans hQ
  have hcombining : Combining (leafNodes s.freq (liveSymbols s.freq)) (huffLeaves s.freq) t :=
    ⟨hr, hp, by rw [hn, hQ, leafNodes_length]; omega⟩
  have hne : huffLeaves s.freq ≠ [] := by
    have hmem : eosSymbol ∈ liveSymbols s.freq := mem_liveSymbols.mpr (by simp [heos])
    rw [← List.length_pos_iff, hQ]
    exact List.length_pos_of_mem hmem
  have hbody : buildBody s = combineLoop ((liveSymbols s.freq).length + 1) t := by
    rw [buildBody_eq, hleaf, bind_ok, hpq]
  have hloop := combineLoop_huff hcombining hne hQ.le (by rwa [leafNodes_length]) (total_value_huffLeaves s.freq)
  rwa [total_weight_huffLeaves, hn, ← hbody] at hloop

/-- Everything BUILD's body can write (R131). -/
theorem buildBody_frame (s : State) : (buildBody s).Ends fun t => ∃ n c q k r v,
    t = { startTrie s with node := n, nnodes := c, pq := q, seq := k, root := r, trieValid := v } := by
  refine ends_bind (ends_mono (leafLoop_frame _ _) fun t ⟨n, c, q, k, e⟩ => ⟨n, c, q, k, s.root, false, e⟩) ?_
  rintro _ ⟨n, c, q, k, r, v, rfl⟩
  exact ends_mono (combineLoop_frame _ _) fun t ⟨n', c', q', k', r', v', e⟩ => ⟨n', c', q', k', r', v', e⟩

theorem exec_build {s : State} (h : Ready s) (hvalid : s.freqValid = true) :
    exec .build s = settle (buildBody (setPhase .build (accept s))) := issue_primitive h hvalid

/-- A raise leaves the trie invalid (R134). -/
theorem buildBody_raised_invalid (s : State) : (buildBody s).EndsIn (fun _ => True) fun t => t.trieValid = false := by
  have hleaf : (leafLoop (List.finRange 257) (buildStart s)).Ends
      fun t => t.trieValid = false := ends_mono (leafLoop_frame _ _) fun _ ⟨_, _, _, _, e⟩ => e ▸ rfl
  exact endsIn_bind hleaf.endsIn fun _ ht => endsIn_mono (combineLoop_queue ht) (fun _ _ => trivial) fun _ hv => hv

/-- BUILD's body ends well only with a well-formed arena (R138). -/
theorem buildBody_arenaWf {s u : State} (hvalid : s.freqValid = true) (heos : s.freq[eosSymbol] = 1#32)
    (hu : buildBody (setPhase .build s) = .ok u) : ArenaWf u := by
  have harena := runBuild_completes (s := s) fun _ => heos
  rwa [runBuild, primitive_allowed (i := .build) (s := s) hvalid, hu] at harena

/-- BUILD on counts that sum below 2^32. -/
theorem exec_build_huff {s : State} (h : Ready s) (hvalid : s.freqValid = true) (heos : s.freq[eosSymbol] = 1#32)
    (hsum : freqSum s.freq < 2 ^ 32) :
    ∃ u t, buildBody (setPhase .build (accept s)) = .ok u ∧ exec .build s = .next (finish u)
      ∧ huffTrie s.freq = some t ∧ BuiltTrie (leafNodes s.freq (liveSymbols s.freq)) t u := by
  rcases buildBody_huff (s := setPhase .build (accept s)) heos with ⟨_, u, t, hu, ht, hbuilt⟩ | ⟨hge, _⟩
  · exact ⟨u, t, hu, by rw [exec_build h hvalid, hu, settle], ht, hbuilt⟩
  · exact absurd hsum (Nat.not_lt_of_le hge)

/-- Settles O16: each round of BUILD is a round of `huff`. -/
theorem buildMatchesHuff : Obligations.BuildMatchesHuff := by
  unfold Obligations.BuildMatchesHuff
  intro s h hvalid heos hsum
  obtain ⟨u, t, _, hexec, ht, hbuilt⟩ := exec_build_huff h hvalid heos hsum
  obtain ⟨ids, htree⟩ := hbuilt.tree
  exact ⟨finish u, t, ids, hexec, ht, htree⟩

/-- Settles O15: the trie is `huff`'s, whose rounds keep the leaves with their weights, the sum of the weights and the
exact sums at internal nodes; the frame of BUILD's body gives the rest. -/
theorem buildResult : Obligations.BuildResult := by
  unfold Obligations.BuildResult
  intro s h hvalid heos hsum
  obtain ⟨u, t, hu, hexec, ht, hbuilt⟩ := exec_build_huff h hvalid heos hsum
  obtain ⟨ids, htree⟩ := hbuilt.tree
  have harena : ArenaWf u := buildBody_arenaWf (s := accept s) hvalid heos hu
  have hvalidTrie := hbuilt.valid
  have hframe := buildBody_frame (setPhase .build (accept s))
  rw [hu] at hframe
  obtain ⟨_, _, _, _, _, _, rfl⟩ := hframe
  exact ⟨_, t, ids, hexec, ⟨rfl, rfl, h.2⟩, rfl, hvalidTrie, rfl, hvalid, htree, harena,
    huffTrie_leafWeights ht, huffTrie_summed ht, huffTrie_weight ht, rfl, rfl, rfl⟩

/-- Settles O17: where the nodes stand is kept by every round; after the last one `ROOT` is the node stored last. -/
theorem buildPlacement : Obligations.BuildPlacement := by
  unfold Obligations.BuildPlacement
  intro s h hvalid heos hsum
  obtain ⟨u, t, _, hexec, _, hbuilt⟩ := exec_build_huff h hvalid heos hsum
  obtain ⟨_, ⟨_, hleaf, hinner⟩, hnnodes, hseq, hroot, _⟩ := hbuilt
  rw [leafNodes_length] at hnnodes hinner
  refine ⟨finish u, hexec, hnnodes, hseq, by rw [← hnnodes, ← hroot]; rfl, fun k hk => ?_, hinner⟩
  rw [finish_node, hleaf k (by rwa [leafNodes_length])]
  exact List.getElem_map _

/-- Settles O18: BUILD's body computes `huff` or raises by the sum of the counts, and writes no more than its frame. -/
theorem buildOverflowExact : Obligations.BuildOverflowExact := by
  unfold Obligations.BuildOverflowExact
  intro s h hvalid heos
  have hframe := buildBody_frame (setPhase .build (accept s))
  rw [exec_build h hvalid]
  rcases buildBody_huff (s := setPhase .build (accept s)) heos with ⟨hlt, u, _, hu, _⟩ | ⟨hge, u, hu⟩
  · rw [hu] at hframe ⊢
    obtain ⟨_, _, _, _, _, _, rfl⟩ := hframe
    exact ⟨_, rfl, rfl, by simpa [h.2] using hlt, by simp [h.2], rfl, rfl, rfl⟩
  · have hinvalid := buildBody_raised_invalid (setPhase .build (accept s))
    rw [hu] at hframe hinvalid ⊢
    obtain ⟨_, _, _, _, _, _, rfl⟩ := hframe
    exact ⟨_, rfl, rfl, by simpa using hge, fun _ => ⟨⟨rfl, rfl, rfl, rfl⟩, hinvalid, rfl⟩, rfl, rfl, rfl⟩

/-! ### The one-entry case (R132) -/

/-- The pseudo-symbol alone has a frequency. -/
theorem liveSymbols_eos {freq : Vector Word 257} (heos : freq[eosSymbol] = 1#32)
    (hzero : ∀ v : Symbol, v ≠ eosSymbol → freq[v] = 0#32) : liveSymbols freq = [eosSymbol] := by
  have hlive : ∀ v : Symbol, decide (freq[v] ≠ 0#32) = (v == eosSymbol) := fun v => by
    by_cases hv : v = eosSymbol
    · simp [hv, heos]
    · simp [hv, hzero v hv]
  rw [liveSymbols, funext hlive, List.filter_beq,
    List.count_eq_one_of_mem (List.nodup_finRange _) (List.mem_finRange _), List.replicate_one]

/-- BUILD's body when the pseudo-symbol alone has a frequency: one leaf, which is the root. -/
theorem buildBody_oneLeaf {s : State} (heos : s.freq[eosSymbol] = 1#32) (hlive : liveSymbols s.freq = [eosSymbol]) :
    buildBody s = .ok (endTrie 0 { startTrie s with
      node := s.node.set 0 (leafNode eosSymbol 1#32), nnodes := 1, seq := 1, pq := [] }) := by
  have hleaf : leafLoop [eosSymbol] (buildStart s) =
      .ok (queued (leafNode eosSymbol s.freq[eosSymbol]) (buildStart s) (Nat.succ_pos 512)) :=
    leafLoop_cons (by simp [buildStart, heos]) _
  rw [buildBody_eq, hlive, hleaf, heos]
  rfl

/-- Settles O19: phase 1 queues the pseudo-symbol's leaf alone, and phase 3 takes it as the root. -/
theorem buildOneLeaf : Obligations.BuildOneLeaf := by
  unfold Obligations.BuildOneLeaf
  intro s h hvalid heos hzero
  rw [exec_build h hvalid, buildBody_oneLeaf (s := setPhase .build (accept s)) heos (liveSymbols_eos heos hzero),
    settle, Host.Outcome.next.injEq, State.mk.injEq]
  simp [opcodeOf, leafNode, eosSymbol, h.1]

end Sys2Proof.Machine

namespace Sys2Proof.Machine

/-! ### Walks of a trie that fits the arena -/

/-- A walk starts at the root of a trie that fits the arena (10_state.md R32, R40). -/
theorem Holds.walk {s u : State} {t : Trie} {e : StackEntry} (h : Holds s t) (hnode : u.node = s.node)
    (hstack : u.stack = [e]) (he : e.node = s.root) : WalkWithin 513 u := by
  obtain ⟨⟨ids, ht⟩, hfit, hsym⟩ := h
  refine ⟨ids ++ [], ?_, by rwa [List.append_nil, ht.length]⟩
  rw [hnode, hstack, List.map_singleton, he]
  exact .cons ht hsym .nil

/-- A run that completes and never raises ends well, with what it promises of a good end. -/
theorem ok_of_completes {P Q : State → Prop} {r : Run} (h : r.Completes Q) (k : r.EndsIn P fun _ => False) :
    ∃ u, r = .ok u ∧ P u := by
  cases r with
  | ok u => exact ⟨u, rfl, k⟩
  | raised e u => exact k.elim
  | stuck x => exact h.elim

/-- A push finds room or stops the machine, but raises no error (10_state.md R37; log 10). -/
theorem pushRun_noRaise (e : StackEntry) (s : State) :
    (pushRun e s).EndsIn (fun u => u = { s with stack := e :: s.stack }) fun _ => False := by
  unfold pushRun push
  by_cases hroom : s.stack.length < 513 <;> simp [hroom, Run.EndsIn]

/-- So do two pushes, the second on top. -/
theorem pushRun_pair_noRaise (a b : StackEntry) (s : State) :
    ((pushRun a s).bind (pushRun b)).EndsIn (fun u => u = { s with stack := b :: a :: s.stack }) fun _ => False := by
  refine endsIn_bind (pushRun_noRaise a s) ?_
  rintro _ rfl
  exact pushRun_noRaise b _

/-! ### GENCODE -/

/-- Where GENCODE's walk starts: a cleared table, and the root alone on the stack (42_code_table.md R146). -/
def gencodeStart (s : State) : State := { s with
  codesValid := false
  code := Vector.replicate 257 CodeEntry.blank
  stack := [pathEntry s.root 0#9 0#256] }

theorem gencodeBody_eq (s : State) :
    gencodeBody s = (gencodeLoop 513 (gencodeStart s)).bind fun u => .ok { u with codesValid := true } := rfl

/-- GENCODE's walk raises no error (R146). -/
theorem gencodeLoop_noRaise (fuel : Nat) (s : State) :
    (gencodeLoop fuel s).EndsIn (fun _ => True) fun _ => False := by
  induction fuel generalizing s with
  | zero => unfold gencodeLoop; split <;> trivial
  | succ fuel ih =>
    unfold gencodeLoop
    split
    next => trivial
    next e rest _ =>
      split
      next =>
        split
        next => exact ih _
        next => trivial
      next => exact endsIn_bind (pushRun_pair_noRaise _ _ _) fun u _ => ih u

/-- GENCODE's body on a trie that fits the arena: `CODE` is the trie's Code Table, and valid; the stack is empty
(R146, R152). -/
theorem gencodeBody_codeTable {s : State} {t : Trie} (h : Holds s t) :
    gencodeBody s = .ok { s with codesValid := true, stack := [], code := codeTable t } := by
  obtain ⟨ids, ht⟩ := h.1
  have hcompletes := gencodeLoop_completes (h.walk (u := gencodeStart s) rfl rfl rfl) (le_refl _)
  have hcodes := gencodeLoop_codeTable (fuel := 513) (s := gencodeStart s) ht rfl rfl
  have hends := (hcodes.and (gencodeLoop_frame _ _).endsIn).and (gencodeLoop_noRaise _ _)
  obtain ⟨_, hu, ⟨⟨hstack, hcode⟩, c, st, rfl⟩, -⟩ :=
    ok_of_completes hcompletes (endsIn_mono hends (fun _ hu => hu) fun _ ⟨_, hu⟩ => hu)
  dsimp only at hstack hcode
  subst hstack hcode
  rw [gencodeBody_eq, hu]
  rfl

/-- Settles O20: GENCODE's walk completes and stores each leaf's path, and its frame says it writes no more. -/
theorem gencodeResult : Obligations.GencodeResult := by
  unfold Obligations.GencodeResult
  intro s t h hvalid ht
  have hrun : exec .gencode s = settle (gencodeBody (setPhase .gencode (accept s))) := issue_primitive h hvalid
  have hbody := gencodeBody_codeTable (s := setPhase .gencode (accept s)) (t := t) ht
  rw [hrun, hbody, settle, Host.Outcome.next.injEq, State.mk.injEq]
  simp [opcodeOf, h.1]

/-! ### Paths of a trie -/

/-- The leaves of a trie, in pre-order, are the ends of its paths (00_scope.md R13). -/
theorem paths_symbols (t : Trie) (p : Bits) : (t.paths p).map Prod.fst = t.symbols := by
  induction t generalizing p with
  | leaf => rfl
  | node _ _ l r hl hr => simp [Trie.paths, Trie.symbols, hl, hr]

/-- Each of a trie's paths leads to its leaf. -/
theorem leafAt_of_mem_paths {t : Trie} {p q : Bits} {x : Nat} (h : (x, q) ∈ t.paths p) :
    ∃ q', q = p ++ q' ∧ t.leafAt q' = some x := by
  induction t generalizing p with
  | leaf sym w =>
    rw [Trie.paths, List.mem_singleton, Prod.mk.injEq] at h
    obtain ⟨rfl, rfl⟩ := h
    exact ⟨[], (List.append_nil q).symm, rfl⟩
  | node _ _ l r hl hr =>
    rcases List.mem_append.mp h with h | h
    · obtain ⟨q', rfl, hq⟩ := hl h
      exact ⟨false :: q', List.append_assoc .., hq⟩
    · obtain ⟨q', rfl, hq⟩ := hr h
      exact ⟨true :: q', List.append_assoc .., hq⟩

/-- A path to a leaf is no longer than the trie is deep. -/
theorem leafAt_length {t : Trie} {q : Bits} {x : Nat} (h : t.leafAt q = some x) : q.length ≤ t.depth := by
  induction t generalizing q with
  | leaf =>
    cases q with
    | nil => exact le_refl _
    | cons => cases h
  | node _ _ l r hl hr =>
    match q with
    | [] => cases h
    | false :: q => have := hl h; simp only [Trie.depth, List.length_cons]; omega
    | true :: q => have := hr h; simp only [Trie.depth, List.length_cons]; omega

/-- Of two paths to leaves, neither goes on from the other (42_code_table.md R151). -/
theorem leafAt_append {t : Trie} {q q' : Bits} {x y : Nat} (h : t.leafAt q = some x)
    (h' : t.leafAt (q ++ q') = some y) : x = y := by
  induction t generalizing q with
  | leaf =>
    cases q with
    | nil =>
      cases q' with
      | nil => exact Option.some.inj (h.symm.trans h')
      | cons => cases h'
    | cons => cases h
  | node _ _ l r hl hr =>
    match q with
    | [] => cases h
    | false :: q => exact hl h h'
    | true :: q => exact hr h h'

/-- The empty path leads to a leaf exactly in a one-leaf trie (R149). -/
theorem leafAt_nil_iff {t : Trie} {q : Bits} {x : Nat} (h : t.leafAt q = some x) : q = [] ↔ t.leaves = 1 := by
  cases t with
  | leaf =>
    cases q with
    | nil => exact ⟨fun _ => rfl, fun _ => rfl⟩
    | cons => cases h
  | node _ _ l r =>
    have hl := leaves_pos l
    have hr := leaves_pos r
    cases q with
    | nil => cases h
    | cons => simp only [Trie.leaves, reduceCtorEq, false_iff]; omega

/-! ### The entries of a Code Table -/

/-- The entry that stands for a code (10_state.md R34). -/
def codeEntry (q : Bits) : CodeEntry :=
  { valid := true, len := BitVec.ofNat 9 q.length, val := BitVec.ofNat 256 (valOf q) }

/-- An entry holds a code of at most `LENMAX` bits exactly (R34, 42_code_table.md R150). -/
theorem codeBits_codeEntry {q : Bits} (h : q.length ≤ 256) : codeBits (codeEntry q) = q := by
  have hlen : q.length % 2 ^ 9 = q.length := Nat.mod_eq_of_lt (by omega)
  have hval : valOf q % 2 ^ 256 = valOf q :=
    Nat.mod_eq_of_lt ((valOf_lt q).trans_le (Nat.pow_le_pow_right (by decide) h))
  rw [codeBits, codeEntry, BitVec.toNat_ofNat, BitVec.toNat_ofNat, hlen, hval, bitsOf_valOf]

/-- What storing one code does to each entry (R146). -/
theorem storeCode_get (code : Vector CodeEntry 257) (e : Nat × Bits) (a : Symbol) :
    (storeCode code e)[a] = if e.1 = a.val then codeEntry e.2 else code[a] := by
  unfold storeCode
  split
  next he => exact Vector.getElem_set ..
  next he => rw [if_neg]; omega

/-- Storing codes one after the other leaves an entry as it was, where no code is its Symbol's, or with one of its
Symbol's codes (R146, R152). -/
theorem foldl_storeCode (l : List (Nat × Bits)) (code : Vector CodeEntry 257) (a : Symbol) :
    (a.val ∉ l.map Prod.fst ∧ (l.foldl storeCode code)[a] = code[a]) ∨
      ∃ q, (a.val, q) ∈ l ∧ (l.foldl storeCode code)[a] = codeEntry q := by
  induction l using List.reverseRecOn with
  | nil => exact .inl ⟨List.not_mem_nil, rfl⟩
  | append_singleton l e ih =>
    rw [List.foldl_append, List.foldl_cons, List.foldl_nil, storeCode_get]
    by_cases he : e.1 = a.val
    · exact .inr ⟨e.2, by simp [← he], if_pos he⟩
    · rw [if_neg he]
      rcases ih with ⟨hnot, hget⟩ | ⟨q, hq, hget⟩
      · exact .inl ⟨by simpa [Ne.symm he] using hnot, hget⟩
      · exact .inr ⟨q, List.mem_append_left _ hq, hget⟩

/-- Each entry of a trie's Code Table: cleared, when the Symbol is on no leaf; else the path to a leaf of the Symbol
(R146, R148, R152). -/
theorem codeTable_get {t : Trie} (hfit : t.nodes ≤ 513) (a : Symbol) :
    (a.val ∉ t.symbols ∧ (codeTable t)[a] = CodeEntry.blank) ∨
      ∃ q, a.val ∈ t.symbols ∧ t.leafAt q = some a.val ∧ q.length ≤ 256 ∧ (codeTable t)[a] = codeEntry q := by
  rw [codeTable_eq]
  rcases foldl_storeCode (t.paths []) (Vector.replicate 257 CodeEntry.blank) a with ⟨hnot, hget⟩ | ⟨q, hmem, hget⟩
  · rw [paths_symbols] at hnot
    exact .inl ⟨hnot, by simpa using hget⟩
  · obtain ⟨_, rfl, hleaf⟩ := leafAt_of_mem_paths hmem
    have hdepth := depth_nodes t
    have hlen := leafAt_length hleaf
    refine .inr ⟨_, ?_, hleaf, by omega, hget⟩
    rw [← paths_symbols t []]
    exact List.mem_map_of_mem hmem

/-- A code of the table leads to a leaf of its Symbol (R148). -/
theorem leafAt_codeTable {t : Trie} (hfit : t.nodes ≤ 513) {a : Symbol} (h : ((codeTable t)[a]).valid = true) :
    t.leafAt (codeBits (codeTable t)[a]) = some a.val := by
  rcases codeTable_get hfit a with ⟨_, hget⟩ | ⟨q, _, hleaf, hlen, hget⟩
  · rw [hget] at h
    cases h
  · rwa [hget, codeBits_codeEntry hlen]

/-- An entry of the table is valid exactly for the Symbols on the leaves (R148). -/
theorem codeTable_valid_iff {t : Trie} (hfit : t.nodes ≤ 513) (a : Symbol) :
    ((codeTable t)[a]).valid = true ↔ a.val ∈ t.symbols := by
  rcases codeTable_get hfit a with ⟨hnot, hget⟩ | ⟨q, hmem, _, _, hget⟩
  · simp [hget, CodeEntry.blank, hnot]
  · simp [hget, codeEntry, hmem]

/-- An entry that is not valid is cleared (R146). -/
theorem codeTable_invalid {t : Trie} (hfit : t.nodes ≤ 513) {a : Symbol} (h : ((codeTable t)[a]).valid = false) :
    (codeTable t)[a] = CodeEntry.blank := by
  rcases codeTable_get hfit a with ⟨_, hget⟩ | ⟨q, _, _, _, hget⟩
  · exact hget
  · rw [hget] at h
    cases h

/-- A code's bits are as many as its entry's length says. -/
theorem codeBits_length (c : CodeEntry) : (codeBits c).length = c.len.toNat := bitsOf_length _ _

/-- Settles O21: a code that another begins would lead to two leaves. -/
theorem codesPrefixFree : Obligations.CodesPrefixFree := by
  unfold Obligations.CodesPrefixFree
  intro s t h hvalid ht
  refine ⟨_, gencodeResult s t h hvalid ht, fun a b hab ha hb => ?_⟩
  rintro ⟨q, hq⟩
  have hleaf := leafAt_codeTable ht.2.1 hb
  rw [← hq] at hleaf
  exact hab (Fin.ext (leafAt_append (leafAt_codeTable ht.2.1 ha) hleaf))

/-- Settles O22: each clause is what the trie's Code Table holds. -/
theorem gencodeCoverage : Obligations.GencodeCoverage := by
  unfold Obligations.GencodeCoverage
  intro s t h hvalid ht
  obtain ⟨_, hfit, _⟩ := id ht
  refine ⟨_, gencodeResult s t h hvalid ht, codeTable_valid_iff hfit, fun a ha => leafAt_codeTable hfit ha,
    fun a ha => ?_, fun a ha => codeTable_invalid hfit ha⟩
  rw [← leafAt_nil_iff (leafAt_codeTable hfit ha), ← List.length_eq_zero_iff, codeBits_length]
  exact BitVec.toNat_inj.symm

end Sys2Proof.Machine

namespace Sys2Proof.Machine

/-! ### WRHDR writes the trie's serialisation -/

/-- A leaf's record is its serialisation (43_header_codec.md R157; 30_encoding.md R97). -/
theorem encodeRecord_leaf {nd : Node} (hk : nd.kind = true) (hv : nd.value.toNat ≤ 256) :
    encodeRecord (recordOf nd) = (Trie.leaf nd.value.toNat nd.weight.toNat).ser := by
  have hfield : (nd.value.extractLsb' 0 9).toNat = nd.value.toNat := by
    rw [BitVec.extractLsb'_toNat, Nat.shiftRight_zero]
    exact Nat.mod_eq_of_lt (by omega)
  rw [recordOf, if_pos hk, encodeRecord, hfield, Trie.ser]

theorem encodeRecord_internal {nd : Node} (hk : nd.kind = false) : encodeRecord (recordOf nd) = [false] := by
  rw [recordOf, hk]
  rfl

/-- A stack entry of WRHDR stands for a trie of the arena with Symbols on its leaves (10_state.md R37). -/
def Roots (node : Vector Node 513) (e : StackEntry) (t : Trie) : Prop :=
  (∃ ids, TreeAt node e.node t ids) ∧ ∀ x ∈ t.symbols, x ≤ 256

/-- WRHDR's walk appends the serialisations of the tries on the stack and raises no error (R157). -/
theorem wrhdrLoop_ser {fuel : Nat} {s : State} {l : List Trie} (h : List.Forall₂ (Roots s.node) s.stack l) :
    (wrhdrLoop fuel s).EndsIn (fun u => u.out = s.out ++ l.flatMap Trie.ser) fun _ => False := by
  induction fuel generalizing s l with
  | zero =>
    unfold wrhdrLoop
    split
    next hs =>
      rw [hs, List.forall₂_nil_left_iff] at h
      simp [h, Run.EndsIn]
    next => trivial
  | succ fuel ih =>
    unfold wrhdrLoop
    split
    next hs =>
      rw [hs, List.forall₂_nil_left_iff] at h
      simp [h, Run.EndsIn]
    next e rest hs =>
      rw [hs] at h
      obtain ⟨t, l, ⟨⟨ids, ht⟩, hsym⟩, hl, rfl⟩ := List.forall₂_cons_left_iff.mp h
      cases ht with
      | leaf _ hk =>
        rw [if_pos hk, encodeRecord_leaf hk (hsym _ (List.mem_singleton_self _))]
        refine endsIn_mono (ih hl) (fun u hu => ?_) fun _ hu => hu
        simp [hu, outAppend]
      | node _ tl tr is js hk htl htr =>
        rw [if_neg (Bool.not_eq_true _ ▸ hk), encodeRecord_internal hk]
        refine endsIn_bind (pushRun_pair_noRaise _ _ _) ?_
        rintro _ rfl
        have hleft : Roots s.node (nodeEntry (s.node[e.node]).left) tl :=
          ⟨⟨is, htl⟩, fun x hx => hsym x (List.mem_append_left _ hx)⟩
        have hright : Roots s.node (nodeEntry (s.node[e.node]).right) tr :=
          ⟨⟨js, htr⟩, fun x hx => hsym x (List.mem_append_right _ hx)⟩
        refine endsIn_mono (ih (.cons hleft (.cons hright hl))) (fun u hu => ?_) fun _ hu => hu
        simp [hu, outAppend, Trie.ser]

/-- WRHDR's body on a trie that fits the arena (R157). -/
theorem wrhdrBody_ser {s : State} {t : Trie} (h : Holds s t) :
    wrhdrBody s = .ok { s with stack := [], out := s.out ++ t.ser } := by
  obtain ⟨htree, _, hsym⟩ := id h
  have hcompletes := wrhdrLoop_completes
    (h.walk (u := { s with stack := [nodeEntry s.root] }) rfl rfl rfl) (le_refl _)
  have hwalk : List.Forall₂ (Roots s.node) [nodeEntry s.root] [t] := .cons ⟨htree, hsym⟩ .nil
  have hser := wrhdrLoop_ser (fuel := 513) (s := { s with stack := [nodeEntry s.root] }) hwalk
  have hends := ((wrhdrLoop_stack _ _).and (wrhdrLoop_frame _ _).endsIn).and hser
  obtain ⟨_, hu, ⟨hstack, q, st, rfl⟩, hout⟩ :=
    ok_of_completes hcompletes (endsIn_mono hends (fun _ hu => hu) fun _ ⟨_, hu⟩ => hu)
  rw [wrhdrBody, hu]
  dsimp only at hstack hout
  rw [hstack, hout, List.flatMap_singleton]

/-- WRHDR on a trie that fits the arena (R157). -/
theorem exec_wrhdr {s : State} {t : Trie} (h : Ready s) (hvalid : s.trieValid = true) (ht : Holds s t) :
    exec .wrhdr s = .next { s with phase := 6#4, done := true, stack := [], out := s.out ++ t.ser } := by
  have hrun : exec .wrhdr s = settle (wrhdrBody (setPhase .wrhdr (accept s))) := issue_primitive h hvalid
  have hbody := wrhdrBody_ser (s := setPhase .wrhdr (accept s)) (t := t) ht
  rw [hrun, hbody, settle, Host.Outcome.next.injEq, State.mk.injEq]
  simp [opcodeOf, h.1]

/-! ### RDHDR reads the trie back -/

/-- The next record ahead is what the reader reads, with IN moved behind it (R161). -/
theorem readRecord_encodeRecord {s : State} {r : HdrRecord} {q : Bits} (hwf : r.instr.wf = true)
    (h : ahead s = encodeRecord r ++ q) :
    readRecord s = (.ok r, { s with inp := { s.inp with pos := s.inp.pos + (encodeRecord r).length } }) := by
  have hlen := ahead_length s
  rw [h, List.length_append] at hlen
  have hpos : 0 < (encodeRecord r).length := by cases r <;> exact Nat.succ_pos _
  have hread := readRecord_of_decodeRecord (s := s) (by unfold InWithin; omega)
    (h ▸ decodeRecord_encodeRecord q hwf)
  rwa [show s.inp.bits.length - q.length = s.inp.pos + (encodeRecord r).length by omega] at hread

/-- The arena once node j is hung under the innermost node of this stack (R161). -/
def linkUnder (j : NodeIx) (stack : List StackEntry) (node : Vector Node 513) : Vector Node 513 :=
  match stack with
  | [] => node
  | w :: _ => node.set w.node.val (linked node[w.node] w.slot j) w.node.isLt

/-- The nodes that wait once the innermost one has got a child (R161). -/
def afterChild : List StackEntry → List StackEntry
  | [] => []
  | w :: ws => stillWaiting w ++ ws

theorem hangNode_eq (j : NodeIx) (s : State) :
    hangNode j s = { s with node := linkUnder j s.stack s.node, stack := afterChild s.stack } := by
  match hs : s.stack with
  | [] => rw [hangNode_nil hs]; simp [linkUnder, afterChild, ← hs]
  | w :: ws => rw [hangNode_cons hs]; rfl

/-- What still waits has waited before. -/
theorem afterChild_sublist (st : List StackEntry) :
    ((afterChild st).map StackEntry.node).Sublist (st.map StackEntry.node) := by
  cases st with
  | nil => exact .refl _
  | cons w ws =>
    cases hslot : w.slot with
    | left => simp [afterChild, stillWaiting, hslot]
    | right => simp [afterChild, stillWaiting, hslot]

/-- The nodes that wait for a child are stored already, and no more wait than are stored (R161). -/
def WaitingStored (s : State) : Prop :=
  s.stack.length ≤ s.nnodes.val ∧ ∀ i ∈ s.stack.map StackEntry.node, i.val < s.nnodes.val

/-- Waiting nodes stay stored while the innermost gets a child and more nodes are stored. -/
theorem WaitingStored.keep {s u : State} (h : WaitingStored s) (hstack : u.stack = afterChild s.stack)
    (hn : s.nnodes.val ≤ u.nnodes.val) : WaitingStored u := by
  obtain ⟨hle, hlt⟩ := h
  have hsub := afterChild_sublist s.stack
  have hlen := hsub.length_le
  simp only [List.length_map] at hlen
  refine ⟨by rw [hstack]; omega, fun i hi => ?_⟩
  rw [hstack] at hi
  exact (hlt i (hsub.subset hi)).trans_le hn

/-- A new waiting node is stored too. -/
theorem WaitingStored.cons {s u : State} {e : StackEntry} (h : WaitingStored s) (he : e.node.val = s.nnodes.val)
    (hstack : u.stack = e :: afterChild s.stack) (hn : s.nnodes.val < u.nnodes.val) : WaitingStored u := by
  obtain ⟨hle, hlt⟩ := h.keep (u := { s with stack := afterChild s.stack }) rfl (le_refl _)
  refine ⟨by rw [hstack]; exact Nat.succ_le_of_lt (hle.trans_lt hn), fun i hi => ?_⟩
  rw [hstack, List.map_cons, List.mem_cons] at hi
  rcases hi with rfl | hi
  · omega
  · exact (hlt i hi).trans hn

/-- One round of RDHDR's loop while the arena has room: a record read, hung, stored, and waiting if it is an internal
node (R161). -/
def recordRead (r : HdrRecord) (s : State) (h : s.nnodes.val < 513) : State :=
  { s with
    node := (linkUnder ⟨s.nnodes.val, h⟩ s.stack s.node).set s.nnodes.val (nodeOfRecord r) h
    nnodes := nextCount s.nnodes
    stack := newWaiting r ⟨s.nnodes.val, h⟩ ++ afterChild s.stack
    inp := { s.inp with pos := s.inp.pos + (encodeRecord r).length } }

section
variable {r : HdrRecord} {s : State} (h : s.nnodes.val < 513)

@[simp] theorem recordRead_nnodes : (recordRead r s h).nnodes.val = s.nnodes.val + 1 := nextCount_val h

@[simp] theorem recordRead_node_new : (recordRead r s h).node[(⟨s.nnodes.val, h⟩ : NodeIx)] = nodeOfRecord r := by
  simp [recordRead]

theorem recordRead_node_old {j : NodeIx} (hj : j.val < s.nnodes.val) :
    (recordRead r s h).node[j] = (linkUnder ⟨s.nnodes.val, h⟩ s.stack s.node)[j] :=
  Vector.getElem_set_ne h j.isLt (by omega)

/-- The new entry is not the one it is hung under, so it may be hung before it is stored. -/
theorem hangNode_storeRecord (hw : WaitingStored s) :
    hangNode ⟨s.nnodes.val, h⟩ (storeRecord r s h) = { s with
      node := (linkUnder ⟨s.nnodes.val, h⟩ s.stack s.node).set s.nnodes.val (nodeOfRecord r) h
      nnodes := nextCount s.nnodes
      stack := afterChild s.stack } := by
  rw [hangNode_eq]
  unfold storeRecord linkUnder
  dsimp only
  match hs : s.stack with
  | [] => rfl
  | w :: ws =>
    have hne : s.nnodes.val ≠ w.node.val := (hw.2 w.node (by simp [hs])).ne'
    simp [hne, Vector.set_comm _ _ hne]

theorem takeRecord_room (r : HdrRecord) (hw : WaitingStored s) :
    takeRecord r s = .ok { recordRead r s h with inp := s.inp } := by
  cases r with
  | leaf sym => rw [takeRecord_leaf sym h, hangNode_storeRecord h hw]; rfl
  | internal =>
    obtain ⟨t, ht, htake⟩ := takeRecord_internal h (hw.1.trans_lt h)
    rw [htake, ht, hangNode_storeRecord h hw]
    rfl

/-- RDHDR's loop on the record ahead: the header is complete when no node waits for a child (R161). -/
theorem rdhdrLoop_record {q : Bits} (fuel : Nat) (hw : WaitingStored s) (hwf : r.instr.wf = true)
    (ha : ahead s = encodeRecord r ++ q) :
    rdhdrLoop (fuel + 1) s = if (recordRead r s h).stack.isEmpty then .ok (endHeader (recordRead r s h))
      else rdhdrLoop fuel (recordRead r s h) := by
  have htake := takeRecord_room
    (s := { s with inp := { s.inp with pos := s.inp.pos + (encodeRecord r).length } }) h r hw
  rw [rdhdrLoop, if_neg h.ne, readRecord_encodeRecord hwf ha]
  dsimp only
  rw [htake]
  rfl

end

/-- An entry that holds a leaf's record is the leaf, with weight 0 (R163). -/
theorem treeAt_leafRecord {node : Vector Node 513} {i : NodeIx} {sym : Nat} (hsym : sym ≤ 256)
    (h : node[i] = nodeOfRecord (.leaf (BitVec.ofNat 9 sym))) : TreeAt node i (.leaf sym 0) [i] := by
  have hleaf := TreeAt.leaf (node := node) i (by rw [h]; rfl)
  have hvalue : (node[i]).value.toNat = sym := by
    rw [h]
    simp only [nodeOfRecord, BitVec.toNat_setWidth, BitVec.toNat_ofNat]
    omega
  have hweight : (node[i]).weight.toNat = 0 := by rw [h]; rfl
  rwa [hvalue, hweight] at hleaf

/-- An entry that holds an internal node's record with two links is the node above what they lead to (R163). -/
theorem treeAt_internalRecord {node : Vector Node 513} {i a b : NodeIx} {l r : Trie} {is js : List NodeIx}
    (h : node[i] = linked (linked (nodeOfRecord .internal) .left a) .right b)
    (hl : TreeAt node a l is) (hr : TreeAt node b r js) : TreeAt node i (.node 0 0 l r) (i :: (is ++ js)) := by
  have hnode := TreeAt.node (node := node) i l r is js (by rw [h]; rfl) (by rwa [h]) (by rwa [h])
  rwa [h] at hnode

/-- A node hung under the innermost waiting node changes that node's link alone (R161). -/
theorem linkUnder_cons (j : NodeIx) (w : StackEntry) (ws : List StackEntry) (node : Vector Node 513) (k : NodeIx) :
    (linkUnder j (w :: ws) node)[k] = if w.node = k then linked node[k] w.slot j else node[k] := by
  by_cases h : w.node = k
  · simp [linkUnder, h]
  · have hne : w.node.val ≠ k.val := fun e => h (Fin.ext e)
    simp [linkUnder, h, hne]

/-- What is in the arena and on the stack when RDHDR has read a trie: the trie's shape, in the entries from `NNODES`
on in pre-order, hung under the innermost waiting node; and IN stands behind its serialisation (R161, R163, R167). -/
structure TrieRead (t : Trie) (i : NodeIx) (s u : State) : Prop where
  tree : ∃ ids, TreeAt u.node i t.shape ids ∧ ids.map Fin.val = List.range' s.nnodes.val t.nodes
  old : ∀ j : NodeIx, j.val < s.nnodes.val → u.node[j] = (linkUnder i s.stack s.node)[j]
  nnodes : u.nnodes.val = s.nnodes.val + t.nodes
  stack : u.stack = afterChild s.stack
  inp : u.inp = { s.inp with pos := s.inp.pos + t.ser.length }

/-- What lies ahead once a trie has been read. -/
theorem TrieRead.ahead_eq {t : Trie} {i : NodeIx} {s u : State} {rest : Bits} (h : TrieRead t i s u)
    (ha : ahead s = t.ser ++ rest) : ahead u = rest := by
  have := ahead_advance rfl ha
  rwa [ahead, ← h.inp] at this

theorem TrieRead.keep {t : Trie} {i : NodeIx} {s u : State} (h : TrieRead t i s u) (hw : WaitingStored s) :
    WaitingStored u := hw.keep h.stack (by have := h.nnodes; omega)

/-- The innermost waiting node gets the link to the trie. -/
theorem TrieRead.waiting_node {t : Trie} {i : NodeIx} {s u : State} {w : StackEntry} {ws : List StackEntry}
    (h : TrieRead t i s u) (hs : s.stack = w :: ws) (hw : w.node.val < s.nnodes.val) :
    u.node[w.node] = linked s.node[w.node] w.slot i := by
  rw [h.old w.node hw, hs, linkUnder_cons, if_pos rfl]

/-- Every other entry that was there before is kept. -/
theorem TrieRead.kept_node {t : Trie} {i j : NodeIx} {s u : State} {w : StackEntry} {ws : List StackEntry}
    (h : TrieRead t i s u) (hs : s.stack = w :: ws) (hj : j.val < s.nnodes.val) (hne : w.node ≠ j) :
    u.node[j] = s.node[j] := by
  rw [h.old j hj, hs, linkUnder_cons, if_neg hne]

/-- A leaf is read with its record. -/
theorem trieRead_leaf {sym : Nat} (w : Nat) {s : State} (h : s.nnodes.val < 513) (hsym : sym ≤ 256) :
    TrieRead (.leaf sym w) ⟨s.nnodes.val, h⟩ s (recordRead (.leaf (BitVec.ofNat 9 sym)) s h) where
  tree := ⟨_, treeAt_leafRecord hsym (recordRead_node_new h), rfl⟩
  old _ hj := recordRead_node_old h hj
  nnodes := recordRead_nnodes h
  stack := rfl
  inp := by simp [recordRead, encodeRecord, Trie.ser]

/-- An internal node is read with its record, its left and then its right subtree. -/
theorem trieRead_node {v w : Nat} {l r : Trie} {s u₁ u₂ : State} {a b : NodeIx} (h : s.nnodes.val < 513)
    (hl : TrieRead l a (recordRead .internal s h) u₁) (hr : TrieRead r b u₁ u₂) :
    TrieRead (.node v w l r) ⟨s.nnodes.val, h⟩ s u₂ := by
  have hn₀ := recordRead_nnodes (r := .internal) h
  have hn₁ := hl.nnodes
  have hn₂ := hr.nnodes
  have hs₀ : (recordRead .internal s h).stack = waitEntry ⟨s.nnodes.val, h⟩ :: afterChild s.stack := rfl
  have hs₁ : u₁.stack = rightEntry ⟨s.nnodes.val, h⟩ :: afterChild s.stack := hl.stack
  obtain ⟨is, htl, his⟩ := hl.tree
  obtain ⟨js, htr, hjs⟩ := hr.tree
  have hroot : u₂.node[(⟨s.nnodes.val, h⟩ : NodeIx)] =
      linked (linked (nodeOfRecord .internal) .left a) .right b := by
    have h₁ := hl.waiting_node hs₀ (show s.nnodes.val < _ by omega)
    have h₂ := hr.waiting_node hs₁ (show s.nnodes.val < _ by omega)
    exact h₂.trans (congrArg (linked · _ b) (h₁.trans (congrArg (linked · _ a) (recordRead_node_new h))))
  have hleft : ∀ j ∈ is, u₂.node[j] = u₁.node[j] := fun j hj => by
    have hmem := List.mem_map_of_mem (f := Fin.val) hj
    rw [his, List.mem_range'_1] at hmem
    exact hr.kept_node hs₁ (by omega) (Fin.ne_of_val_ne (show s.nnodes.val ≠ j.val by omega))
  refine ⟨⟨_, treeAt_internalRecord hroot (htl.congr hleft) htr, ?_⟩, fun j hj => ?_, ?_, ?_, ?_⟩
  · rw [List.map_cons, List.map_append, his, hjs, hn₁, hn₀, List.range'_append_1, Trie.nodes, Nat.add_assoc 1,
      Nat.add_comm 1, List.range'_succ]
  · have hne : (⟨s.nnodes.val, h⟩ : NodeIx) ≠ j := Fin.ne_of_val_ne hj.ne'
    have h₂ : u₂.node[j] = u₁.node[j] := hr.kept_node hs₁ (by omega) hne
    have h₁ : u₁.node[j] = (recordRead .internal s h).node[j] := hl.kept_node hs₀ (by omega) hne
    rw [h₂, h₁, recordRead_node_old h hj]
  · rw [Trie.nodes]
    omega
  · rw [hr.stack, hs₁]
    rfl
  · rw [hr.inp, hl.inp]
    simp [recordRead, Trie.ser, encodeRecord]
    omega

/-- RDHDR's loop reads the trie whose serialisation lies ahead, one round for each node (R161, R167). -/
theorem rdhdrLoop_trie {t : Trie} {s : State} {rest : Bits} (fuel : Nat) (h : s.nnodes.val < 513)
    (hfit : s.nnodes.val + t.nodes ≤ 513) (hsym : ∀ x ∈ t.symbols, x ≤ 256) (hw : WaitingStored s)
    (ha : ahead s = t.ser ++ rest) :
    ∃ u, TrieRead t ⟨s.nnodes.val, h⟩ s u ∧
      rdhdrLoop (fuel + t.nodes) s = if u.stack.isEmpty then .ok (endHeader u) else rdhdrLoop fuel u := by
  induction t generalizing s rest fuel with
  | leaf sym w =>
    have hle : sym ≤ 256 := hsym sym (List.mem_singleton_self _)
    have hfield : sym % 2 ^ 9 = sym := Nat.mod_eq_of_lt (by omega)
    have hser : (Trie.leaf sym w).ser = encodeRecord (.leaf (BitVec.ofNat 9 sym)) := by
      rw [encodeRecord, BitVec.toNat_ofNat, hfield, Trie.ser]
    have hwf : (HdrRecord.leaf (BitVec.ofNat 9 sym)).instr.wf = true :=
      decide_eq_true (by rwa [BitVec.toNat_ofNat, hfield])
    exact ⟨_, trieRead_leaf w h hle, rdhdrLoop_record h fuel hw hwf (hser ▸ ha)⟩
  | node v w l r ihl ihr =>
    have hn₀ := recordRead_nnodes (r := .internal) h
    have hlpos := nodes_pos l
    have hrpos := nodes_pos r
    rw [Trie.nodes] at hfit
    simp only [Trie.symbols, List.mem_append] at hsym
    have ha' : ahead s = encodeRecord .internal ++ (l.ser ++ (r.ser ++ rest)) := by
      rw [ha]
      simp [Trie.ser, encodeRecord]
    have ha₀ : ahead (recordRead .internal s h) = l.ser ++ (r.ser ++ rest) := ahead_advance rfl ha'
    have hw₀ : WaitingStored (recordRead .internal s h) :=
      hw.cons (e := waitEntry ⟨s.nnodes.val, h⟩) rfl rfl (by omega)
    obtain ⟨u₁, hl, hloop₁⟩ := ihl (fuel + r.nodes) (by omega) (by omega) (fun x hx => hsym x (.inl hx)) hw₀ ha₀
    have hn₁ := hl.nnodes
    obtain ⟨u₂, hr, hloop₂⟩ := ihr fuel (by omega) (by omega) (fun x hx => hsym x (.inr hx)) (hl.keep hw₀)
      (hl.ahead_eq ha₀)
    have hs₁ : u₁.stack.isEmpty = false := by rw [hl.stack]; rfl
    refine ⟨u₂, trieRead_node h hl hr, ?_⟩
    rw [Trie.nodes, show fuel + (1 + l.nodes + r.nodes) = fuel + r.nodes + l.nodes + 1 by omega,
      rdhdrLoop_record h _ hw rfl ha', if_neg (by simp [recordRead, newWaiting]), hloop₁, hs₁]
    exact hloop₂

/-- Where RDHDR's loop starts: no node stored, and none waiting (R161). -/
def rdhdrStart (s : State) : State := { startTrie s with stack := [] }

theorem rdhdrBody_eq (s : State) : rdhdrBody s = rdhdrLoop 514 (rdhdrStart s) := rfl

/-- RDHDR's body on the serialisation of a trie that fits the arena (R161, R167). -/
theorem rdhdrBody_trie {s : State} {t : Trie} {rest : Bits} (hfit : t.nodes ≤ 513) (hsym : ∀ x ∈ t.symbols, x ≤ 256)
    (ha : ahead s = t.ser ++ rest) : ∃ u, rdhdrBody s = .ok (endHeader u) ∧ TrieRead t 0 (rdhdrStart s) u := by
  have hstart : WaitingStored (rdhdrStart s) := ⟨le_refl _, fun _ hi => absurd hi List.not_mem_nil⟩
  obtain ⟨u, hread, hloop⟩ := rdhdrLoop_trie (514 - t.nodes) (s := rdhdrStart s) (Nat.succ_pos 512)
    ((Nat.zero_add _).trans_le hfit) hsym hstart ha
  have hstack : u.stack.isEmpty = true := by rw [hread.stack]; rfl
  rw [Nat.sub_add_cancel (by omega), hstack] at hloop
  exact ⟨u, hloop, hread⟩

/-- RDHDR on the serialisation of a trie that fits the arena ends well (R161, R163, R167). -/
theorem exec_rdhdr_trie {s : State} {t : Trie} {rest : Bits} (h : Ready s) (hfit : t.nodes ≤ 513)
    (hsym : ∀ x ∈ t.symbols, x ≤ 256) (ha : ahead s = t.ser ++ rest) :
    ∃ u, exec .rdhdr s = .next (finish (endHeader u)) ∧ EndedWell (finish (endHeader u))
      ∧ TrieRead t 0 (rdhdrStart (setPhase .rdhdr (accept s))) u := by
  obtain ⟨u, hbody, hread⟩ := rdhdrBody_trie (s := setPhase .rdhdr (accept s)) hfit hsym ha
  have hrun : exec .rdhdr s = settle (rdhdrBody (setPhase .rdhdr (accept s))) := issue_primitive h rfl
  have hframe := rdhdrLoop_frame 514 (rdhdrStart (setPhase .rdhdr (accept s)))
  rw [← rdhdrBody_eq, hbody] at hframe
  obtain ⟨_, _, _, _, _, _, e⟩ := hframe
  have herr : (endHeader u).err = s.err := by rw [e]; rfl
  exact ⟨u, by rw [hrun, hbody, settle], ⟨rfl, rfl, herr.trans h.2⟩, hread⟩

/-- The trie that RDHDR leaves is the shape of the one it has read (R163). -/
theorem holds_endHeader {s u : State} {t : Trie} (hfit : t.nodes ≤ 513) (hsym : ∀ x ∈ t.symbols, x ≤ 256)
    (h : TrieRead t 0 s u) : Holds (finish (endHeader u)) t.shape := by
  obtain ⟨ids, ht, _⟩ := h.tree
  exact ⟨⟨ids, ht⟩, by rwa [shape_nodes], by rwa [shape_symbols]⟩

/-- The Code Table depends on the shape only (R153). -/
theorem codeTable_shape (t : Trie) : codeTable t.shape = codeTable t := by
  rw [codeTable_eq, codeTable_eq, shape_paths]

/-- Settles O23: RDHDR reads back the shape of the trie, and the Code Table depends on nothing else. -/
theorem headerIdempotence : Obligations.HeaderIdempotence := by
  unfold Obligations.HeaderIdempotence
  intro s t h hvalid ht
  obtain ⟨_, hfit, hsym⟩ := id ht
  refine ⟨_, _, t.ser, gencodeResult s t h hvalid ht, exec_wrhdr h hvalid ht, rfl, fun r rest hr ha => ?_⟩
  obtain ⟨u, hexec, hwell, hread⟩ := exec_rdhdr_trie hr hfit hsym ha
  obtain ⟨hbusy, _, herr⟩ := id hwell
  have hgencode := gencodeResult (finish (endHeader u)) t.shape ⟨hbusy, herr⟩ rfl (holds_endHeader hfit hsym hread)
  exact ⟨_, _, hexec, hwell, hgencode, ⟨rfl, rfl, herr⟩, codeTable_shape t⟩

end Sys2Proof.Machine

namespace Sys2Proof.Machine

/-! ### WRMAGIC and WRHDR -/

/-- Settles O24: no precondition stands before WRMAGIC, and its body is one write to OUT. -/
theorem wrmagicResult : Obligations.WrmagicResult := by
  unfold Obligations.WrmagicResult
  refine ⟨decodeCmd_commandWord (i := .wrmagic) rfl, fun s h => ?_⟩
  have hrun : exec .wrmagic s = .next (finish (outWrite 32 s.magic (setPhase .wrmagic (accept s)))) :=
    issue_primitive h rfl
  rw [hrun, Host.Outcome.next.injEq, State.mk.injEq]
  simp [outWrite, outAppend, opcodeOf, h.1]

/-- Ten bits for each leaf's record and one for each of the L - 1 internal nodes' (30_encoding.md R99). -/
theorem ser_length (t : Trie) : t.ser.length + 1 = 11 * t.leaves := by
  induction t with
  | leaf sym w => simp [Trie.ser, Trie.leaves]
  | node v w l r ihl ihr =>
    simp only [Trie.ser, Trie.leaves, List.length_cons, List.length_append]
    omega

/-- Settles O25: the walk from `ROOT` appends the serialisation, whose records are counted by `ser_length`. -/
theorem wrhdrResult : Obligations.WrhdrResult := by
  unfold Obligations.WrhdrResult
  exact fun s t h hvalid ht => ⟨exec_wrhdr h hvalid ht, ser_length t⟩

/-! ### RDMAGIC -/

/-- The marker ahead is read as the marker (43_header_codec.md R160). -/
theorem inRead_marker {s : State} {rest : Bits} (h : ahead s = bitsOf 32 s.magic.toNat ++ rest) :
    inRead 32 s = (some s.magic, { s with inp := { s.inp with pos := s.inp.pos + 32 } }) := by
  have hread := inRead_field (by decide) s.magic.isLt h
  rwa [BitVec.ofNat_toNat, BitVec.setWidth_eq] at hread

/-- Bits that make the number of a word are the word's bits (00_scope.md R10). -/
theorem eq_bitsOf_of_ofNat_valOf {n : Nat} {q : Bits} {w : BitVec n} (hq : q.length = n)
    (h : BitVec.ofNat n (valOf q) = w) : q = bitsOf n w.toNat := by
  subst hq h
  rw [BitVec.toNat_ofNat, Nat.mod_eq_of_lt (valOf_lt q), bitsOf_valOf]

theorem rdmagicBody_marker {s : State} {rest : Bits} (h : ahead s = bitsOf 32 s.magic.toNat ++ rest) :
    rdmagicBody s = .ok { s with inp := { s.inp with pos := s.inp.pos + 32 } } := by
  simp [rdmagicBody, inRead_marker h]

/-- Fewer than 32 bits, or 32 that are not the marker, are a malformed header (R160). -/
theorem rdmagicBody_other {s : State} (h : ¬ ∃ rest, ahead s = bitsOf 32 s.magic.toNat ++ rest) :
    rdmagicBody s = .raised .malformedHeader
      { s with inp := { s.inp with pos := min (s.inp.pos + 32) s.inp.bits.length } } := by
  have hlen := ahead_length s
  by_cases henough : s.inp.pos + 32 ≤ s.inp.bits.length
  · have hne : BitVec.ofNat 32 (valOf ((ahead s).take 32)) ≠ s.magic := fun hm => by
      have htake := eq_bitsOf_of_ofNat_valOf (by rw [List.length_take]; omega) hm
      exact h ⟨(ahead s).drop 32, by rw [← htake, List.take_append_drop]⟩
    rw [rdmagicBody, inRead_enough henough, Nat.min_eq_left henough]
    exact if_neg hne
  · rw [rdmagicBody, inRead_short (by omega), Nat.min_eq_right (by omega)]

/-- A ready machine runs RDMAGIC's body (R160; 30_encoding.md R94). -/
theorem exec_rdmagic {s : State} (h : Ready s) :
    exec .rdmagic s = settle (rdmagicBody (setPhase .rdmagic (accept s))) := issue_primitive h rfl

/-- Settles O26: the body's read is the marker, or it is not. -/
theorem rdmagicResult : Obligations.RdmagicResult := by
  unfold Obligations.RdmagicResult
  refine ⟨decodeCmd_commandWord (i := .rdmagic) rfl, fun s h => ⟨fun rest ha => ?_, fun hno => ?_⟩⟩
  · rw [exec_rdmagic h, rdmagicBody_marker (s := setPhase .rdmagic (accept s)) ha, settle,
      Host.Outcome.next.injEq, State.mk.injEq]
    simp [opcodeOf, h.1]
  · rw [exec_rdmagic h, rdmagicBody_other (s := setPhase .rdmagic (accept s)) hno, settle,
      Host.Outcome.next.injEq, State.mk.injEq]
    simp [opcodeOf, Err.code, h.1]

/-! ### RDHDR on the serialisation of a trie -/

/-- A ready machine runs RDHDR's loop from its start (R161; 30_encoding.md R94). -/
theorem exec_rdhdr {s : State} (h : Ready s) :
    exec .rdhdr s = settle (rdhdrLoop 514 (rdhdrStart (setPhase .rdhdr (accept s)))) := issue_primitive h rfl

/-- RDHDR's loop keeps OUT, the Frequency Table, `CODE` and every flag but `TRIE_VALID` (R161). -/
theorem rdhdrLoop_keeps {fuel : Nat} {s u : State} (h : rdhdrLoop fuel s = .ok u) :
    u.phase = s.phase ∧ u.err = s.err ∧ u.codesValid = s.codesValid ∧ u.out = s.out ∧ u.freq = s.freq
      ∧ u.code = s.code ∧ u.freqValid = s.freqValid := by
  have hframe := rdhdrLoop_frame fuel s
  rw [h] at hframe
  obtain ⟨_, _, _, _, _, _, rfl⟩ := hframe
  exact ⟨rfl, rfl, rfl, rfl, rfl, rfl, rfl⟩

/-- Settles O27: the trie read stands at index 0 and covers the allocated entries, and the loop keeps the rest. -/
theorem rdhdrReadsTrie : Obligations.RdhdrReadsTrie := by
  unfold Obligations.RdhdrReadsTrie
  intro s t rest h hfit hsym ha
  obtain ⟨u, hbody, hread⟩ := rdhdrBody_trie (s := setPhase .rdhdr (accept s)) hfit hsym ha
  obtain ⟨hphase, herr, hcodes, hout, hfreq, hcode, hfreqValid⟩ := rdhdrLoop_keeps hbody
  obtain ⟨ids, htree, hids⟩ := hread.tree
  refine ⟨finish (endHeader u), ids, by rw [exec_rdhdr h, ← rdhdrBody_eq, hbody, settle],
    ⟨rfl, rfl, herr.trans h.2⟩, hphase, rfl, hcodes, rfl, hread.nnodes.trans (Nat.zero_add _), hread.stack, htree,
    ?_, hread.inp, hout, hfreq, hcode, hfreqValid⟩
  rw [List.range_eq_range', hids]
  rfl

/-! ### RDHDR record by record -/

/-- What the record decoder reads is a well-formed record's encoding (30_encoding.md R97, R98, R100). -/
theorem decodeRecord_ok {q rest : Bits} {r : HdrRecord} (h : decodeRecord q = .ok (r, rest)) :
    r.instr.wf = true ∧ q = encodeRecord r ++ rest := by
  match q with
  | [] => cases h
  | false :: q => cases h; exact ⟨rfl, rfl⟩
  | true :: q =>
    rw [decodeRecord] at h
    by_cases hq : 9 ≤ q.length
    · rw [if_pos hq] at h
      by_cases hf : (BitVec.ofNat 9 (valOf (q.take 9))).toNat ≤ 256
      · rw [decodeSymbol_legal hf] at h
        cases h
        have htake := eq_bitsOf_of_ofNat_valOf (List.length_take_of_le hq) (rfl : BitVec.ofNat 9 (valOf (q.take 9)) = _)
        refine ⟨decide_eq_true hf, ?_⟩
        rw [encodeRecord, ← htake, List.cons_append, List.take_append_drop]
      · rw [decodeSymbol_reserved (by omega)] at h
        cases h
    · rw [if_neg hq] at h
      cases h

/-- Either a well-formed record lies ahead, or reading one raises (43_header_codec.md R161, R164). -/
theorem record_ahead_or_error (s : State) :
    (∃ r q, r.instr.wf = true ∧ ahead s = encodeRecord r ++ q) ∨ ∃ e t, readRecord s = (.error e, t) := by
  match h : decodeRecord (ahead s) with
  | .ok (r, q) => exact .inl ⟨r, q, decodeRecord_ok h⟩
  | .error e =>
    rcases decodeRecord_error h with ⟨_, hshort⟩ | ⟨q, ha, hq, hf, _⟩
    · exact .inr ⟨_, _, readRecord_truncated hshort⟩
    · exact .inr ⟨_, _, readRecord_reserved ha hq hf⟩

theorem rdhdrLoop_full {s : State} (fuel : Nat) (h : s.nnodes.val = 513) :
    rdhdrLoop (fuel + 1) s = .raised .trieOverflow s := by
  rw [rdhdrLoop, if_pos h]

theorem rdhdrLoop_error {s t : State} {e : Err} (fuel : Nat) (h : s.nnodes.val < 513)
    (hread : readRecord s = (.error e, t)) : rdhdrLoop (fuel + 1) s = .raised e t := by
  rw [rdhdrLoop, if_neg h.ne, hread]

theorem waitingStored_start (s : State) : WaitingStored (rdhdrStart s) :=
  ⟨le_refl _, fun _ hi => absurd hi List.not_mem_nil⟩

/-- A record read leaves the waiting nodes stored. -/
theorem WaitingStored.recordRead {s : State} (r : HdrRecord) (h : s.nnodes.val < 513) (hw : WaitingStored s) :
    WaitingStored (recordRead r s h) := by
  have hn := recordRead_nnodes (r := r) h
  cases r with
  | internal => exact hw.cons (e := waitEntry ⟨s.nnodes.val, h⟩) rfl rfl (by omega)
  | leaf sym => exact hw.keep rfl (by omega)

theorem ahead_recordRead {s : State} {r : HdrRecord} {q : Bits} (h : s.nnodes.val < 513)
    (ha : ahead s = encodeRecord r ++ q) : ahead (recordRead r s h) = q := ahead_advance rfl ha

/-! ### RDHDR reads nothing but serialisations -/

/-- How many subtrees the waiting nodes still owe: two before the left child, one after it (R161; 30_encoding.md R99). -/
def owed : List StackEntry → Nat
  | [] => 0
  | w :: ws => (match w.slot with | .left => 2 | .right => 1) + owed ws

/-- A child given to the innermost waiting node is one subtree less. -/
theorem owed_afterChild (w : StackEntry) (ws : List StackEntry) :
    owed (w :: ws) = owed (afterChild (w :: ws)) + 1 := by
  cases hslot : w.slot with
  | left =>
    simp only [owed, afterChild, stillWaiting, hslot, List.singleton_append]
    omega
  | right =>
    simp only [owed, afterChild, stillWaiting, hslot, List.nil_append]
    omega

theorem owed_afterChild_of_isEmpty {st : List StackEntry} (h : ¬ st.isEmpty = true) :
    owed st = owed (afterChild st) + 1 := by
  cases st with
  | nil => exact absurd rfl h
  | cons w ws => exact owed_afterChild w ws

/-- The bits are the serialisations of n tries, with Symbols on their leaves and at most m nodes together, and more
bits behind. -/
def Serialised (n m : Nat) (q : Bits) : Prop :=
  ∃ ts : List Trie, ts.length = n ∧ (ts.map Trie.nodes).sum ≤ m ∧ (∀ t ∈ ts, ∀ x ∈ t.symbols, x ≤ 256)
    ∧ ∃ rest, q = ts.flatMap Trie.ser ++ rest

theorem serialised_zero (m : Nat) (q : Bits) : Serialised 0 m q :=
  ⟨[], rfl, Nat.zero_le _, fun _ h => absurd h List.not_mem_nil, q, rfl⟩

/-- A leaf's record in front is one trie more. -/
theorem Serialised.leaf {n m : Nat} {q : Bits} {sym : BitVec 9} (h : Serialised n m q) (hsym : sym.toNat ≤ 256) :
    Serialised (n + 1) (m + 1) (encodeRecord (.leaf sym) ++ q) := by
  obtain ⟨ts, hlen, hnodes, hsyms, rest, rfl⟩ := h
  refine ⟨.leaf sym.toNat 0 :: ts, by rw [List.length_cons, hlen], ?_, ?_, rest, ?_⟩
  · simp only [List.map_cons, List.sum_cons, Trie.nodes]
    omega
  · simpa [Trie.symbols, hsym] using hsyms
  · simp [Trie.ser, encodeRecord]

/-- An internal node's record in front makes one trie of two. -/
theorem Serialised.internal {n m : Nat} {q : Bits} (h : Serialised (n + 2) m q) :
    Serialised (n + 1) (m + 1) (encodeRecord .internal ++ q) := by
  obtain ⟨ts, hlen, hnodes, hsyms, rest, rfl⟩ := h
  match ts with
  | l :: r :: ts =>
    simp only [List.map_cons, List.sum_cons] at hnodes
    simp only [List.length_cons] at hlen
    refine ⟨.node 0 0 l r :: ts, by rw [List.length_cons]; omega, ?_, ?_, rest, ?_⟩
    · simp only [List.map_cons, List.sum_cons, Trie.nodes]
      omega
    · simp only [List.mem_cons, forall_eq_or_imp, Trie.symbols, List.mem_append] at hsyms ⊢
      obtain ⟨hl, hr, hts⟩ := hsyms
      exact ⟨fun x hx => hx.elim (hl x) (hr x), hts⟩
    · simp [Trie.ser, encodeRecord]

/-- When RDHDR's loop ends well, it had the serialisations ahead that the header still owed: one for the next record
and one for each child the nodes behind it wait for (R162, R167). -/
theorem serialised_of_rdhdrLoop {fuel : Nat} {s u : State} (hw : WaitingStored s) (hu : rdhdrLoop fuel s = .ok u) :
    Serialised (owed (afterChild s.stack) + 1) (513 - s.nnodes.val) (ahead s) := by
  induction fuel generalizing s with
  | zero => cases hu
  | succ fuel ih =>
    rcases Nat.lt_succ_iff_lt_or_eq.mp s.nnodes.isLt with h | hfull
    case inr => rw [rdhdrLoop_full fuel hfull] at hu; cases hu
    rcases record_ahead_or_error s with ⟨r, q, hwf, ha⟩ | ⟨e, t, herror⟩
    case inr => rw [rdhdrLoop_error fuel h herror] at hu; cases hu
    have hn := recordRead_nnodes (r := r) h
    have hrest : Serialised (owed (recordRead r s h).stack) (512 - s.nnodes.val) q := by
      rw [rdhdrLoop_record h fuel hw hwf ha] at hu
      by_cases hstack : (recordRead r s h).stack.isEmpty = true
      · rw [List.isEmpty_iff.mp hstack]
        exact serialised_zero _ q
      · rw [if_neg hstack] at hu
        have := ih (hw.recordRead r h) hu
        rwa [← owed_afterChild_of_isEmpty hstack, hn, ahead_recordRead h ha, Nat.sub_add_eq,
          Nat.sub_right_comm] at this
    rw [ha, show 513 - s.nnodes.val = 512 - s.nnodes.val + 1 by omega]
    cases r with
    | leaf sym => exact hrest.leaf (of_decide_eq_true hwf)
    | internal =>
      refine Serialised.internal ?_
      have : owed (recordRead .internal s h).stack = owed (afterChild s.stack) + 2 := by
        simp [recordRead, newWaiting, owed, waitEntry, Nat.add_comm]
      rwa [this] at hrest

/-- RDHDR ends without a raise only on the serialisation of a trie that fits the arena (R162). -/
theorem header_of_rdhdr {s u : State} (h : Ready s) (hu : exec .rdhdr s = .next u) (herr : u.err = false) :
    ∃ (t : Trie) (rest : Bits), t.nodes ≤ 513 ∧ (∀ x ∈ t.symbols, x ≤ 256) ∧ ahead s = t.ser ++ rest := by
  rw [exec_rdhdr h, settle_next] at hu
  rcases hu with ⟨v, hv, -⟩ | ⟨e, v, -, rfl⟩
  case inr => cases herr
  obtain ⟨ts, hlen, hfit, hsym, rest, ha⟩ := serialised_of_rdhdrLoop (waitingStored_start _) hv
  obtain ⟨t, rfl⟩ := List.length_eq_one_iff.mp hlen
  rw [List.map_singleton, List.sum_singleton] at hfit
  rw [List.flatMap_singleton] at ha
  exact ⟨t, rest, hfit, hsym t (List.mem_singleton_self t), ha⟩

theorem shape_shape (t : Trie) : t.shape.shape = t.shape := by
  induction t with
  | leaf => rfl
  | node v w l r ihl ihr => rw [Trie.shape, Trie.shape, ihl, ihr]

/-- Settles O28: what RDHDR has read without a raise is a trie's serialisation, and then RDHDR leaves its shape. -/
theorem rdhdrInvertsSer : Obligations.RdhdrInvertsSer := by
  unfold Obligations.RdhdrInvertsSer
  intro s u h hu herr
  obtain ⟨t, rest, hfit, hsym, ha⟩ := header_of_rdhdr h hu herr
  obtain ⟨v, ids, hv, -, -, -, -, hroot, hnnodes, -, htree, -, hinp, -⟩ := rdhdrReadsTrie s t rest h hfit hsym ha
  obtain rfl : u = v := Host.Outcome.next.inj (hu.symm.trans hv)
  exact ⟨t.shape, rest, ids, by rwa [shape_ser], shape_shape t, htree, by rwa [shape_ser],
    by rw [shape_nodes, hnnodes], by rwa [shape_symbols]⟩

/-! ### Readers step by step -/

theorem run_succ {s t : State} (k : Nat) (h : step s = .next t) :
    Host.Core.run core (k + 1) s = Host.Core.run core k t := by
  have hstep : core.step s = .next t := h
  simp only [Host.Core.run, hstep]

theorem run_one (s : State) : Host.Core.run core 1 s = step s := by
  have hstep : core.step s = step s := rfl
  simp only [Host.Core.run, hstep]
  cases step s <;> rfl

/-- RDMAGIC's turn is its body (R160). -/
theorem markerTurn_eq (s : State) : markerTurn s = settle (rdmagicBody s) := by
  match h : inRead 32 s with
  | (none, t) =>
    rw [markerTurn, rdmagicBody, h]
    rfl
  | (some m, t) =>
    rw [markerTurn, rdmagicBody, h]
    dsimp only
    by_cases hm : m = t.magic
    · rw [decodeMarker, if_pos hm, if_pos hm]
      rfl
    · rw [decodeMarker, if_neg hm, if_neg hm]
      rfl

/-- While RDMAGIC runs, a step is its turn (43_header_codec.md R160; log 7). -/
theorem step_rdmagic {s : State} (hbusy : s.busy = true) (hphase : s.phase = opcodeOf .rdmagic) :
    step s = settle (rdmagicBody s) := by
  rw [step, if_pos hbusy, engineTurn, hphase, if_neg (by decide), if_pos rfl, markerTurn_eq]

/-- While RDHDR runs, a step is its turn (R161; log 7). -/
theorem step_rdhdr {s : State} (hbusy : s.busy = true) (hphase : s.phase = opcodeOf .rdhdr) :
    step s = headerTurn s := by
  rw [step, if_pos hbusy, engineTurn, if_pos hphase]

/-- A header record with a legal field is taken by the reader (R161; 30_encoding.md R100). -/
theorem exec_record {r : HdrRecord} (s : State) (hwf : r.instr.wf = true) : exec r.instr s = readerTakes r s := by
  cases r with
  | internal => rfl
  | leaf sym => exact exec_hdrLeaf s (of_decide_eq_true hwf)

/-- RDHDR's turn on the record ahead is one round of its loop (R161). -/
theorem step_record {s : State} {r : HdrRecord} {q : Bits} (hbusy : s.busy = true)
    (hphase : s.phase = opcodeOf .rdhdr) (h : s.nnodes.val < 513) (hw : WaitingStored s) (hwf : r.instr.wf = true)
    (ha : ahead s = encodeRecord r ++ q) :
    step s = .next (if (recordRead r s h).stack.isEmpty then finish (endHeader (recordRead r s h))
      else recordRead r s h) := by
  have htake := takeRecord_room
    (s := { s with inp := { s.inp with pos := s.inp.pos + (encodeRecord r).length } }) h r hw
  rw [step_header hbusy hphase h (readRecord_encodeRecord hwf ha), exec_record _ hwf, readerTakes, htake]
  rfl

/-- A running RDHDR ends, step by step, as its loop does (R161, R166). -/
theorem run_rdhdrLoop {fuel : Nat} {s : State} (hbusy : s.busy = true) (hphase : s.phase = opcodeOf .rdhdr)
    (hw : WaitingStored s) (hfuel : 514 ≤ s.nnodes.val + fuel) :
    ∃ k, Host.Core.run core k s = settle (rdhdrLoop fuel s) := by
  induction fuel generalizing s with
  | zero => omega
  | succ fuel ih =>
    rcases Nat.lt_succ_iff_lt_or_eq.mp s.nnodes.isLt with h | hfull
    case inr =>
      refine ⟨1, ?_⟩
      rw [run_one, step_rdhdr hbusy hphase, headerTurn, if_pos hfull, rdhdrLoop_full fuel hfull, settle]
    rcases record_ahead_or_error s with ⟨r, q, hwf, ha⟩ | ⟨e, t, herror⟩
    case inr =>
      refine ⟨1, ?_⟩
      rw [run_one, step_rdhdr hbusy hphase, headerTurn, if_neg h.ne, herror, rdhdrLoop_error fuel h herror, settle]
    have hstep := step_record hbusy hphase h hw hwf ha
    rw [rdhdrLoop_record h fuel hw hwf ha]
    by_cases hstack : (recordRead r s h).stack.isEmpty = true
    · exact ⟨1, by rw [run_one, hstep, if_pos hstack, if_pos hstack, settle]⟩
    · rw [if_neg hstack] at hstep ⊢
      have hn := recordRead_nnodes (r := r) h
      obtain ⟨k, hk⟩ := ih (s := recordRead r s h) hbusy hphase (hw.recordRead r h) (by omega)
      exact ⟨k + 1, by rw [run_succ k hstep, hk]⟩

/-- Settles O35: each round of RDHDR's loop is a step, and so is RDMAGIC's body. -/
theorem readersAreRecordSteps : Obligations.ReadersAreRecordSteps := by
  unfold Obligations.ReadersAreRecordSteps
  refine ⟨fun s h => ?_, fun s h => ?_⟩
  · rw [exec_rdhdr h]
    exact run_rdhdrLoop (s := rdhdrStart (setPhase .rdhdr (accept s))) rfl rfl (waitingStored_start _) (by simp)
  · rw [exec_rdmagic h, run_one]
    exact step_rdmagic (s := setPhase .rdmagic (accept s)) rfl rfl

end Sys2Proof.Machine

namespace Sys2Proof.Machine

/-! ### REWIND -/

/-- Settles O36: no precondition stands before REWIND, and its body moves the position alone. -/
theorem rewindResult : Obligations.RewindResult := by
  unfold Obligations.RewindResult
  refine ⟨decodeCmd_commandWord (i := .rewind) rfl, fun s h => ?_⟩
  have hrun : exec .rewind s = .next (finish (inRewind (setPhase .rewind (accept s)))) := issue_primitive h rfl
  rw [hrun, Host.Outcome.next.injEq, State.mk.injEq]
  simp [opcodeOf, h.1]

/-! ### ENCODE's data loop -/

/-- A word ahead is read as that word (20_memory.md R64, R70). -/
theorem inRead_word {n : Nat} {w : BitVec n} {s : State} {rest : Bits} (hn : 0 < n)
    (h : ahead s = bitsOf n w.toNat ++ rest) :
    inRead n s = (some w, { s with inp := { s.inp with pos := s.inp.pos + n } }) := by
  have hread := inRead_field hn w.isLt h
  rwa [BitVec.ofNat_toNat, BitVec.setWidth_eq] at hread

/-- A symbol with a code is emitted (44_stream_transcoder.md R178). -/
theorem emitCode_valid {sym : Symbol} {s : State} (h : (s.code[sym]).valid = true) :
    emitCode sym s = .ok (outAppend (codeBits s.code[sym]) s) :=
  if_pos h

/-- ENCODE's data loop begun in s, behind these bytes: their codes are in OUT, and IN stands behind them (R178). -/
def encoded (bytes : List (BitVec 8)) (s : State) : State :=
  { s with
    inp := { s.inp with pos := s.inp.pos + 8 * bytes.length }
    out := s.out ++ bytes.flatMap fun b => codeBits s.code[byteSymbol b] }

theorem ahead_encoded {bytes : List (BitVec 8)} {s : State} {rest : Bits} (h : ahead s = bytesBits bytes ++ rest) :
    ahead (encoded bytes s) = rest :=
  ahead_advance (bytesBits_length bytes) h

/-- One byte more and then others are together as many bytes. -/
theorem encoded_cons (x : BitVec 8) (bytes : List (BitVec 8)) (s : State) :
    encoded bytes (encoded [x] s) = encoded (x :: bytes) s := by
  simp [encoded, Nat.mul_add_one, Nat.add_assoc, Nat.add_comm 8]

/-- One iteration: a byte with a code is read and its code written (R178). -/
theorem encodeLoop_byte {fuel : Nat} {x : BitVec 8} {s : State} {rest : Bits} (h : ahead s = bitsOf 8 x.toNat ++ rest)
    (hx : (s.code[byteSymbol x]).valid = true) : encodeLoop (fuel + 1) s = encodeLoop fuel (encoded [x] s) := by
  have hemit : emitCode (byteSymbol x) { s with inp := { s.inp with pos := s.inp.pos + 8 } } = .ok (encoded [x] s) := by
    rw [encoded, List.flatMap_singleton]
    exact emitCode_valid hx
  rw [encodeLoop, inRead_word (by decide) h]
  exact congrArg (Run.bind · (encodeLoop fuel)) hemit

/-- The data loop passes over bytes that all have codes, one iteration each (R178). -/
theorem encodeLoop_encoded {bytes : List (BitVec 8)} {fuel : Nat} {s : State} {rest : Bits}
    (h : ahead s = bytesBits bytes ++ rest) (hcodes : ∀ b ∈ bytes, (s.code[byteSymbol b]).valid = true) :
    encodeLoop (fuel + bytes.length) s = encodeLoop fuel (encoded bytes s) := by
  induction bytes generalizing s with
  | nil => simp [encoded]
  | cons x bytes ih =>
    have hx : ahead s = bitsOf 8 x.toNat ++ (bytesBits bytes ++ rest) := by simp [h, bytesBits]
    obtain ⟨hcode, hcodes⟩ := List.forall_mem_cons.mp hcodes
    calc encodeLoop (fuel + bytes.length + 1) s
      _ = encodeLoop (fuel + bytes.length) (encoded [x] s) := encodeLoop_byte hx hcode
      _ = encodeLoop fuel (encoded bytes (encoded [x] s)) :=
        ih (ahead_encoded (by simpa [bytesBits] using hx)) hcodes
      _ = encodeLoop fuel (encoded (x :: bytes) s) := by rw [encoded_cons]

/-- ENCODE's body reaches what lies behind bytes that all have codes with an iteration left for it (R178). -/
theorem encodeBody_encoded {bytes : List (BitVec 8)} {s : State} {rest : Bits} (h : ahead s = bytesBits bytes ++ rest)
    (hcodes : ∀ b ∈ bytes, (s.code[byteSymbol b]).valid = true) :
    ∃ fuel, encodeBody s = encodeLoop (fuel + 1) (encoded bytes s) := by
  have hle := ahead_le_bits s
  rw [h, List.length_append, bytesBits_length] at hle
  obtain ⟨fuel, hfuel⟩ : ∃ fuel, s.inp.bits.length + 1 = fuel + 1 + bytes.length :=
    ⟨s.inp.bits.length - bytes.length, by omega⟩
  exact ⟨fuel, by rw [encodeBody, hfuel, encodeLoop_encoded h hcodes]⟩

/-- Where fewer than 8 bits are left, the terminator's code is emitted (R178). -/
theorem encodeLoop_exhausted {fuel : Nat} {s : State} (h : (ahead s).length < 8) :
    encodeLoop (fuel + 1) s = emitCode eosSymbol { s with inp := { s.inp with pos := s.inp.bits.length } } := by
  rw [encodeLoop, inRead_short h]

/-- R180: ENCODE's body when every byte ahead and the pseudo-symbol have codes. -/
theorem encodeBody_payload {bytes : List (BitVec 8)} {s : State} {rest : Bits} (h : ahead s = bytesBits bytes ++ rest)
    (hrest : rest.length < 8) (hcodes : ∀ b ∈ bytes, (s.code[byteSymbol b]).valid = true)
    (heos : (s.code[eosSymbol]).valid = true) :
    encodeBody s = .ok { s with
      inp := { s.inp with pos := s.inp.bits.length }, out := s.out ++ payload s.code bytes } := by
  obtain ⟨fuel, hbody⟩ := encodeBody_encoded h hcodes
  rw [hbody, encodeLoop_exhausted (ahead_encoded h ▸ hrest), emitCode_valid]
  · simp [encoded, outAppend, payload]
  · exact heos

/-- A ready machine runs ENCODE's body (R178; 30_encoding.md R94). -/
theorem exec_encode {s : State} (h : Ready s) (hvalid : s.codesValid = true) :
    exec .encode s = settle (encodeBody (setPhase .encode (accept s))) := issue_primitive h hvalid

/-- Settles O38: the data loop passes over the bytes, and the terminator follows them. -/
theorem encodeResult : Obligations.EncodeResult := by
  unfold Obligations.EncodeResult
  intro s bytes rest hs hvalid h hrest hcodes heos
  rw [exec_encode hs hvalid, encodeBody_payload (s := setPhase .encode (accept s)) h hrest hcodes heos, settle,
    Host.Outcome.next.injEq, State.mk.injEq]
  simp [opcodeOf, hs.1]

/-! ### Subtries -/

/-- The trie a path leads to (00_scope.md R13). -/
def Trie.subtrie : Trie → Bits → Option Trie
  | t, [] => some t
  | .leaf _ _, _ :: _ => none
  | .node _ _ l _, false :: q => l.subtrie q
  | .node _ _ _ r, true :: q => r.subtrie q

@[simp] theorem subtrie_nil (t : Trie) : t.subtrie [] = some t := by cases t <;> rfl

/-- The one path of a one-leaf trie is empty (44_stream_transcoder.md R186). -/
theorem leafAt_leaf {sym w x : Nat} {q : Bits} (h : (Trie.leaf sym w).leafAt q = some x) : q = [] ∧ x = sym := by
  cases q with
  | nil => cases h; exact ⟨rfl, rfl⟩
  | cons => cases h

/-- A path to a leaf leads to a trie of that leaf alone. -/
theorem subtrie_of_leafAt {t : Trie} {q : Bits} {x : Nat} (h : t.leafAt q = some x) :
    ∃ w, t.subtrie q = some (.leaf x w) := by
  induction t generalizing q with
  | leaf sym w =>
    obtain ⟨rfl, rfl⟩ := leafAt_leaf h
    exact ⟨w, rfl⟩
  | node _ _ l r hl hr =>
    match q with
    | [] => cases h
    | false :: q => exact hl h
    | true :: q => exact hr h

/-- An incomplete path leads to a trie with an internal root. -/
theorem subtrie_of_inside {t : Trie} {q : Bits} (h : t.inside q = true) :
    ∃ v w l r, t.subtrie q = some (.node v w l r) := by
  induction t generalizing q with
  | leaf => cases h
  | node v w l r hl hr =>
    match q with
    | [] => exact ⟨v, w, l, r, rfl⟩
    | false :: q => exact hl h
    | true :: q => exact hr h

/-! ### DECODE's walk -/

/-- An internal node of a trie has `KIND` 0 (00_scope.md R12). -/
theorem TreeAt.internal {node : Vector Node 513} {i : NodeIx} {v w : Nat} {l r : Trie} {ids : List NodeIx}
    (h : TreeAt node i (.node v w l r) ids) : (node[i]).kind = false := by
  cases h with
  | node _ _ _ _ _ hk => exact hk

/-- A leaf of a trie has `KIND` 1 (R12). -/
theorem TreeAt.isLeaf {node : Vector Node 513} {i : NodeIx} {x w : Nat} {ids : List NodeIx}
    (h : TreeAt node i (.leaf x w) ids) : (node[i]).kind = true := by
  cases h with
  | leaf _ hk => exact hk

/-- A leaf of the pseudo-symbol holds its number (10_state.md R32). -/
theorem TreeAt.value_eos {node : Vector Node 513} {i : NodeIx} {w : Nat} {ids : List NodeIx}
    (h : TreeAt node i (.leaf 256 w) ids) : (node[i]).value = 256#16 :=
  BitVec.eq_of_toNat_eq h.value_eq

/-- What DECODE's walk does at the node it has come to: a leaf of the pseudo-symbol ends it, another leaf is written
and the walk returns to `ROOT`, and at an internal node it reads on (44_stream_transcoder.md R184, R185). -/
def visit (fuel : Nat) (s : State) : Run :=
  if (s.node[s.cur]).kind then
    if (s.node[s.cur]).value = 256#16 then .ok s
    else decodeLoop fuel (outWrite 8 ((s.node[s.cur]).value.extractLsb' 0 8) { s with cur := s.root })
  else decodeLoop fuel s

/-- The walk one bit further down (R184). -/
def moved (b : Bool) (s : State) : State :=
  { s with
    cur := if b then (s.node[s.cur]).right else (s.node[s.cur]).left
    inp := { s.inp with pos := s.inp.pos + 1 } }

/-- One iteration of the walk is a move to a child and a visit of it (R184). -/
theorem decodeLoop_bit {fuel : Nat} {b : Bool} {s : State} {rest : Bits} (h : ahead s = b :: rest) :
    decodeLoop (fuel + 1) s = visit fuel (moved b s) := by
  have hread : inRead 1 s = (some (BitVec.ofBool b), { s with inp := { s.inp with pos := s.inp.pos + 1 } }) :=
    inRead_word (by decide) (by cases b <;> exact h)
  have hchild (nd : Node) : childOf nd (BitVec.ofBool b) = if b then nd.right else nd.left := by cases b <;> rfl
  rw [decodeLoop, hread]
  simp only [hchild]
  rfl

/-- R189: the bits have run out. -/
theorem decodeLoop_exhausted {fuel : Nat} {s : State} (h : ahead s = []) :
    decodeLoop (fuel + 1) s = .raised .truncated { s with inp := { s.inp with pos := s.inp.bits.length } } := by
  rw [decodeLoop, inRead_short (by simp [h])]

theorem visit_internal {fuel : Nat} {s : State} (h : (s.node[s.cur]).kind = false) :
    visit fuel s = decodeLoop fuel s :=
  if_neg (ne_true_of_eq_false h)

/-- A walk along a path of a trie in the arena comes to the trie the path leads to, one iteration a bit (R184). -/
theorem visit_path {q rest : Bits} {s : State} {t u : Trie} {ids : List NodeIx} (fuel : Nat)
    (ht : TreeAt s.node s.cur t ids) (hq : t.subtrie q = some u) (ha : ahead s = q ++ rest) :
    ∃ c js, TreeAt s.node c u js ∧ visit (fuel + q.length) s =
      visit fuel { s with cur := c, inp := { s.inp with pos := s.inp.pos + q.length } } := by
  induction q generalizing s t ids with
  | nil =>
    rw [subtrie_nil, Option.some.injEq] at hq
    exact ⟨s.cur, ids, hq ▸ ht, rfl⟩
  | cons b q ih =>
    cases ht with
    | leaf => cases hq
    | node _ l r is js hk hl hr =>
      have hmove : visit (fuel + q.length + 1) s = visit (fuel + q.length) (moved b s) := by
        rw [visit_internal hk, decodeLoop_bit ha]
      have hahead : ahead (moved b s) = q ++ rest := ahead_advance (p := [b]) rfl ha
      obtain ⟨c, ks, htree, hvisit⟩ : ∃ c ks, TreeAt s.node c u ks ∧ visit (fuel + q.length) (moved b s) =
          visit fuel { s with cur := c, inp := { s.inp with pos := s.inp.pos + 1 + q.length } } := by
        cases b with
        | false => exact ih (s := moved false s) hl hq hahead
        | true => exact ih (s := moved true s) hr hq hahead
      refine ⟨c, ks, htree, ?_⟩
      rw [List.length_cons, ← Nat.add_assoc, hmove, hvisit, Nat.add_assoc _ 1, Nat.add_comm 1]

/-- A leaf's byte is its Symbol in 8 bits (R185). -/
theorem bitsOf_extract (v : BitVec 16) : bitsOf 8 (v.extractLsb' 0 8).toNat = bitsOf 8 v.toNat := by
  have hlow := bitsOf_low (n := 8) (b := v.toNat / 2 ^ 8) (le_refl 8) (Nat.mod_lt v.toNat (by decide))
  rw [Nat.div_add_mod] at hlow
  rw [BitVec.extractLsb'_toNat, Nat.shiftRight_zero, hlow]

/-- A leaf of the pseudo-symbol ends the walk (R185). -/
theorem visit_eos {fuel w : Nat} {s : State} {ids : List NodeIx} (h : TreeAt s.node s.cur (.leaf 256 w) ids) :
    visit fuel s = .ok s := by
  rw [visit, if_pos h.isLeaf, if_pos h.value_eos]

/-- Another leaf is written as a byte (R185). -/
theorem visit_literal {fuel x w : Nat} {s : State} {ids : List NodeIx} (h : TreeAt s.node s.cur (.leaf x w) ids)
    (hx : x ≠ 256) : visit fuel s = decodeLoop fuel { s with cur := s.root, out := s.out ++ bitsOf 8 x } := by
  have hvalue : (s.node[s.cur]).value.toNat = x := h.value_eq
  have hne : (s.node[s.cur]).value ≠ 256#16 := fun hv => hx (by rw [← hvalue, hv]; rfl)
  rw [visit, if_pos h.isLeaf, if_neg hne, outWrite, bitsOf_extract, hvalue]
  rfl

/-- DECODE's walk begun in s, behind these literal paths: their bytes are in OUT, and IN stands behind them (R185). -/
def decoded (ps : List (Bits × Nat)) (s : State) : State :=
  { s with
    cur := s.root
    inp := { s.inp with pos := s.inp.pos + (pathBits ps).length }
    out := s.out ++ literalBits ps }

theorem ahead_decoded {ps : List (Bits × Nat)} {s : State} {rest : Bits} (h : ahead s = pathBits ps ++ rest) :
    ahead (decoded ps s) = rest :=
  ahead_advance rfl h

/-- Before any path the walk is at `ROOT`. -/
theorem decoded_nil {s : State} (h : s.cur = s.root) : decoded [] s = s := by
  cases s
  cases h
  simp [decoded, pathBits, literalBits]

/-- Paths behind a path are together one list of paths. -/
theorem decoded_cons (e : Bits × Nat) (ps : List (Bits × Nat)) (s : State) :
    decoded ps (decoded [e] s) = decoded (e :: ps) s := by
  simp [decoded, pathBits, literalBits, Nat.add_assoc]

section
variable {s : State} {v w : Nat} {l r : Trie} {ids : List NodeIx} {rest : Bits} (fuel : Nat)

/-- The walk from an internal root along a path comes to the trie the path leads to (R184). -/
theorem decodeLoop_path {u : Trie} {q : Bits} (ht : TreeAt s.node s.cur (.node v w l r) ids)
    (hq : (Trie.node v w l r).subtrie q = some u) (ha : ahead s = q ++ rest) :
    ∃ c js, TreeAt s.node c u js ∧ decodeLoop (fuel + q.length) s =
      visit fuel { s with cur := c, inp := { s.inp with pos := s.inp.pos + q.length } } :=
  visit_internal ht.internal ▸ visit_path fuel ht hq ha

/-- The walk from an internal root along a literal path (R185, R187). -/
theorem decodeLoop_literal {q : Bits} {x : Nat} (ht : TreeAt s.node s.cur (.node v w l r) ids)
    (hq : (Trie.node v w l r).leafAt q = some x) (hx : x ≠ 256) (ha : ahead s = q ++ rest) :
    decodeLoop (fuel + q.length) s = decodeLoop fuel (decoded [(q, x)] s) := by
  obtain ⟨_, hsub⟩ := subtrie_of_leafAt hq
  obtain ⟨c, js, htree, hwalk⟩ := decodeLoop_path fuel ht hsub ha
  rw [hwalk, visit_literal htree hx]
  simp [decoded, pathBits, literalBits]

/-- The walk passes over literal paths of a trie with an internal root, one iteration a bit (R185, R187). -/
theorem decodeLoop_decoded {ps : List (Bits × Nat)} (ht : TreeAt s.node s.root (.node v w l r) ids)
    (hcur : s.cur = s.root) (hps : LiteralPaths (.node v w l r) ps) (ha : ahead s = pathBits ps ++ rest) :
    decodeLoop (fuel + (pathBits ps).length) s = decodeLoop fuel (decoded ps s) := by
  induction ps generalizing s with
  | nil =>
    rw [decoded_nil hcur]
    rfl
  | cons e ps ih =>
    obtain ⟨⟨hleaf, hliteral⟩, hps⟩ := List.forall_mem_cons.mp hps
    have he : ahead s = e.1 ++ (pathBits ps ++ rest) := by simp [ha, pathBits]
    have hlen : fuel + (pathBits (e :: ps)).length = fuel + (pathBits ps).length + e.1.length := by
      simp only [pathBits, List.flatMap_cons, List.length_append]
      omega
    calc decodeLoop (fuel + (pathBits (e :: ps)).length) s
      _ = decodeLoop (fuel + (pathBits ps).length + e.1.length) s := by rw [hlen]
      _ = decodeLoop (fuel + (pathBits ps).length) (decoded [e] s) :=
        decodeLoop_literal _ (hcur ▸ ht) hleaf hliteral he
      _ = decodeLoop fuel (decoded ps (decoded [e] s)) :=
        ih ht rfl hps (ahead_decoded (by simpa [pathBits] using he))
      _ = decodeLoop fuel (decoded (e :: ps) s) := by rw [decoded_cons]

/-- DECODE's body on a trie with an internal root walks over literal paths and then along a path to the trie it leads
to, with an iteration left (R185). -/
theorem decodeBody_decoded {ps : List (Bits × Nat)} {u : Trie} {q : Bits}
    (ht : TreeAt s.node s.root (.node v w l r) ids) (hps : LiteralPaths (.node v w l r) ps)
    (hq : (Trie.node v w l r).subtrie q = some u) (ha : ahead s = pathBits ps ++ (q ++ rest)) :
    ∃ fuel c js, TreeAt s.node c u js ∧ decodeBody s = visit (fuel + 1) { s with
      cur := c
      inp := { s.inp with pos := s.inp.pos + (pathBits ps).length + q.length }
      out := s.out ++ literalBits ps } := by
  have hle := ahead_le_bits s
  rw [ha, List.length_append, List.length_append] at hle
  obtain ⟨fuel, hfuel⟩ : ∃ fuel, s.inp.bits.length + 1 = fuel + 1 + q.length + (pathBits ps).length :=
    ⟨s.inp.bits.length - q.length - (pathBits ps).length, by omega⟩
  obtain ⟨c, js, htree, hwalk⟩ := decodeLoop_path (s := decoded ps s) (fuel + 1) ht hq (ahead_decoded ha)
  refine ⟨fuel, c, js, htree, ?_⟩
  rw [decodeBody, if_neg (ne_true_of_eq_false ht.internal), hfuel]
  exact (decodeLoop_decoded (s := { s with cur := s.root }) _ ht rfl hps ha).trans hwalk

end

/-- R186: DECODE's body on a one-leaf trie of the pseudo-symbol. -/
theorem decodeBody_oneLeaf {s : State} {w : Nat} {ids : List NodeIx} (h : TreeAt s.node s.root (.leaf 256 w) ids) :
    decodeBody s = .ok s := by
  rw [decodeBody, if_pos h.isLeaf, if_pos h.value_eos]

/-- A one-leaf trie has no literal path beside one to the pseudo-symbol. -/
theorem literalPaths_oneLeaf {w : Nat} {ps : List (Bits × Nat)} (h : LiteralPaths (.leaf 256 w) ps) : ps = [] :=
  List.eq_nil_iff_forall_not_mem.mpr fun e he => (h e he).2 (leafAt_leaf (h e he).1).2

/-- R187, R188: DECODE's body on literal paths and then a path to the pseudo-symbol. -/
theorem decodeBody_payload {ps : List (Bits × Nat)} {s : State} {t : Trie} {ids : List NodeIx} {pe rest : Bits}
    (ht : TreeAt s.node s.root t ids) (hps : LiteralPaths t ps) (hpe : t.leafAt pe = some 256)
    (ha : ahead s = pathBits ps ++ (pe ++ rest)) :
    ∃ c, decodeBody s = .ok { s with
      cur := c
      inp := { s.inp with pos := s.inp.pos + (pathBits ps).length + pe.length }
      out := s.out ++ literalBits ps } := by
  cases t with
  | leaf sym w =>
    obtain ⟨rfl, rfl⟩ := leafAt_leaf hpe
    obtain rfl := literalPaths_oneLeaf hps
    refine ⟨s.cur, (decodeBody_oneLeaf ht).trans ?_⟩
    simp [pathBits, literalBits]
  | node =>
    obtain ⟨w, hsub⟩ := subtrie_of_leafAt hpe
    obtain ⟨fuel, c, js, htree, hbody⟩ := decodeBody_decoded ht hps hsub ha
    exact ⟨c, hbody.trans (visit_eos htree)⟩

/-- R189: DECODE's body on literal paths and then an incomplete path. -/
theorem decodeBody_truncated {ps : List (Bits × Nat)} {s : State} {t : Trie} {ids : List NodeIx} {q : Bits}
    (ht : TreeAt s.node s.root t ids) (hps : LiteralPaths t ps) (hq : t.inside q = true)
    (ha : ahead s = pathBits ps ++ q) :
    ∃ c, decodeBody s = .raised .truncated { s with
      cur := c, inp := { s.inp with pos := s.inp.bits.length }, out := s.out ++ literalBits ps } := by
  cases t with
  | leaf => cases hq
  | node =>
    obtain ⟨v, w, l, r, hsub⟩ := subtrie_of_inside hq
    rw [← List.append_nil q] at ha
    obtain ⟨fuel, c, js, htree, hbody⟩ := decodeBody_decoded ht hps hsub ha
    refine ⟨c, ?_⟩
    rw [hbody, visit_internal htree.internal, decodeLoop_exhausted]
    exact ahead_advance (s := decoded ps s) rfl (ahead_decoded ha)

/-- A ready machine runs DECODE's body (R185; 30_encoding.md R94). -/
theorem exec_decode {s : State} (h : Ready s) (hvalid : s.trieValid = true) :
    exec .decode s = settle (decodeBody (setPhase .decode (accept s))) := issue_primitive h hvalid

/-- Settles O40: the walk passes over the literal paths, and the path to the pseudo-symbol ends it. -/
theorem decodeResult : Obligations.DecodeResult := by
  unfold Obligations.DecodeResult
  rintro s t ps pe rest h hvalid ⟨⟨ids, ht⟩, -, -⟩ hps hpe ha
  obtain ⟨c, hbody⟩ := decodeBody_payload (s := setPhase .decode (accept s)) ht hps hpe ha
  refine ⟨c, ?_⟩
  rw [exec_decode h hvalid, hbody, settle, Host.Outcome.next.injEq, State.mk.injEq]
  simp [opcodeOf, h.1]

/-- Settles O42: the walk passes over the literal paths, and on the incomplete one the bits run out. -/
theorem decodeTruncatedRaises : Obligations.DecodeTruncatedRaises := by
  unfold Obligations.DecodeTruncatedRaises
  rintro s t ps q h - hvalid ⟨⟨ids, ht⟩, -, -⟩ hps hq ha
  obtain ⟨c, hbody⟩ := decodeBody_truncated (s := setPhase .decode (accept s)) ht hps hq ha
  refine ⟨c, ?_⟩
  rw [exec_decode h hvalid, hbody, settle, Host.Outcome.next.injEq, State.mk.injEq]
  simp [opcodeOf, Err.code, h.1]

end Sys2Proof.Machine

namespace Sys2Proof.Machine

/-! ### A composite is its members issued one by one -/

/-- Between the acceptance of a command and its end (30_encoding.md R94). -/
def Running (s : State) : Prop := s.busy = true ∧ s.done = false ∧ s.err = false

theorem primitive_running (i : Instr) (body : State → Run) {s : State} (hs : Running s)
    (hbody : ∀ t, Running t → (body t).Ends Running) : (primitive i body s).Ends Running := by
  unfold primitive
  split
  · exact hbody _ hs
  · exact hs

/-- No primitive writes these flags: only the envelope around it does (R94). -/
theorem commandRun_running {i : Instr} (hi : (opcodeOf i).toNat ≤ 12) {s : State} (hs : Running s) :
    (commandRun i s).Ends Running := by
  cases i with
  | count =>
    exact primitive_running .count countBody hs fun _ ht =>
      ends_bind (ends_mono (countLoop_frame _ _) fun _ ⟨_, _, e⟩ => e ▸ ht) fun _ hu => hu
  | build =>
    exact primitive_running .build buildBody hs fun _ ht =>
      ends_mono (buildBody_frame _) fun _ ⟨_, _, _, _, _, _, e⟩ => e ▸ ht
  | gencode =>
    exact primitive_running .gencode gencodeBody hs fun _ ht =>
      ends_bind (ends_mono (gencodeLoop_frame _ _) fun _ ⟨_, _, e⟩ => e ▸ ht) fun _ hu => hu
  | wrhdr =>
    exact primitive_running .wrhdr wrhdrBody hs fun _ ht =>
      ends_mono (wrhdrLoop_frame _ _) fun _ ⟨_, _, e⟩ => e ▸ ht
  | encode =>
    exact primitive_running .encode encodeBody hs fun _ ht =>
      ends_mono (encodeLoop_frame _ _) fun _ ⟨_, _, e⟩ => e ▸ ht
  | rdmagic =>
    exact primitive_running .rdmagic rdmagicBody hs fun _ ht =>
      ends_mono (rdmagicBody_frame _) fun _ ⟨_, e⟩ => e ▸ ht
  | rdhdr =>
    exact primitive_running .rdhdr rdhdrBody hs fun _ ht =>
      ends_mono (rdhdrLoop_frame _ _) fun _ ⟨_, _, _, _, _, _, e⟩ => e ▸ ht
  | decode =>
    exact primitive_running .decode decodeBody hs fun _ ht =>
      ends_mono (decodeBody_frame _) fun _ ⟨_, _, _, e⟩ => e ▸ ht
  | clrfreq => exact primitive_running .clrfreq clrfreqBody hs fun _ ht => ht
  | wrmagic => exact primitive_running .wrmagic wrmagicBody hs fun _ ht => ht
  | rewind => exact primitive_running .rewind rewindBody hs fun _ ht => ht
  | flush => exact primitive_running .flush flushBody hs fun _ ht => ht
  | compress | decompress => exact absurd hi (by decide)
  | magicWord | hdrInternal | hdrLeaf _ => exact hs

/-- One command issued alone. -/
theorem issueAll_singleton (i : Instr) (s : State) : issueAll [i] s = exec i s := by
  cases h : exec i s <;> simp [issueAll, h]

/-- The first command has ended, and the others follow (45_composite.md R200). -/
theorem issueAll_cons {i : Instr} {s t : State} (is : List Instr) (h : exec i s = .next t) :
    issueAll (i :: is) s = issueAll is t := by
  rw [issueAll, h]

/-- The end of a member and the acceptance of the next one cancel out (R94, R200). -/
theorem accept_finish {s : State} (h : Running s) : accept (finish s) = s := by
  obtain ⟨hbusy, hdone, _⟩ := h
  rw [accept, finish, ← hbusy, ← hdone]

/-- A primitive in front: after its good end the next acceptance goes on from the same state, and after its raise no
command is accepted, as no later member is run (R200, R217). -/
theorem issue_bind {i : Instr} {is : List Instr} {f : State → Run} {s : State} (hi : isCommand i = true)
    (hprimitive : (opcodeOf i).toNat ≤ 12) (hf : ∀ t : State, t.busy = false → issue f t = issueAll is t)
    (hbusy : s.busy = false) : issue (fun t => (commandRun i t).bind f) s = issueAll (i :: is) s := by
  cases herr : s.err with
  | true =>
    have hignored (run : State → Run) : issue run s = .next s := issue_ignored (.inr herr)
    rw [issueAll_cons is ((exec_command hi s).trans (hignored _)), ← hf s hbusy, hignored, hignored]
  | false =>
    have hready : Ready s := ⟨hbusy, herr⟩
    have hexec : exec i s = settle (commandRun i (accept s)) := (exec_command hi s).trans (issue_ready hready)
    have hrunning := commandRun_running hprimitive (s := accept s) ⟨rfl, rfl, herr⟩
    rw [issue_ready hready]
    cases hend : commandRun i (accept s) with
    | ok t =>
      rw [hend] at hexec hrunning
      have hnext : Ready (finish t) := ⟨rfl, hrunning.2.2⟩
      rw [issueAll_cons is hexec, ← hf _ rfl, issue_ready hnext, accept_finish hrunning, bind_ok]
    | raised e t =>
      rw [hend] at hexec
      rw [issueAll_cons is hexec, ← hf _ rfl, issue_ignored (.inr rfl)]
      rfl
    | stuck x => rw [issueAll, hexec, hend]; rfl

/-- The primitives in sequence, stopping at the first raise (R195). -/
def runMembers : List Instr → State → Run
  | [] => .ok
  | [i] => commandRun i
  | i :: j :: is => fun s => (commandRun i s).bind (runMembers (j :: is))

/-- Primitives run in one acceptance, or issued one by one, give the same state (R200). -/
theorem issue_runMembers {is : List Instr} {s : State} (hne : is ≠ [])
    (hcommands : ∀ i ∈ is, isCommand i = true) (hprimitives : ∀ i ∈ is, (opcodeOf i).toNat ≤ 12)
    (hbusy : s.busy = false) : issue (runMembers is) s = issueAll is s := by
  induction is generalizing s with
  | nil => exact absurd rfl hne
  | cons i is ih =>
    obtain ⟨hi, hcommands⟩ := List.forall_mem_cons.mp hcommands
    obtain ⟨hprimitive, hprimitives⟩ := List.forall_mem_cons.mp hprimitives
    cases is with
    | nil => rw [issueAll_singleton, exec_command hi, runMembers]
    | cons j is =>
      exact issue_bind hi hprimitive (fun t ht => ih (List.cons_ne_nil j is) hcommands hprimitives ht) hbusy

/-- The members of COMPRESS (R196). -/
def compressMembers : List Instr := [.count, .build, .gencode, .wrmagic, .wrhdr, .rewind, .encode, .flush]

/-- The members of DECOMPRESS (R198). -/
def decompressMembers : List Instr := [.rdmagic, .rdhdr, .decode]

theorem exec_compress {s : State} (hbusy : s.busy = false) : exec .compress s = issueAll compressMembers s :=
  issue_runMembers (is := compressMembers) (List.cons_ne_nil _ _) (by decide) (by decide) hbusy

theorem exec_decompress {s : State} (hbusy : s.busy = false) : exec .decompress s = issueAll decompressMembers s :=
  issue_runMembers (is := decompressMembers) (List.cons_ne_nil _ _) (by decide) (by decide) hbusy

/-- Settles O50: each composite is its members in sequence, which are primitives. -/
theorem compositeIsMembers : Obligations.CompositeIsMembers := by
  unfold Obligations.CompositeIsMembers
  exact fun s hbusy => ⟨exec_compress hbusy, exec_decompress hbusy⟩

end Sys2Proof.Machine

namespace Sys2Proof.Machine

/-! ### DECOMPRESS -/

/-- Once a member has raised, the others are ignored (R200; 60_exceptions.md R218). -/
theorem issueAll_err {is : List Instr} {s : State} (his : ∀ i ∈ is, isCommand i = true) (h : s.err = true) :
    issueAll is s = .next s := by
  induction is with
  | nil => rfl
  | cons i is ih =>
    obtain ⟨hi, his⟩ := List.forall_mem_cons.mp his
    rw [issueAll_cons is (commandIgnored i s hi (.inr h)), ih his]

/-- DECOMPRESS when its first member RDMAGIC has read the marker (R198; 43_header_codec.md R160). -/
def behindMarker (s : State) : State := { s with
  phase := 0xA#4, done := true, inp := { s.inp with pos := s.inp.pos + 32 } }

theorem ahead_behindMarker {s : State} {rest : Bits} (ha : ahead s = bitsOf 32 s.magic.toNat ++ rest) :
    ahead (behindMarker s) = rest :=
  ahead_advance (bitsOf_length _ _) ha

theorem exec_decompress_marker {s : State} {rest : Bits} (h : Ready s)
    (ha : ahead s = bitsOf 32 s.magic.toNat ++ rest) :
    exec .decompress s = issueAll [.rdhdr, .decode] (behindMarker s) := by
  rw [exec_decompress h.1]
  exact issueAll_cons _ ((rdmagicResult.2 s h).1 rest ha)

/-- Settles O48: RDMAGIC raises, and the other members are ignored. -/
theorem malformedMarkerRejected : Obligations.MalformedMarkerRejected := by
  unfold Obligations.MalformedMarkerRejected
  intro s h hno
  rw [exec_decompress h.1, decompressMembers, issueAll_cons _ ((rdmagicResult.2 s h).2 hno),
    issueAll_err (by decide) rfl]

/-- Bits that lie ahead lie within IN. -/
theorem pos_add_le_of_ahead {s : State} {p rest : Bits} (hp : 0 < p.length) (ha : ahead s = p ++ rest) :
    s.inp.pos + p.length ≤ s.inp.bits.length := by
  have hlen := ahead_length s
  rw [ha, List.length_append] at hlen
  omega

/-- What DECODE starts from when DECOMPRESS has read the marker and the serialisation of t in s: the trie's shape, and
IN behind its serialisation (R199). -/
structure HeaderRead (t : Trie) (s u : State) : Prop where
  ready : Ready u
  trieValid : u.trieValid = true
  codesValid : u.codesValid = false
  freqValid : u.freqValid = s.freqValid
  holds : Holds u t.shape
  inp : u.inp = { s.inp with pos := s.inp.pos + 32 + t.ser.length }
  within : InWithin u
  out : u.out = s.out

/-- DECOMPRESS is DECODE behind the header of a trie that fits the arena (R199; 43_header_codec.md R167). -/
theorem exec_decompress_header {s : State} {t : Trie} {rest : Bits} (h : Ready s) (hfit : t.nodes ≤ 513)
    (hsym : ∀ x ∈ t.symbols, x ≤ 256) (ha : ahead s = bitsOf 32 s.magic.toNat ++ (t.ser ++ rest)) :
    ∃ u, exec .decompress s = exec .decode u ∧ HeaderRead t s u ∧ ahead u = rest := by
  have hmarker := ahead_behindMarker ha
  obtain ⟨u, ids, hexec, ⟨hbusy, _, herr⟩, _, htrie, hcodes, _, _, _, htree, _, hinp, hout, _, _, hfreq⟩ :=
    rdhdrReadsTrie (behindMarker s) t rest h hfit hsym hmarker
  have hholds : Holds u t.shape := ⟨⟨ids, htree⟩, by rwa [shape_nodes], by rwa [shape_symbols]⟩
  have hwithin : InWithin u := by
    have hser := ser_length t
    have hleaves := leaves_pos t
    have hpos := pos_add_le_of_ahead (by omega) hmarker
    rw [InWithin, hinp]
    exact hpos
  refine ⟨u, ?_, ⟨⟨hbusy, herr⟩, htrie, hcodes, hfreq, hholds, hinp, hwithin, hout⟩, ?_⟩
  · rw [exec_decompress_marker h ha, issueAll_cons _ hexec, issueAll_singleton]
  · rw [ahead, hinp]
    exact ahead_advance rfl hmarker

theorem LiteralPaths.shape {t : Trie} {ps : List (Bits × Nat)} (h : LiteralPaths t ps) : LiteralPaths t.shape ps :=
  fun e he => by rw [shape_leafAt]; exact h e he

/-- Settles O45: RDHDR leaves the shape of the trie, which has the same leaf paths, and DECODE follows them. -/
theorem decompressResult : Obligations.DecompressResult := by
  unfold Obligations.DecompressResult
  intro s t ps pe rest h hfit hsym hps hpe ha
  obtain ⟨u, hexec, hu, hahead⟩ := exec_decompress_header h hfit hsym ha
  obtain ⟨ids, htree⟩ := hu.holds.1
  obtain ⟨c, hdecode⟩ := decodeResult u t.shape ps pe rest hu.ready hu.trieValid hu.holds hps.shape
    (by rwa [shape_leafAt]) hahead
  exact ⟨_, ids, hexec.trans hdecode, ⟨hu.ready.1, rfl, hu.ready.2⟩, rfl, hu.trieValid, hu.codesValid, hu.freqValid,
    htree, by rw [hu.out], by rw [hu.inp]⟩

/-! ### RDHDR on records that are not yet a whole header -/

/-- What the header still owes behind a record is owed to the nodes that then wait (43_header_codec.md R161;
30_encoding.md R99). -/
theorem awaited_recordRead (r : HdrRecord) (rs : List HdrRecord) {s : State} (h : s.nnodes.val < 513) :
    awaited (owed (afterChild s.stack) + 1) (r :: rs) = awaited (owed (recordRead r s h).stack) rs := by
  cases r with
  | leaf sym => rfl
  | internal =>
    have howed : owed (recordRead .internal s h).stack = owed (afterChild s.stack) + 2 := Nat.add_comm 2 _
    rw [howed, awaited]

theorem awaited_zero (rs : List HdrRecord) : awaited 0 rs = 0 := by cases rs <;> rfl

/-- RDHDR's loop reads on over records that leave a subtree owed, one iteration each (R161). -/
theorem rdhdrLoop_records {rs : List HdrRecord} {s : State} {tail : Bits} (fuel : Nat) (hw : WaitingStored s)
    (hwf : ∀ r ∈ rs, r.instr.wf = true) (howed : 0 < awaited (owed (afterChild s.stack) + 1) rs)
    (hroom : s.nnodes.val + rs.length ≤ 513) (ha : ahead s = rs.flatMap encodeRecord ++ tail) :
    ∃ u, rdhdrLoop (fuel + rs.length) s = rdhdrLoop fuel u ∧ u.nnodes.val = s.nnodes.val + rs.length
      ∧ ahead u = tail ∧ ∃ n c st p,
        u = { s with node := n, nnodes := c, stack := st, inp := { s.inp with pos := p } } := by
  induction rs generalizing s with
  | nil => exact ⟨s, rfl, rfl, ha, s.node, s.nnodes, s.stack, s.inp.pos, rfl⟩
  | cons r rs ih =>
    obtain ⟨hr, hwf⟩ := List.forall_mem_cons.mp hwf
    rw [List.length_cons] at hroom
    have h : s.nnodes.val < 513 := by omega
    have hn := recordRead_nnodes (r := r) h
    rw [List.flatMap_cons, List.append_assoc] at ha
    rw [awaited_recordRead r rs h] at howed
    have hwaits : ¬ (recordRead r s h).stack.isEmpty = true := fun hempty => by
      rw [List.isEmpty_iff.mp hempty, owed, awaited_zero] at howed
      exact absurd howed (Nat.lt_irrefl 0)
    rw [owed_afterChild_of_isEmpty hwaits] at howed
    obtain ⟨u, hloop, hu, hahead, n, c, st, p, rfl⟩ :=
      ih (hw.recordRead r h) hwf howed (by omega) (ahead_recordRead h ha)
    refine ⟨_, ?_, by rw [hu, hn, List.length_cons]; omega, hahead, n, c, st, p, rfl⟩
    rw [List.length_cons, ← Nat.add_assoc, rdhdrLoop_record h _ hw hr ha, if_neg hwaits, hloop]

/-- RDHDR raises E_TRUNCATED where IN ends before a node bit or inside a symbol field of a header that still owes a
subtree (R164; 60_exceptions.md R220). -/
theorem exec_rdhdr_truncated {s : State} {rs : List HdrRecord} {tail : Bits} (h : Ready s)
    (hwf : ∀ r ∈ rs, r.instr.wf = true) (howed : 0 < awaited 1 rs) (hroom : rs.length < 513)
    (ha : ahead s = rs.flatMap encodeRecord ++ tail) (htail : tail = [] ∨ ∃ q, tail = true :: q ∧ q.length < 9) :
    ∃ u, exec .rdhdr s = .next u ∧ EndedBadly .truncated u ∧ u.phase = 0xB#4 ∧ u.trieValid = false
      ∧ u.codesValid = false ∧ u.nnodes.val = rs.length ∧ u.inp = { s.inp with pos := s.inp.bits.length }
      ∧ u.out = s.out := by
  obtain ⟨u, hloop, hn, hahead, hframe⟩ := rdhdrLoop_records
    (s := rdhdrStart (setPhase .rdhdr (accept s))) (513 - rs.length + 1) (waitingStored_start _) hwf howed
    ((Nat.zero_add _).trans_le hroom.le) ha
  replace hn := hn.trans (Nat.zero_add _)
  rw [show 513 - rs.length + 1 + rs.length = 514 by omega,
    rdhdrLoop_error _ (hn.trans_lt hroom) (readRecord_truncated (hahead ▸ htail))] at hloop
  have hexec := (exec_rdhdr h).trans (congrArg settle hloop)
  obtain ⟨n, c, st, p, rfl⟩ := hframe
  exact ⟨_, hexec, ⟨rfl, rfl, rfl, rfl⟩, rfl, rfl, rfl, hn, rfl, rfl⟩

/-- Settles O49: a cut payload is met by DECODE, and a cut header by RDHDR, whose raise leaves DECODE ignored. -/
theorem truncatedStreamRejected : Obligations.TruncatedStreamRejected := by
  unfold Obligations.TruncatedStreamRejected
  refine ⟨fun s t ps q h hfit hsym hps hq ha => ?_, fun s rs tail h hwf howed hroom ha htail => ?_⟩
  · obtain ⟨u, hexec, hu, hahead⟩ := exec_decompress_header h hfit hsym ha
    obtain ⟨c, hdecode⟩ := decodeTruncatedRaises u t.shape ps q hu.ready hu.within hu.trieValid hu.holds hps.shape
      (by rwa [shape_inside]) hahead
    exact ⟨_, hexec.trans hdecode, ⟨hu.ready.1, rfl, rfl, rfl⟩, rfl, hu.trieValid, by rw [hu.inp], by rw [hu.out]⟩
  · obtain ⟨u, hexec, hbad, hphase, hvalid, -, -, hinp, hout⟩ :=
      exec_rdhdr_truncated (s := behindMarker s) h hwf howed hroom (ahead_behindMarker ha) htail
    obtain ⟨_, _, herr, _⟩ := id hbad
    refine ⟨u, ?_, hbad, hphase, hvalid, hinp, hout⟩
    rw [exec_decompress_marker h ha, issueAll_cons _ hexec, issueAll_err (by decide) herr]

end Sys2Proof.Machine

namespace Sys2Proof.Machine

/-! ### The trie of a Frequency Table -/

theorem leafWeights_fst (t : Trie) : t.leafWeights.map Prod.fst = t.symbols := by
  induction t with
  | leaf => rfl
  | node _ _ l r hl hr => simp [Trie.leafWeights, Trie.symbols, hl, hr]

theorem symbols_length (t : Trie) : t.symbols.length = t.leaves := by
  induction t with
  | leaf => rfl
  | node _ _ l r hl hr => simp [Trie.symbols, Trie.leaves, hl, hr]

/-- R138 a: the Symbols on the leaves are those with a frequency, each once. -/
theorem huffTrie_symbols {freq : Vector Word 257} {t : Trie} (h : huffTrie freq = some t) :
    t.symbols.Perm ((liveSymbols freq).map Fin.val) := by
  have hperm := (huffTrie_leafWeights h).map Prod.fst
  rwa [leafWeights_fst, List.map_map] at hperm

theorem mem_huffTrie_symbols {freq : Vector Word 257} {t : Trie} (h : huffTrie freq = some t) (v : Symbol) :
    v.val ∈ t.symbols ↔ freq[v] ≠ 0#32 := by
  rw [(huffTrie_symbols h).mem_iff, List.mem_map_of_injective Fin.val_injective, mem_liveSymbols]

/-- The trie of a Frequency Table fits the arena (41_trie_builder.md R133; 10_state.md R32). -/
theorem huffTrie_fits {freq : Vector Word 257} {t : Trie} (h : huffTrie freq = some t) :
    t.nodes ≤ 513 ∧ ∀ x ∈ t.symbols, x ≤ 256 := by
  have hperm := huffTrie_symbols h
  refine ⟨?_, fun x hx => ?_⟩
  · have hlen := hperm.length_eq
    have hle := liveSymbols_length_le freq
    have hnodes := nodes_eq t
    rw [symbols_length, List.length_map] at hlen
    omega
  · obtain ⟨v, _, rfl⟩ := List.mem_map.mp (hperm.mem_iff.mp hx)
    exact Nat.le_of_lt_succ v.isLt

/-! ### The counts of a byte sequence that is not too long -/

theorem occurrences_lt {bytes : List (BitVec 8)} {n : Nat} (h : bytes.length < n) (v : Nat) :
    occurrences bytes v < n :=
  List.countP_le_length.trans_lt h

theorem freqOf_eos (bytes : List (BitVec 8)) : (freqOf bytes)[eosSymbol] = 1#32 := by simp [freqOf, eosSymbol]

/-- A byte of the sequence is counted (R124). -/
theorem freqOf_byte_ne_zero {bytes : List (BitVec 8)} {b : BitVec 8} (hb : b ∈ bytes)
    (hlt : occurrences bytes b.toNat < 2 ^ 32) : (freqOf bytes)[byteSymbol b] ≠ 0#32 := by
  have hpos : 0 < occurrences bytes b.toNat := List.countP_pos_iff.mpr ⟨b, hb, beq_self_eq_true _⟩
  have hentry : (freqOf bytes)[byteSymbol b] = BitVec.ofNat 32 (occurrences bytes b.toNat) := by
    simp [freqOf, byteSymbol, (show b.toNat ≠ 256 from b.isLt.ne)]
  rw [hentry, ne_eq, ← BitVec.toNat_inj, BitVec.toNat_ofNat, Nat.mod_eq_of_lt hlt]
  exact hpos.ne'

/-- Every byte of the sequence and the pseudo-symbol are on leaves of its trie (R138 a). -/
theorem symbols_of_huffTrie {bytes : List (BitVec 8)} {t : Trie} (h : huffTrie (freqOf bytes) = some t)
    (hlt : ∀ v, occurrences bytes v < 2 ^ 32) : (∀ b ∈ bytes, b.toNat ∈ t.symbols) ∧ 256 ∈ t.symbols :=
  ⟨fun b hb => (mem_huffTrie_symbols h (byteSymbol b)).mpr (freqOf_byte_ne_zero hb (hlt _)),
    (mem_huffTrie_symbols h eosSymbol).mpr (by rw [freqOf_eos]; decide)⟩

/-- Either no count of the bytes reaches 2^32, or the scan meets a byte whose count is already `2^32 - 1` (R123). -/
theorem counts_fit_or_overflow (bytes : List (BitVec 8)) :
    (∀ v, occurrences bytes v < 2 ^ 32) ∨ ∃ p x q, bytes = p ++ [x] ++ q ∧ (∀ v, occurrences p v < 2 ^ 32)
      ∧ occurrences p x.toNat = 2 ^ 32 - 1 := by
  induction bytes using List.reverseRecOn with
  | nil => exact .inl fun v => by simp [occurrences]
  | append_singleton bytes x ih =>
    rcases ih with hfit | ⟨p, y, q, rfl, hp, hfull⟩
    · by_cases hfull : occurrences bytes x.toNat = 2 ^ 32 - 1
      · exact .inr ⟨bytes, x, [], (List.append_nil _).symm, hfit, hfull⟩
      · refine .inl fun v => ?_
        have hv := hfit v
        rw [occurrences_concat]
        split
        next heq => subst heq; omega
        next => omega
    · exact .inr ⟨p, y, q ++ [x], List.append_assoc .., hp, hfull⟩

theorem bytesBits_append (p q : List (BitVec 8)) : bytesBits (p ++ q) = bytesBits p ++ bytesBits q :=
  List.flatMap_append

/-- The bits of IN are whole bytes and fewer than 8 bits behind them (20_memory.md R71). -/
theorem exists_bytes (q : Bits) : ∃ bytes rest, q = bytesBits bytes ++ rest ∧ rest.length < 8 := by
  by_cases h : q.length < 8
  · exact ⟨[], q, rfl, h⟩
  · obtain ⟨bytes, rest, hdrop, hrest⟩ := exists_bytes (q.drop 8)
    have hlen : (q.take 8).length = 8 := List.length_take_of_le (by omega)
    have hbyte := eq_bitsOf_of_ofNat_valOf hlen rfl
    refine ⟨BitVec.ofNat 8 (valOf (q.take 8)) :: bytes, rest, ?_, hrest⟩
    rw [bytesBits, List.flatMap_cons, ← hbyte, List.append_assoc, ← bytesBits, ← hdrop, List.take_append_drop]
termination_by q.length
decreasing_by rw [List.length_drop]; omega

/-! ### COMPRESS member by member -/

/-- COMPRESS when its first member COUNT has read all of IN (45_composite.md R196; 40_frequency_table.md R124). -/
def counted (bytes : List (BitVec 8)) (s : State) : State := { s with
  phase := 2#4, done := true, freqValid := true, freq := freqOf bytes
  inp := { s.inp with pos := s.inp.bits.length } }

theorem exec_compress_counted {s : State} {bytes : List (BitVec 8)} {rest : Bits} (h : Ready s)
    (ha : ahead s = bytesBits bytes ++ rest) (hrest : rest.length < 8) (hlt : ∀ v, occurrences bytes v < 2 ^ 32) :
    exec .compress s =
      issueAll [.build, .gencode, .wrmagic, .wrhdr, .rewind, .encode, .flush] (counted bytes s) := by
  rw [exec_compress h.1]
  exact issueAll_cons _ (countResult s bytes rest h ha hrest hlt).1

/-- Where COMPRESS ends when BUILD has left u with the trie t (R197). -/
def compressed (t : Trie) (bytes : List (BitVec 8)) (u : State) : State := { u with
  phase := 9#4, done := true, codesValid := true, stack := [], code := codeTable t
  inp := { u.inp with pos := u.inp.bits.length }
  out := padded (u.out ++ streamBody u.magic t bytes) }

theorem exec_flush {s : State} (h : Ready s) :
    exec .flush s = .next { s with phase := 9#4, done := true, out := padded s.out } := by
  obtain ⟨_, rfl, _, _, _, hexec⟩ := flushResult.2 s h
  exact hexec

/-- The members behind BUILD, on a trie in which every byte of IN and the pseudo-symbol are on a leaf (R197). -/
theorem issueAll_compressed {u : State} {t : Trie} {bytes : List (BitVec 8)} {rest : Bits} (h : Ready u)
    (hvalid : u.trieValid = true) (ht : Holds u t) (hin : u.inp.bits = bytesBits bytes ++ rest)
    (hrest : rest.length < 8) (hbytes : ∀ b ∈ bytes, b.toNat ∈ t.symbols) (heos : 256 ∈ t.symbols) :
    issueAll [.gencode, .wrmagic, .wrhdr, .rewind, .encode, .flush] u = .next (compressed t bytes u) := by
  obtain ⟨_, hfit, _⟩ := id ht
  have hcodes : ∀ b ∈ bytes, ((codeTable t)[byteSymbol b]).valid = true := fun b hb =>
    (codeTable_valid_iff hfit _).mpr (hbytes b hb)
  have hcode : ((codeTable t)[eosSymbol]).valid = true := (codeTable_valid_iff hfit _).mpr heos
  refine Eq.trans (issueAll_cons _ (gencodeResult u t h hvalid ht)) ?_
  refine Eq.trans (issueAll_cons _ (wrmagicResult.2 _ h)) ?_
  refine Eq.trans (issueAll_cons _ (exec_wrhdr (t := t) h hvalid ht)) ?_
  refine Eq.trans (issueAll_cons _ (rewindResult.2 _ h)) ?_
  refine Eq.trans (issueAll_cons _ (encodeResult _ bytes rest h rfl hin hrest hcodes hcode)) ?_
  refine Eq.trans (issueAll_singleton _ _) (Eq.trans (exec_flush h) ?_)
  simp only [compressed, streamBody, List.append_assoc]

/-- BUILD on a valid table that counts the pseudo-symbol once (41_trie_builder.md R137). -/
theorem exec_build_holds {s : State} (h : Ready s) (hvalid : s.freqValid = true) (heos : s.freq[eosSymbol] = 1#32)
    (hsum : freqSum s.freq < 2 ^ 32) :
    ∃ u t, exec .build s = .next u ∧ huffTrie s.freq = some t ∧ Ready u ∧ u.trieValid = true ∧ Holds u t
      ∧ u.freqValid = true ∧ u.magic = s.magic ∧ u.inp = s.inp ∧ u.out = s.out := by
  obtain ⟨u, t, hu, hexec, ht, hbuilt⟩ := exec_build_huff h hvalid heos hsum
  have htree := hbuilt.tree
  have htrie := hbuilt.valid
  have hframe := buildBody_frame (setPhase .build (accept s))
  rw [hu] at hframe
  obtain ⟨_, _, _, _, _, _, rfl⟩ := hframe
  exact ⟨_, t, hexec, ht, ⟨rfl, h.2⟩, htrie, ⟨htree, huffTrie_fits ht⟩, hvalid, rfl, rfl, rfl⟩

/-- COMPRESS of at most 2^32 - 2 bytes, and fewer than 8 bits behind them (R197, R201). -/
theorem exec_compress_stream {s : State} {bytes : List (BitVec 8)} {rest : Bits} (h : Ready s)
    (hin : s.inp = { bits := bytesBits bytes ++ rest, pos := 0 }) (hrest : rest.length < 8)
    (hlen : bytes.length < 2 ^ 32 - 1) :
    ∃ u t, huffTrie (freqOf bytes) = some t ∧ exec .compress s = .next u ∧ EndedWell u ∧ u.phase = 9#4
      ∧ u.freqValid = true ∧ u.trieValid = true ∧ u.codesValid = true
      ∧ u.out = padded (s.out ++ streamBody s.magic t bytes)
      ∧ u.inp = { s.inp with pos := s.inp.bits.length } := by
  have hlt := occurrences_lt (hlen.trans (by decide : 2 ^ 32 - 1 < 2 ^ 32))
  have ha : ahead s = bytesBits bytes ++ rest := by rw [ahead, hin]; rfl
  have hsum : freqSum (freqOf bytes) < 2 ^ 32 := by rw [freqSum_freqOf hlt]; omega
  obtain ⟨u, t, hexec, ht, hready, hvalid, hholds, hfreq, hmagic, hinp, hout⟩ :=
    exec_build_holds (s := counted bytes s) h rfl (freqOf_eos bytes) hsum
  obtain ⟨hbytes, heos⟩ := symbols_of_huffTrie ht hlt
  have hmembers := issueAll_compressed hready hvalid hholds (by rw [hinp, counted, hin]) hrest hbytes heos
  refine ⟨compressed t bytes u, t, ht, ?_, ⟨hready.1, rfl, hready.2⟩, rfl, hfreq, hvalid, rfl, ?_, ?_⟩
  · rw [exec_compress_counted h ha hrest hlt, issueAll_cons _ hexec, hmembers]
  · rw [compressed, hmagic, hout]; rfl
  · rw [compressed, hinp]; rfl

theorem padded_append {p : Bits} (h : p.length % 8 = 0) (q : Bits) : padded (p ++ q) = p ++ padded q := by
  have hpad : padLength (p ++ q).length = padLength q.length := by
    unfold padLength
    rw [List.length_append]
    omega
  rw [padded, padded, hpad, List.append_assoc]

/-- Settles O43: the members in order, on the trie of the bytes' Frequency Table. -/
theorem compressResult : Obligations.CompressResult := by
  unfold Obligations.CompressResult
  intro s bytes h hin hlen
  rw [← List.append_nil (bytesBits bytes)] at hin
  obtain ⟨u, t, ht, hexec, hwell, hphase, hfreq, htrie, hcodes, hout, hinp⟩ :=
    exec_compress_stream h hin (by decide) (by omega)
  refine ⟨u, t, ht, hexec, hwell, hphase, hfreq, htrie, hcodes, hout, fun haligned => ?_, ?_⟩
  · rw [hout, padded_append haligned]
  · rw [hinp, hin, List.append_nil, bytesBits_length]

/-! ### COMPRESS of too many bytes -/

/-- COMPRESS of 2^32 - 1 bytes or more raises E_OVERFLOW in COUNT or in BUILD (R201; 41_trie_builder.md R134). -/
theorem exec_compress_overflows {s : State} {bytes : List (BitVec 8)} {rest : Bits} (h : Ready s)
    (ha : ahead s = bytesBits bytes ++ rest) (hrest : rest.length < 8) (hlen : 2 ^ 32 - 1 ≤ bytes.length) :
    ∃ u, exec .compress s = .next u ∧ EndedBadly .overflow u ∧ u.out = s.out := by
  rcases counts_fit_or_overflow bytes with hlt | ⟨p, x, q, rfl, hlt, hfull⟩
  · have hsum : 2 ^ 32 ≤ freqSum (freqOf bytes) := by rw [freqSum_freqOf hlt]; omega
    obtain ⟨u, hexec, -, herr, hbad, -, -, hout⟩ :=
      buildOverflowExact (counted bytes s) h rfl (freqOf_eos bytes)
    replace herr := herr.mpr hsum
    refine ⟨u, ?_, (hbad herr).1, hout⟩
    rw [exec_compress_counted h ha hrest hlt, issueAll_cons _ hexec, issueAll_err (by decide) herr]
  · have ha' : ahead s = bytesBits (p ++ [x]) ++ (bytesBits q ++ rest) := by
      rw [ha, bytesBits_append, List.append_assoc]
    have hcount := countOverflowRaises s p x _ h ha' hlt hfull
    have hmembers := (issueAll_cons compressMembers.tail hcount).trans (issueAll_err (by decide) rfl)
    exact ⟨_, (exec_compress h.1).trans hmembers, ⟨h.1, rfl, rfl, rfl⟩, rfl⟩

/-- Settles O44: the whole bytes of IN are counted, whatever bits are left behind them. -/
theorem compressRaises : Obligations.CompressRaises := by
  unfold Obligations.CompressRaises
  intro s h hpos
  obtain ⟨bytes, rest, hbits, hrest⟩ := exists_bytes s.inp.bits
  have hdiv : s.inp.bits.length / 8 = bytes.length := by
    rw [hbits, List.length_append, bytesBits_length]
    omega
  rw [hdiv]
  by_cases hlen : 2 ^ 32 - 1 ≤ bytes.length
  · have ha : ahead s = bytesBits bytes ++ rest := by rw [ahead, hpos, List.drop_zero, hbits]
    obtain ⟨u, hexec, hbad, hout⟩ := exec_compress_overflows h ha hrest hlen
    obtain ⟨_, _, herr, _⟩ := id hbad
    exact ⟨u, hexec, iff_of_true herr hlen, fun _ => ⟨hbad, hout⟩⟩
  · have hin : s.inp = { bits := bytesBits bytes ++ rest, pos := 0 } := by rw [← hbits, ← hpos]
    obtain ⟨u, t, -, hexec, ⟨_, _, herr⟩, -⟩ := exec_compress_stream h hin hrest (Nat.lt_of_not_le hlen)
    exact ⟨u, hexec, iff_of_false (ne_true_of_eq_false herr) hlen, fun hu => absurd hu (ne_true_of_eq_false herr)⟩

end Sys2Proof.Machine

namespace Sys2Proof.Machine

/-! ### What COMPRESS writes, DECOMPRESS reads -/

/-- The codes of the bytes as paths of the trie, each with its byte (R205). -/
def literals (t : Trie) (bytes : List (BitVec 8)) : List (Bits × Nat) :=
  bytes.map fun b => (codeBits (codeTable t)[byteSymbol b], b.toNat)

theorem literalBits_literals (t : Trie) (bytes : List (BitVec 8)) : literalBits (literals t bytes) = bytesBits bytes :=
  List.flatMap_map ..

/-- The payload of 30_encoding.md R101 is the literal paths and the path of the pseudo-symbol. -/
theorem payload_eq (t : Trie) (bytes : List (BitVec 8)) :
    payload (codeTable t) bytes = pathBits (literals t bytes) ++ codeBits (codeTable t)[eosSymbol] := by
  rw [payload, pathBits, literals, List.flatMap_map]

theorem literalPaths_literals {t : Trie} {bytes : List (BitVec 8)} (hfit : t.nodes ≤ 513)
    (hbytes : ∀ b ∈ bytes, b.toNat ∈ t.symbols) : LiteralPaths t (literals t bytes) := by
  intro e he
  obtain ⟨b, hb, rfl⟩ := List.mem_map.mp he
  exact ⟨leafAt_codeTable hfit ((codeTable_valid_iff hfit _).mpr (hbytes b hb)), b.isLt.ne⟩

/-- DECOMPRESS of the stream of 30_encoding.md R95 for a trie in which every byte and the pseudo-symbol are on a leaf
writes the bytes, whatever follows the stream (R199). -/
theorem exec_decompress_stream {s : State} {t : Trie} {bytes : List (BitVec 8)} {rest : Bits} (h : Ready s)
    (hfit : t.nodes ≤ 513) (hsym : ∀ x ∈ t.symbols, x ≤ 256) (hbytes : ∀ b ∈ bytes, b.toNat ∈ t.symbols)
    (heos : 256 ∈ t.symbols) (ha : ahead s = streamBody s.magic t bytes ++ rest) :
    ∃ u, exec .decompress s = .next u ∧ EndedWell u ∧ u.out = s.out ++ bytesBits bytes
      ∧ u.inp = { s.inp with pos := s.inp.pos + (streamBody s.magic t bytes).length } := by
  have hpe : t.leafAt (codeBits (codeTable t)[eosSymbol]) = some 256 :=
    leafAt_codeTable hfit ((codeTable_valid_iff hfit eosSymbol).mpr heos)
  rw [streamBody, payload_eq] at ha ⊢
  simp only [List.append_assoc] at ha
  obtain ⟨u, ids, hexec, hwell, -, -, -, -, -, hout, hinp⟩ :=
    decompressResult s t _ _ rest h hfit hsym (literalPaths_literals hfit hbytes) hpe ha
  rw [literalBits_literals] at hout
  refine ⟨u, hexec, hwell, hout, ?_⟩
  rw [hinp]
  simp only [List.length_append, bitsOf_length, Nat.add_assoc]

/-- Settles O46: what COMPRESS wrote is the stream of the bytes under the trie of their Frequency Table, and padding. -/
theorem roundTrip : Obligations.RoundTrip := by
  unfold Obligations.RoundTrip
  refine fun magic bytes => ⟨fun hlen => ?_, fun hlen => ?_⟩
  · obtain ⟨u, t, ht, hexec, hwell, -, -, -, -, hout, -⟩ :=
      compressResult (entry magic (bytesBits bytes)) bytes ⟨rfl, rfl⟩ rfl hlen
    obtain ⟨hfit, hsym⟩ := huffTrie_fits ht
    obtain ⟨hbytes, heos⟩ := symbols_of_huffTrie ht (occurrences_lt (by omega))
    have ha : ahead (entry magic u.out) = streamBody magic t bytes ++ _ := hout
    obtain ⟨v, hv, hvwell, hvout, -⟩ :=
      exec_decompress_stream (s := entry magic u.out) ⟨rfl, rfl⟩ hfit hsym hbytes heos ha
    exact ⟨u, v, hexec, hwell, hv, hvwell, hvout⟩
  · have ha : ahead (entry magic (bytesBits bytes)) = bytesBits bytes ++ [] := (List.append_nil _).symm
    exact exec_compress_overflows ⟨rfl, rfl⟩ ha (by decide) (by omega)

/-! ### The empty input -/

/-- The trie of the pseudo-symbol alone (41_trie_builder.md R132). -/
def eosTrie : Trie := .leaf 256 1

theorem streamBody_eosTrie (magic : Word) : streamBody magic eosTrie [] =
    bitsOf 32 magic.toNat ++ [true, true, false, false, false, false, false, false, false, false] := by
  have hcode : eosTrie.leafAt (codeBits (codeTable eosTrie)[eosSymbol]) = some 256 :=
    leafAt_codeTable (by decide) ((codeTable_valid_iff (by decide) eosSymbol).mpr (by decide))
  have hser : eosTrie.ser = [true, true, false, false, false, false, false, false, false, false] := by decide
  rw [streamBody, payload, (leafAt_leaf hcode).1, hser]
  simp

/-- Without bytes no byte value has a frequency (40_frequency_table.md R124). -/
theorem freqOf_nil {v : Symbol} (hv : v ≠ eosSymbol) : (freqOf [])[v] = 0#32 := by
  have hne : v.val ≠ 256 := fun e => hv (Fin.ext e)
  simp [freqOf, occurrences, hne]

/-- The state in which BUILD leaves the pseudo-symbol's leaf alone (41_trie_builder.md R132). -/
def builtEos (s : State) : State := { s with
  phase := 3#4, done := true, trieValid := true, codesValid := false, trieStarted := true
  nnodes := 1, seq := 1, pq := [], root := 0, node := s.node.set 0 (leafNode eosSymbol 1#32) }

theorem builtEos_root (s : State) : (builtEos s).node[(builtEos s).root] = leafNode eosSymbol 1#32 :=
  Vector.getElem_set_self (by decide)

theorem holds_builtEos (s : State) : Holds (builtEos s) eosTrie := by
  have hroot := builtEos_root s
  have htree := TreeAt.leaf (node := (builtEos s).node) (builtEos s).root (by rw [hroot]; rfl)
  rw [hroot] at htree
  exact ⟨⟨_, htree⟩, by decide, by decide⟩

/-- COMPRESS of an empty IN: BUILD leaves the pseudo-symbol's leaf as the root (R203). -/
theorem exec_compress_empty {s : State} (h : Ready s) (hin : s.inp = { bits := [], pos := 0 }) :
    ∃ u, exec .compress s = .next u ∧ EndedWell u ∧ u.root = 0 ∧ u.node[u.root] = leafNode eosSymbol 1#32
      ∧ u.out = padded (s.out ++ streamBody s.magic eosTrie []) := by
  have ha : ahead s = bytesBits [] ++ [] := by rw [ahead, hin]; rfl
  have hcount := exec_compress_counted h ha (by decide) (by simp [occurrences])
  have hbuild := buildOneLeaf (counted [] s) h rfl (freqOf_eos []) fun _ hv => freqOf_nil hv
  have hmembers := issueAll_compressed (t := eosTrie) (bytes := []) (rest := []) (u := builtEos (counted [] s)) h rfl
    (holds_builtEos _) (by rw [builtEos, counted, hin]; rfl) (by decide) (by simp) (by decide)
  exact ⟨_, hcount.trans ((issueAll_cons _ hbuild).trans hmembers), ⟨h.1, rfl, h.2⟩, rfl, builtEos_root _, rfl⟩

/-- Settles O47: COMPRESS writes the stream of no bytes under the trie of the pseudo-symbol alone, and DECOMPRESS reads
it. -/
theorem emptyInput : Obligations.EmptyInput := by
  unfold Obligations.EmptyInput
  intro s h hin hempty
  obtain ⟨u, hexec, hwell, hroot, hnode, hout⟩ := exec_compress_empty h hin
  have hzeros : padLength (streamBody s.magic eosTrie []).length = 6 := by simp [streamBody_eosTrie, padLength]
  rw [hempty, List.nil_append, padded, hzeros] at hout
  have hbits := hout
  rw [streamBody_eosTrie, List.append_assoc] at hbits
  refine ⟨u, hexec, hwell, hroot, hnode, hbits, fun r hr hmagic hinp => ?_⟩
  have ha : ahead r = streamBody r.magic eosTrie [] ++ List.replicate 6 false := by
    rw [ahead, hinp, hmagic, hout]
    rfl
  obtain ⟨v, hv, hvwell, hvout, hvinp⟩ :=
    exec_decompress_stream hr (by decide) (by decide) (by simp) (by decide) ha
  refine ⟨v, hv, hvwell, ?_, by simpa [bytesBits] using hvout⟩
  rw [hvinp, hinp]
  simp [streamBody_eosTrie]

end Sys2Proof.Machine

namespace Sys2Proof.Machine

/-! ### Raises before any command's body -/

/-- Settles O11: the table of codes, and the one equation of a raise. -/
theorem errorCodes : Obligations.ErrorCodes := by
  unfold Obligations.ErrorCodes
  exact ⟨by decide, fun _ _ => rfl⟩

/-- A reserved word written to an accepting machine raises (60_exceptions.md R222). -/
theorem rejectWord_ready {s : State} (h : Ready s) : rejectWord s = raiseErr .illegalCmd s := by
  simp [rejectWord, h.1, h.2]

/-- Settles O8: the write of a rejected word is the raise of R222 alone. -/
theorem reservedWordRaises : Obligations.ReservedWordRaises := by
  unfold Obligations.ReservedWordRaises
  intro s w e rest h hhost hw
  have hreject := rejectWord_ready (s := { s with host := rest }) h
  rw [step_move h.1 hhost, hostMove, if_pos rfl, writeCmd, hw, hreject, Host.Outcome.next.injEq, State.mk.injEq]
  simp [Err.code, h.1]

/-- An instruction with a precondition to fail is a primitive in the envelope of R94. -/
theorem exec_of_denied {i : Instr} {s : State} (h : precondition i s = false) :
    ∃ body, exec i s = issue (primitive i body) s := by
  cases i with
  | build => exact ⟨buildBody, rfl⟩
  | gencode => exact ⟨gencodeBody, rfl⟩
  | wrhdr => exact ⟨wrhdrBody, rfl⟩
  | encode => exact ⟨encodeBody, rfl⟩
  | decode => exact ⟨decodeBody, rfl⟩
  | _ => cases h

/-- Settles O10: the raise comes after `PHASE` is set and in place of the body. -/
theorem sequenceErrorRaises : Obligations.SequenceErrorRaises := by
  unfold Obligations.SequenceErrorRaises
  refine ⟨fun i s h hpre => ?_, fun _ => ⟨rfl, rfl, rfl, rfl, rfl⟩⟩
  obtain ⟨body, hexec⟩ := exec_of_denied hpre
  rw [hexec, issue_ready h, primitive_denied (by rwa [precondition_accept]), settle, Host.Outcome.next.injEq,
    State.mk.injEq]
  simp [Err.code, h.1]

/-! ### DECODE on a one-leaf trie -/

/-- Settles O41: DECODE's body looks at the root before it reads a bit (44_stream_transcoder.md R186). -/
theorem decodeOneLeaf : Obligations.DecodeOneLeaf := by
  unfold Obligations.DecodeOneLeaf
  intro s h hvalid hleaf
  have hbody : decodeBody (setPhase .decode (accept s)) = if (s.node[s.root]).value = 256#16
      then .ok (setPhase .decode (accept s)) else .raised .badRoot (setPhase .decode (accept s)) := if_pos hleaf
  refine ⟨fun heos => ?_, fun hother => ?_⟩
  · rw [exec_decode h hvalid, hbody, if_pos heos, settle, Host.Outcome.next.injEq, State.mk.injEq]
    simp [opcodeOf, h.1]
  · rw [exec_decode h hvalid, hbody, if_neg hother, settle, Host.Outcome.next.injEq, State.mk.injEq]
    simp [opcodeOf, Err.code, h.1]

/-! ### ENCODE without a code -/

/-- A symbol without a code raises (R179). -/
theorem emitCode_invalid {sym : Symbol} {s : State} (h : (s.code[sym]).valid = false) :
    emitCode sym s = .raised .noCode s :=
  if_neg (ne_true_of_eq_false h)

/-- An iteration that reads a byte without a code raises behind it (R179). -/
theorem encodeLoop_byteWithoutCode {fuel : Nat} {x : BitVec 8} {s : State} {rest : Bits}
    (h : ahead s = bitsOf 8 x.toNat ++ rest) (hx : (s.code[byteSymbol x]).valid = false) :
    encodeLoop (fuel + 1) s = .raised .noCode { s with inp := { s.inp with pos := s.inp.pos + 8 } } := by
  have hemit := emitCode_invalid (s := { s with inp := { s.inp with pos := s.inp.pos + 8 } }) hx
  rw [encodeLoop, inRead_word (by decide) h]
  exact congrArg (Run.bind · (encodeLoop fuel)) hemit

/-- ENCODE's body when the byte behind bytes with codes has none (R179; 60_exceptions.md R227). -/
theorem encodeBody_byteWithoutCode {bytes : List (BitVec 8)} {x : BitVec 8} {s : State} {rest : Bits}
    (h : ahead s = bytesBits bytes ++ (bitsOf 8 x.toNat ++ rest))
    (hcodes : ∀ b ∈ bytes, (s.code[byteSymbol b]).valid = true) (hx : (s.code[byteSymbol x]).valid = false) :
    encodeBody s = .raised .noCode { encoded bytes s with
      inp := { s.inp with pos := s.inp.pos + 8 * bytes.length + 8 } } := by
  obtain ⟨fuel, hbody⟩ := encodeBody_encoded h hcodes
  exact hbody.trans (encodeLoop_byteWithoutCode (ahead_encoded h) hx)

/-- ENCODE's body when the pseudo-symbol has no code, behind bytes with codes that are all of IN's (R179, R227). -/
theorem encodeBody_eosWithoutCode {bytes : List (BitVec 8)} {s : State} {rest : Bits}
    (h : ahead s = bytesBits bytes ++ rest) (hrest : rest.length < 8)
    (hcodes : ∀ b ∈ bytes, (s.code[byteSymbol b]).valid = true) (heos : (s.code[eosSymbol]).valid = false) :
    encodeBody s = .raised .noCode { encoded bytes s with inp := { s.inp with pos := s.inp.bits.length } } := by
  obtain ⟨fuel, hbody⟩ := encodeBody_encoded h hcodes
  rw [hbody, encodeLoop_exhausted (ahead_encoded h ▸ hrest)]
  exact emitCode_invalid heos

/-- Settles O39: the data loop passes over the bytes with codes and raises where it emits the symbol without one. -/
theorem encodeNoCodeRaises : Obligations.EncodeNoCodeRaises := by
  unfold Obligations.EncodeNoCodeRaises
  intro s bytes h hvalid hcodes
  refine ⟨fun x rest ha hx => ?_, fun rest ha hrest heos => ?_⟩
  · rw [exec_encode h hvalid, encodeBody_byteWithoutCode (s := setPhase .encode (accept s)) ha hcodes hx, settle,
      Host.Outcome.next.injEq, State.mk.injEq]
    simp [encoded, opcodeOf, Err.code, h.1, Nat.mul_add_one, Nat.add_assoc]
  · rw [exec_encode h hvalid, encodeBody_eosWithoutCode (s := setPhase .encode (accept s)) ha hrest hcodes heos,
      settle, Host.Outcome.next.injEq, State.mk.injEq]
    simp [encoded, opcodeOf, Err.code, h.1]

end Sys2Proof.Machine

namespace Sys2Proof.Machine

/-! ### Where RDHDR stands behind records -/

/-- Reading a record leaves the position within IN, wherever it stood (20_memory.md R64, R65). -/
theorem readRecord_within {s t : State} {x : Except Err HdrRecord} (h : readRecord s = (x, t)) : InWithin t := by
  have hread {n : Nat} {u v : State} {y : Option (BitVec n)} (k : inRead n u = (y, v)) : InWithin v := by
    simpa [k] using inRead_within n u
  unfold readRecord at h
  split at h
  next u hbit => cases h; exact hread hbit
  next b u hbit =>
    split at h
    · split at h
      next v hfield => cases h; exact hread hfield
      next f v hfield => split at h <;> cases h <;> exact hread hfield
    · cases h; exact hread hbit

/-- RDHDR's loop keeps the position within IN. -/
theorem rdhdrLoop_within (fuel : Nat) {s : State} (h : InWithin s) : (rdhdrLoop fuel s).Ends InWithin := by
  induction fuel generalizing s with
  | zero => trivial
  | succ fuel ih =>
    unfold rdhdrLoop
    split
    · exact h
    · split
      next e t ht => exact readRecord_within ht
      next r t ht =>
        have hwithin := readRecord_within ht
        refine ends_bind (ends_mono (takeRecord_frame r t) fun u ⟨_, _, _, e⟩ => e ▸ hwithin) fun u hu => ?_
        split
        · exact hu
        · exact ih hu

/-- While bits lie ahead the position is within IN. -/
theorem inWithin_of_ahead {s : State} (h : 0 < (ahead s).length) : InWithin s := by
  rw [ahead_length] at h
  exact Nat.le_of_lt (Nat.lt_of_sub_pos h)

/-- A position within IN is told by the bits ahead (20_memory.md R62). -/
theorem inp_eq_of_ahead {s u : State} {p rest : Bits} (hbits : u.inp.bits = s.inp.bits) (hs : InWithin s)
    (hu : InWithin u) (ha : ahead s = p ++ rest) (hrest : ahead u = rest) :
    u.inp = { s.inp with pos := s.inp.pos + p.length } := by
  have hlen := ahead_length s
  have hlen' := ahead_length u
  rw [ha, List.length_append] at hlen
  rw [hrest, hbits] at hlen'
  rw [InWithin] at hs hu
  rw [hbits] at hu
  have hpos : u.inp.pos = s.inp.pos + p.length := by omega
  exact congrArg₂ InStream.mk hbits hpos

/-- RDHDR begun in s, behind these many records of a header that still owes a subtree: the records are stored, and
nothing is written but the trie and the position of IN (43_header_codec.md R161). -/
structure HeaderBegun (count : Nat) (s u : State) : Prop where
  phase : u.phase = 0xB#4
  trieValid : u.trieValid = false
  codesValid : u.codesValid = false
  nnodes : u.nnodes.val = count
  bits : u.inp.bits = s.inp.bits
  out : u.out = s.out

/-- RDHDR reads on over records that leave a subtree owed (R161; 30_encoding.md R99). -/
theorem exec_rdhdr_records {s : State} {rs : List HdrRecord} {tail : Bits} (h : Ready s)
    (hwf : ∀ r ∈ rs, r.instr.wf = true) (howed : 0 < awaited 1 rs) (hroom : rs.length ≤ 513)
    (ha : ahead s = rs.flatMap encodeRecord ++ tail) :
    ∃ u, HeaderBegun rs.length s u ∧ ahead u = tail
      ∧ (InWithin s → (rdhdrLoop (513 - rs.length + 1) u).Ends InWithin)
      ∧ exec .rdhdr s = settle (rdhdrLoop (513 - rs.length + 1) u) := by
  have hwithin (hin : InWithin s) := rdhdrLoop_within 514 (s := rdhdrStart (setPhase .rdhdr (accept s))) hin
  obtain ⟨u, hloop, hn, hahead, hframe⟩ := rdhdrLoop_records
    (s := rdhdrStart (setPhase .rdhdr (accept s))) (513 - rs.length + 1) (waitingStored_start _) hwf howed
    ((Nat.zero_add _).trans_le hroom) ha
  rw [show 513 - rs.length + 1 + rs.length = 514 by omega] at hloop
  rw [hloop] at hwithin
  obtain ⟨n, c, st, p, rfl⟩ := hframe
  exact ⟨_, ⟨rfl, rfl, rfl, hn.trans (Nat.zero_add _), rfl, rfl⟩, hahead, hwithin,
    (exec_rdhdr h).trans (congrArg settle hloop)⟩

/-! ### Headers that raise -/

/-- Settles O29: in a full arena the loop raises before it reads. -/
theorem headerOverflowRaises : Obligations.HeaderOverflowRaises := by
  unfold Obligations.HeaderOverflowRaises
  intro s rs tail h hwf howed hcount ha
  obtain ⟨u, hu, hahead, hwithin, hexec⟩ := exec_rdhdr_records h hwf howed hcount.le ha
  have hfull : u.nnodes.val = 513 := hu.nnodes.trans hcount
  rw [rdhdrLoop_full _ hfull] at hexec hwithin
  have hs : InWithin s := inWithin_of_ahead (by
    obtain ⟨r, rs, rfl⟩ := List.exists_cons_of_length_eq_add_one hcount
    cases r <;> simp [ha, encodeRecord])
  exact ⟨_, hexec, ⟨rfl, rfl, rfl, rfl⟩, hu.phase, hu.trieValid, hu.codesValid, Fin.ext hfull, hu.out,
    inp_eq_of_ahead hu.bits hs (hwithin hs) ha hahead⟩

/-- Settles O30: behind the records the next record is cut short, so reading it raises. -/
theorem headerTruncatedRaises : Obligations.HeaderTruncatedRaises := by
  unfold Obligations.HeaderTruncatedRaises
  intro s rs tail h _ hwf howed hroom ha htail
  obtain ⟨u, hexec, hbad, hphase, htrie, hcodes, hnnodes, hinp, hout⟩ :=
    exec_rdhdr_truncated h hwf howed hroom ha htail
  exact ⟨u, hexec, hbad, hphase, htrie, hcodes, hnnodes, hout, hinp⟩

/-- A leaf bit and a field that names no Symbol (30_encoding.md R100; 60_exceptions.md R224). -/
theorem readRecord_badField {s : State} {v : Nat} {rest : Bits} (hv : 257 ≤ v) (hlt : v < 512)
    (h : ahead s = true :: (bitsOf 9 v ++ rest)) :
    readRecord s = (.error .badSymbol, { s with inp := { s.inp with pos := s.inp.pos + 10 } }) := by
  refine readRecord_reserved h (by simp) ?_
  rw [take_bitsOf, valOf_bitsOf hlt, BitVec.toNat_ofNat, Nat.mod_eq_of_lt hlt]
  omega

/-- Settles O31: reading the field raises before its record is stored. -/
theorem headerBadSymbolRaises : Obligations.HeaderBadSymbolRaises := by
  unfold Obligations.HeaderBadSymbolRaises
  intro s rs v rest h hwf howed hroom hv hlt ha
  obtain ⟨u, hu, hahead, -, hexec⟩ := exec_rdhdr_records h hwf howed hroom.le ha
  rw [rdhdrLoop_error _ (hu.nnodes.trans_lt hroom) (readRecord_badField hv hlt hahead)] at hexec
  have hinp := inp_eq_of_ahead hu.bits (inWithin_of_ahead (by simp [ha])) (inWithin_of_ahead (by simp [hahead])) ha
    hahead
  refine ⟨_, hexec, ⟨rfl, rfl, rfl, rfl⟩, hu.phase, hu.trieValid, hu.codesValid, hu.nnodes, hu.out, ?_⟩
  rw [raiseErr_inp, hinp]

end Sys2Proof.Machine

namespace Sys2Proof.Machine

/-! ### The sticky error -/

/-- While `ERR = 1` no word written to `CMD` has an effect (60_exceptions.md R218; 10_state.md R42). -/
theorem writeCmd_err (w : Word) {s : State} (h : s.err = true) : writeCmd w s = .next s := by
  rcases writeCmd_cases w s with ⟨i, _, hissue⟩ | hreject
  · rw [hissue, issue_ignored (.inr h)]
  · simp [hreject, rejectWord, h]

/-- What is left of a move of the host while `ERR = 1` (R218): nothing at all, or an attachment, an index register
written, or what a read or a collect returns (R46, R47, R48; 20_memory.md R81). -/
inductive StickyMove (s : State) : HostMove → State → Prop
  | ignored (m : HostMove) : StickyMove s m s
  | attachIn (bits : Bits) (pos : Nat) : StickyMove s (.attachIn bits pos) { s with inp := ⟨bits, pos⟩ }
  | attachOut (bits : Bits) : StickyMove s (.attachOut bits) { s with out := bits }
  | freqAddr (w : Word) : StickyMove s (.write 5 w) { s with freqAddr := w.setWidth 9 }
  | nodeAddr (w : Word) : StickyMove s (.write 7 w) { s with nodeAddr := w.setWidth 10 }
  | codeAddr (w : Word) : StickyMove s (.write 11 w) { s with codeAddr := w.setWidth 9 }
  | read (n : Nat) (w : Word) (d : Nat) : StickyMove s (.read n) { s with busData := w, draws := d }
  | collect : StickyMove s .collect { s with collected := s.out }

theorem writeReg_err (n : Nat) (w : Word) {s : State} (h : s.err = true) :
    StickyMove s (.write n w) (writeReg n w s) := by
  unfold writeReg
  split
  case h_1 => exact .freqAddr w
  case h_2 =>
    rw [writeFreqData_disabled w (.inl h)]
    exact .ignored _
  case h_3 => exact .nodeAddr w
  case h_4 => exact .codeAddr w
  case h_5 => exact .ignored _

/-- Every move of the host but the reset, while `ERR = 1` (R218). -/
theorem hostMove_err {m : HostMove} {s t : State} (herr : s.err = true) (hm : m ≠ .rst)
    (h : hostMove m s = .next t) : StickyMove s m t := by
  cases m with
  | rst => exact absurd rfl hm
  | attachIn bits pos =>
    rw [hostMove] at h
    split at h <;> cases h
    exact .attachIn bits pos
  | attachOut bits => cases h; exact .attachOut bits
  | write n w =>
    rw [hostMove] at h
    split at h
    · rw [writeCmd_err w herr] at h
      cases h
      exact .ignored _
    · cases h
      exact writeReg_err n w herr
  | read n =>
    cases h
    obtain ⟨w, d, hread⟩ := hostRead_frame n s
    exact hread ▸ .read n w d
  | collect => cases h; exact .collect

/-- Settles O59: the writes, the reads and the reset by the rules of each move, and every other
step by `hostMove_err`. -/
theorem errorIsSticky : Obligations.ErrorIsSticky := by
  unfold Obligations.ErrorIsSticky
  intro s hbusy herr
  refine ⟨fun w rest hhost => ?cmd, fun w rest hhost => ?freqData, fun n rest hhost => ?read, fun rest hhost => ?reset,
    fun t ht hrst => ?others⟩
  case cmd =>
    rw [step_move hbusy hhost, hostMove, if_pos rfl]
    exact writeCmd_err w herr
  case freqData =>
    rw [step_write hbusy hhost (by decide)]
    exact congrArg _ (writeFreqData_disabled w (.inl herr))
  case read =>
    obtain ⟨w, d, hread⟩ := hostRead_frame n { s with host := rest }
    exact ⟨w, d, by rw [step_move hbusy hhost, hostMove, hread]⟩
  case reset =>
    obtain ⟨t, hstep, _, _, hclear, _, _, _, hcode, _⟩ := resetMove s rest hbusy hhost
    exact ⟨t, hstep, hclear, hcode⟩
  case others =>
    cases hhost : s.host with
    | nil =>
      rw [step_idle hbusy, hostTurn, hhost] at ht
      cases ht
      have htail : s.host.tail = s.host := by rw [hhost, List.tail_nil]
      simp [← hhost, htail]
    | cons m rest =>
      rw [step_move hbusy hhost] at ht
      rw [hhost, List.head?_cons, ne_eq, Option.some.injEq] at hrst
      cases hostMove_err (s := { s with host := rest }) herr hrst ht <;> simp

end Sys2Proof.Machine
